-- ==== Sys2Proof/Word.lean ====
section
/-! DEFINITION. The words of the machine: 32-bit words and binary32 bit patterns (spec R15, R18, R29). -/

namespace Sys2Proof

/-- A byte, on a bus narrower than a word and in a memory cell (R73). -/
abbrev Byte := BitVec 8

/-- A 32-bit word: a register, a command word, a word of the block sample memory (R29, R72, R100). -/
abbrev Word := BitVec 32

/-- An IEEE 754 binary32 value, held as its bit pattern: bit 31 sign, bits 30:23 exponent, bits 22:0
fraction (R18, R73). -/
abbrev F32 := BitVec 32

end Sys2Proof
end

