-- ==== Sys2Proof/Syntax.lean ====
section
/-! DEFINITION. The instructions: one constructor per row of the opcode table (spec R103, R105). -/

namespace Sys2Proof

/-- The seven host commands of format H (R103) and the thirty-four micro-operations of format U (R105). Only
PROCESS and PROCESS_BYPASSED have an operand in their word (R102); a micro-operation's operands are not encoded:
"each rule names the state it reads and writes and the sequencer registers that select them" (R101). -/
inductive Instr where
  /-- NOP (R252). -/
  | nop
  /-- PREPARE (R250). -/
  | prepare
  /-- RELEASE (R251). -/
  | release
  /-- PROCESS (R190); `M` is the block length, ARG. -/
  | process (M : Nat)
  /-- PROCESS_BYPASSED (R199); `M` is the block length, ARG. -/
  | processBypassed (M : Nat)
  /-- NOTIFY_SETTINGS (R253). -/
  | notifySettings
  /-- NOTIFY_WINDOW (R230). -/
  | notifyWindow
  /-- RB.WRITE (R121). -/
  | rbWrite
  /-- RB.LAST (R122). -/
  | rbLast
  /-- RB.DRAIN (R123). -/
  | rbDrain
  /-- RB.ACC (R124). -/
  | rbAcc
  /-- CMP.PROCESS (R142). -/
  | cmpProcess
  /-- CMP.SETTHR (R147). -/
  | cmpSetThr
  /-- CMP.SETTIME (R148). -/
  | cmpSetTime
  /-- CMP.SETRATIO (R149). -/
  | cmpSetRatio
  /-- SC.ANALYZE (R161). -/
  | scAnalyze
  /-- AGG.ACC (R162). -/
  | aggAcc
  /-- AGG.COMMIT (R163). -/
  | aggCommit
  /-- STFT.EXTRACT (R172). -/
  | stftExtract
  /-- STFT.WINA (R174). -/
  | stftWinA
  /-- FFT.FWD (R175). -/
  | fftFwd
  /-- BIN.SCALE (R176). -/
  | binScale
  /-- FFT.INV (R177). -/
  | fftInv
  /-- STFT.WINS (R178). -/
  | stftWinS
  /-- STFT.OLA (R179). -/
  | stftOla
  /-- STFT.COUNT (R180). -/
  | stftCount
  /-- STFT.CYCLE (R170). -/
  | stftCycle
  /-- BYP.CYCLE (R182). -/
  | bypCycle
  /-- SCHED.ALIGN (R196). -/
  | schedAlign
  /-- SCHED.IOSTEP (R194). -/
  | schedIoStep
  /-- SCHED.ZFILL (R193). -/
  | schedZfill
  /-- SCHED.CHECK (R198). -/
  | schedCheck
  /-- SET.FLAGCAS (R217). -/
  | setFlagCas
  /-- SET.UPDATE (R210). -/
  | setUpdate
  /-- THR.CURVE (R212). -/
  | thrCurve
  /-- GAIN.UPDATE (R214). -/
  | gainUpdate
  /-- CFG.CLAIM (R232). -/
  | cfgClaim
  /-- CFG.STAGE (R233). -/
  | cfgStage
  /-- CFG.PUBLISH (R234). -/
  | cfgPublish
  /-- CFG.FETCH (R235). -/
  | cfgFetch
  /-- CFG.RETIRE (R236). -/
  | cfgRetire
deriving DecidableEq, Repr

/-- The rows of R103: the words HOST may write to CMD. All other rows are micro-operations, which only the
sequencers issue (R101). -/
def Instr.isCommand : Instr → Bool
  | .nop | .prepare | .release | .process _ | .processBypassed _ | .notifySettings | .notifyWindow => true
  | .rbWrite | .rbLast | .rbDrain | .rbAcc => false
  | .cmpProcess | .cmpSetThr | .cmpSetTime | .cmpSetRatio => false
  | .scAnalyze | .aggAcc | .aggCommit => false
  | .stftExtract | .stftWinA | .fftFwd | .binScale | .fftInv | .stftWinS | .stftOla | .stftCount => false
  | .stftCycle | .bypCycle => false
  | .schedAlign | .schedIoStep | .schedZfill | .schedCheck => false
  | .setFlagCas | .setUpdate | .thrCurve | .gainUpdate => false
  | .cfgClaim | .cfgStage | .cfgPublish | .cfgFetch | .cfgRetire => false

end Sys2Proof
end

