-- ==== Sys2Proof/WellFormed.lean ====
section
/-! DEFINITION. Which terms of `Instr` are instructions: the block length fits ARG (spec R102). -/

namespace Sys2Proof

/-- The block length of PROCESS and PROCESS_BYPASSED is the unsigned 24-bit ARG: "0 to 2^24 - 1" (R100, R102).
Every other instruction takes no operand from its word. -/
def Instr.wellFormed : Instr → Bool
  | .process M => decide (M < 2 ^ 24)
  | .processBypassed M => decide (M < 2 ^ 24)
  | _ => true

end Sys2Proof
end

