-- ==== Sys2Proof/Decode.lean ====
section
/-! DEFINITION. Decoding of command words and micro-operation codes by the match and mask rows of the opcode table,
and the encoder (spec R100 to R106). Total: what matches no row is rejected by name. -/

namespace Sys2Proof

/-- Why a word is no instruction (R104). -/
inductive DecodeError where
  /-- Fewer than the four bytes of a word were given. -/
  | truncated
  /-- "a non-zero ARG makes the word illegal" (R102): the operation exists and takes no argument. -/
  | nonZeroArg (opc : Byte) (arg : Nat)
  /-- No row has this operation code. -/
  | noSuchOpcode (opc : Byte)
deriving DecidableEq, Repr

/-- One row of the opcode table: a word w selects it when `(w AND mask) = pattern` (R103). -/
structure OpcodeRow where
  mnemonic : String
  mask : Word
  pattern : Word
  /-- The instruction, from the ARG field. -/
  instr : Nat → Instr

/-- A row whose 32 bits are all fixed: `OPC ++ 0x000000`. -/
def fixedRow (mnemonic : String) (opc : Nat) (i : Instr) : OpcodeRow :=
  ⟨mnemonic, 0xFFFFFFFF#32, BitVec.ofNat 32 (opc * 2 ^ 24), fun _ => i⟩

/-- A row with a free ARG. -/
def argRow (mnemonic : String) (opc : Nat) (i : Nat → Instr) : OpcodeRow :=
  ⟨mnemonic, 0xFF000000#32, BitVec.ofNat 32 (opc * 2 ^ 24), i⟩

/-- R103. -/
def commandRows : List OpcodeRow :=
  [fixedRow "NOP" 0x00 .nop, fixedRow "PREPARE" 0x01 .prepare, fixedRow "RELEASE" 0x02 .release,
   argRow "PROCESS" 0x03 .process, argRow "PROCESS_BYPASSED" 0x04 .processBypassed,
   fixedRow "NOTIFY_SETTINGS" 0x05 .notifySettings, fixedRow "NOTIFY_WINDOW" 0x06 .notifyWindow]

/-- R105, the codes of the ring buffer, the compressor bank and the sidechain. -/
def microRowsLow : List OpcodeRow :=
  [fixedRow "RB.WRITE" 0x40 .rbWrite, fixedRow "RB.LAST" 0x41 .rbLast,
   fixedRow "RB.DRAIN" 0x42 .rbDrain, fixedRow "RB.ACC" 0x43 .rbAcc,
   fixedRow "CMP.PROCESS" 0x48 .cmpProcess, fixedRow "CMP.SETTHR" 0x49 .cmpSetThr,
   fixedRow "CMP.SETTIME" 0x4A .cmpSetTime, fixedRow "CMP.SETRATIO" 0x4B .cmpSetRatio,
   fixedRow "SC.ANALYZE" 0x50 .scAnalyze, fixedRow "AGG.ACC" 0x51 .aggAcc,
   fixedRow "AGG.COMMIT" 0x52 .aggCommit]

/-- R105, the codes of the STFT engine. -/
def microRowsStft : List OpcodeRow :=
  [fixedRow "STFT.EXTRACT" 0x58 .stftExtract, fixedRow "STFT.WINA" 0x59 .stftWinA,
   fixedRow "FFT.FWD" 0x5A .fftFwd, fixedRow "BIN.SCALE" 0x5B .binScale,
   fixedRow "FFT.INV" 0x5C .fftInv, fixedRow "STFT.WINS" 0x5D .stftWinS,
   fixedRow "STFT.OLA" 0x5E .stftOla, fixedRow "STFT.COUNT" 0x5F .stftCount,
   fixedRow "STFT.CYCLE" 0x60 .stftCycle, fixedRow "BYP.CYCLE" 0x61 .bypCycle]

/-- R105, the codes of the scheduler, the settings update and the swapper. -/
def microRowsHigh : List OpcodeRow :=
  [fixedRow "SCHED.ALIGN" 0x64 .schedAlign, fixedRow "SCHED.IOSTEP" 0x65 .schedIoStep,
   fixedRow "SCHED.ZFILL" 0x66 .schedZfill, fixedRow "SCHED.CHECK" 0x67 .schedCheck,
   fixedRow "SET.FLAGCAS" 0x68 .setFlagCas, fixedRow "SET.UPDATE" 0x69 .setUpdate,
   fixedRow "THR.CURVE" 0x6A .thrCurve, fixedRow "GAIN.UPDATE" 0x6B .gainUpdate,
   fixedRow "CFG.CLAIM" 0x70 .cfgClaim, fixedRow "CFG.STAGE" 0x71 .cfgStage,
   fixedRow "CFG.PUBLISH" 0x72 .cfgPublish, fixedRow "CFG.FETCH" 0x73 .cfgFetch,
   fixedRow "CFG.RETIRE" 0x74 .cfgRetire]

/-- The opcode table: R103 and R105. -/
def opcodeTable : List OpcodeRow :=
  commandRows ++ microRowsLow ++ microRowsStft ++ microRowsHigh

/-- OPC, bits 31:24 (R100). -/
def opcOf (w : Word) : Byte := w.extractLsb' 24 8

/-- ARG, bits 23:0, zero-extended (R100, R102). -/
def argOf (w : Word) : Nat := (w.extractLsb' 0 24).toNat

/-- The row a word selects. -/
def rowOf (w : Word) : Option OpcodeRow :=
  opcodeTable.find? fun r => w &&& r.mask == r.pattern

/-- "A decoder reads OPC, then ARG" (R106). -/
def decode (w : Word) : Except DecodeError Instr :=
  match rowOf w with
  | some r => .ok (r.instr (argOf w))
  | none =>
    if opcodeTable.any fun r => opcOf w == opcOf r.pattern then .error (.nonZeroArg (opcOf w) (argOf w))
    else .error (.noSuchOpcode (opcOf w))

/-- Decoding of bytes as a bus narrower than a word carries them: little-endian (R73), the first byte bits 7:0.
It answers the instruction and the bytes after its word. -/
def decodeBytes : List Byte → Except DecodeError (Instr × List Byte)
  | b0 :: b1 :: b2 :: b3 :: rest =>
    match decode (b3 ++ b2 ++ b1 ++ b0) with
    | .ok i => .ok (i, rest)
    | .error e => .error e
  | _ => .error .truncated

/-- The command a word written to CMD issues: only the rows of R103; a micro-operation's code is as illegal there as
any other word (R101, R104). -/
def decodeCommand (w : Word) : Option Instr :=
  match decode w with
  | .ok i => if i.isCommand then some i else none
  | .error _ => none

/-- The micro-operation a word on the micro-operation port names: only the rows of R105. -/
def decodeMicroOp (w : Word) : Option Instr :=
  match decode w with
  | .ok i => if i.isCommand then none else some i
  | .error _ => none

/-- The operation code of R103 and R105. -/
def Instr.opcode : Instr → Nat
  | .nop => 0x00
  | .prepare => 0x01
  | .release => 0x02
  | .process _ => 0x03
  | .processBypassed _ => 0x04
  | .notifySettings => 0x05
  | .notifyWindow => 0x06
  | .rbWrite => 0x40
  | .rbLast => 0x41
  | .rbDrain => 0x42
  | .rbAcc => 0x43
  | .cmpProcess => 0x48
  | .cmpSetThr => 0x49
  | .cmpSetTime => 0x4A
  | .cmpSetRatio => 0x4B
  | .scAnalyze => 0x50
  | .aggAcc => 0x51
  | .aggCommit => 0x52
  | .stftExtract => 0x58
  | .stftWinA => 0x59
  | .fftFwd => 0x5A
  | .binScale => 0x5B
  | .fftInv => 0x5C
  | .stftWinS => 0x5D
  | .stftOla => 0x5E
  | .stftCount => 0x5F
  | .stftCycle => 0x60
  | .bypCycle => 0x61
  | .schedAlign => 0x64
  | .schedIoStep => 0x65
  | .schedZfill => 0x66
  | .schedCheck => 0x67
  | .setFlagCas => 0x68
  | .setUpdate => 0x69
  | .thrCurve => 0x6A
  | .gainUpdate => 0x6B
  | .cfgClaim => 0x70
  | .cfgStage => 0x71
  | .cfgPublish => 0x72
  | .cfgFetch => 0x73
  | .cfgRetire => 0x74

/-- The ARG field of an instruction's word (R102). -/
def Instr.arg : Instr → Nat
  | .process M => M
  | .processBypassed M => M
  | _ => 0

/-- The word of an instruction: OPC in bits 31:24, ARG in bits 23:0 (R100, R101). -/
def encode (i : Instr) : Word :=
  BitVec.ofNat 8 i.opcode ++ BitVec.ofNat 24 i.arg

/-- The four bytes of a word, the byte of bits 7:0 first (R73). -/
def bytesOfWord (w : Word) : List Byte :=
  [w.extractLsb' 0 8, w.extractLsb' 8 8, w.extractLsb' 16 8, w.extractLsb' 24 8]

/-- The word a table row's bits stand for; every bit above `nbits` is 0. -/
def tableWord (nbits w : Nat) : Word := BitVec.ofNat 32 (w % 2 ^ nbits)

/-- What the decoder reads from the bytes of a table word laid out in the hardware's byte order. -/
def decodeTableWord (nbits w : Nat) : Option Instr :=
  match decodeBytes (bytesOfWord (tableWord nbits w)) with
  | .ok (i, _) => some i
  | .error _ => none

end Sys2Proof
end

