-- ==== Sys2Proof/Config.lean ====
section
/-! DEFINITION. What an implementation fixes (the build-time parameters of R12) and the free values: opaque
constants with no body, so that nothing can be proved of the value they give. -/

namespace Sys2Proof

/-- The compressor core CMP an implementation has (R12, R141): the reference body of R143 to R146, or another
one, of which only the properties P1 to P3 are known. -/
inductive CmpCore where
  | reference
  | other
deriving DecidableEq, Repr

/-- The conversion DB2LIN an implementation has (R12, R212): the reference `pow(10, x / 20)`, or another one. -/
inductive Db2LinKind where
  | reference
  | other
deriving DecidableEq, Repr

/-- The window table generator WIN an implementation has (R12, R46): the reference table, or another one. -/
inductive WinKind where
  | reference
  | other
deriving DecidableEq, Repr

/-- Build-time parameters of the hardware that are plain data (R12). They are arguments of the step relation (R20),
constant in every run; the state carries them so that a statement about all states is a statement about all machines
(log 4). NUM, FFT and the other kinds of CMP, DB2LIN and WIN are functions and stand below as free constants. -/
structure Params where
  /-- P_MAX_CH: the channels the block sample memory and the slots provide. -/
  maxCh : Nat
  /-- P_MAX_BLOCK: the samples per channel the block sample memory holds. -/
  maxBlock : Nat
  /-- CMP. -/
  core : CmpCore
  /-- DB2LIN. -/
  db2lin : Db2LinKind
  /-- WIN. -/
  win : WinKind
deriving DecidableEq, Repr

/-- The reference values of R12. -/
def Params.reference : Params := ⟨2, 16384, .reference, .reference, .reference⟩

namespace Config

/-- NUM.log2 (R12, U8), free but for the named property LOG2_EXACT_POW2 (`numLog2`). -/
opaque log2 : F32 → F32

/-- NUM.log10 (R12, U8), free but for LOG10_EXACT_100 (`numLog10`). -/
opaque log10 : F32 → F32

/-- NUM.exp (R12, U8), free but for EXP_ZERO (`numExp`). -/
opaque exp : F32 → F32

/-- NUM.pow (R12, U8), free but for POW_ZERO_EXP and the results R146 states (`numPow`). -/
opaque pow : F32 → F32 → F32

/-- FFT.fwd (R12, R175, U9): output element `i` as a function of W and the W input samples (FFT_FUN). -/
opaque fftFwd : (W : Nat) → (x : List F32) → (i : Nat) → F32

/-- FFT.inv (R12, R177, U9): output sample `i` as a function of W and the bins 0 to W/2. -/
opaque fftInv : (W : Nat) → (bins : List F32) → (i : Nat) → F32

/-- A scratch element the transform leaves unspecified (U4): any value, a new one at each transform `draw`. -/
opaque fftTail : (draw : Nat) → (i : Nat) → F32

/-- Another WIN(W), coefficient `n` of its table (R12, R46, U10). -/
opaque win : (W : Nat) → (n : Nat) → F32

/-- The envelope half of another CMP (R141, U11). -/
opaque cmpEnv : (env thr ratio cteA cteR m : F32) → F32

/-- The output half of another CMP (R141, U11), free but for property P2 (`cmpStep`). -/
opaque cmpOut : (env thr ratio cteA cteR m : F32) → F32

/-- The coefficient function another CMP supplies for R148. -/
opaque cmpCte : (t rate : F32) → F32

/-- Another DB2LIN (R12, U21). -/
opaque db2lin : F32 → F32

/-- The sign and payload of a NaN that an operation propagates from an operand (D3, U2). -/
opaque nanBits : (a b : F32) → Word

/-- The byte of block sample memory at `addr` that nothing has written since reset number `epoch`
(R54, U5). -/
opaque ramByte : (epoch addr : Nat) → Byte

/-- What a HOST read of block sample memory returns while RT owns it (R87, U6). -/
opaque raceRead : (draw : Nat) → Word

/-- Whether RT sees a HOST write of block sample memory made while RT owns it (R87, U6). -/
opaque raceSeen : (draw : Nat) → Bool

/-- An element that the named array does not have (log 15): any value. -/
opaque absent : (i : Nat) → F32

/-- `floor(W / 0)`: the windowing interval of a slot whose overlap factor is 0 (U1, log 16). -/
opaque intervalOfZero : (W : Nat) → Nat

/-- `x mod 0`, for an interval of 0 (R15 gives no value, log 16). -/
opaque modZero : (x : Nat) → Nat

/-- `ceil(x / 0)`, for an interval of 0 (log 16). -/
opaque ceilDivZero : (x : Nat) → Nat

end Config

end Sys2Proof
end

