-- ==== Sys2Proof/Machine/Float.lean ====
section
/-! DEFINITION. Binary32 arithmetic on bit patterns (spec R18, R274, decision D3): round to nearest, ties to even, every
operation rounded once, subnormals kept, no flags and no traps. -/

namespace Sys2Proof.Machine

/-- 1.0 -/
def fOne : F32 := 0x3F800000#32

/-- Positive zero, the `0.0` of R18. -/
def fZero : F32 := 0#32

/-- The default quiet NaN of D3. -/
def fDefaultNaN : F32 := 0x7FC00000#32

/-- Plus infinity. -/
def fInfinity : F32 := 0x7F800000#32

/-- Sign bit set? -/
def fSign (a : F32) : Bool := a.getLsbD 31

/-- Exponent field, bits 30:23. -/
def fExpField (a : F32) : Nat := a.toNat / 2 ^ 23 % 256

/-- Fraction field, bits 22:0. -/
def fFracField (a : F32) : Nat := a.toNat % 2 ^ 23

/-- The bit pattern without its sign, as a number. It orders the magnitudes. -/
def fMagnitude (a : F32) : Nat := a.toNat % 2 ^ 31

def fIsNaN (a : F32) : Bool := decide (0x7F800000 < fMagnitude a)

def fIsInf (a : F32) : Bool := fMagnitude a == 0x7F800000

def fIsFinite (a : F32) : Bool := decide (fMagnitude a < 0x7F800000)

def fIsZero (a : F32) : Bool := fMagnitude a == 0

/-- The integer significand of a finite value: the value is `± fSig a * 2 ^ fExp a`. -/
def fSig (a : F32) : Nat :=
  if fExpField a = 0 then fFracField a else fFracField a + 2 ^ 23

/-- The exponent that goes with `fSig`. -/
def fExp (a : F32) : Int :=
  (Nat.max (fExpField a) 1 : Int) - 150

/-- A magnitude with a sign. -/
def fWithSign (neg : Bool) (mag : Nat) : F32 :=
  BitVec.ofNat 32 (if neg then 2 ^ 31 + mag else mag)

/-- The magnitude bits of `m * 2 ^ e` rounded to nearest, ties to even: to 24 bits, or to the multiple of `2 ^ -149`
below the normal range; infinity on overflow. -/
def fRoundMagnitude (m : Nat) (e : Int) : Nat :=
  if m = 0 then 0
  else
    let q : Int := max (e + (m.log2 : Int) - 23) (-149)
    let r : Nat :=
      if q ≤ e then m * 2 ^ (e - q).toNat
      else
        let d := 2 ^ (q - e).toNat
        let rest := m % d
        if 2 * rest > d ∨ (2 * rest = d ∧ m / d % 2 = 1) then m / d + 1 else m / d
    min ((q + 149).toNat * 2 ^ 23 + r) 0x7F800000

/-- The signed value `± m * 2 ^ e` rounded once to binary32. -/
def fRound (neg : Bool) (m : Nat) (e : Int) : F32 := fWithSign neg (fRoundMagnitude m e)

/-- The NaN an operation gives when an operand is one: a quiet NaN whose sign and payload are not specified (D3, U2). -/
def fPropagate (a b : F32) : F32 := fDefaultNaN ||| Config.nanBits a b

/-- Sign change of a bit pattern. -/
def fNeg (a : F32) : F32 := a ^^^ 0x80000000#32

/-- The exact signed value of a finite operand over the unit `2 ^ e`, for `e` at most its exponent. -/
def fScaled (a : F32) (e : Int) : Int :=
  let v : Int := (fSig a * 2 ^ (fExp a - e).toNat : Nat)
  if fSign a then -v else v

/-- `+f` (R18). An exact zero sum is +0 but for two negative zeros. -/
def fAdd (a b : F32) : F32 :=
  if fIsNaN a || fIsNaN b then fPropagate a b
  else if fIsInf a then
    if fIsInf b && (fSign a != fSign b) then fDefaultNaN else a
  else if fIsInf b then b
  else
    let e := min (fExp a) (fExp b)
    let v := fScaled a e + fScaled b e
    if v = 0 then (if fSign a && fSign b then 0x80000000#32 else fZero)
    else fRound (decide (v < 0)) v.natAbs e

/-- `-f` (R18). -/
def fSub (a b : F32) : F32 :=
  if fIsNaN a || fIsNaN b then fPropagate a b else fAdd a (fNeg b)

/-- `*f` (R18). -/
def fMul (a b : F32) : F32 :=
  let neg := fSign a != fSign b
  if fIsNaN a || fIsNaN b then fPropagate a b
  else if fIsInf a then (if fIsZero b then fDefaultNaN else fWithSign neg 0x7F800000)
  else if fIsInf b then (if fIsZero a then fDefaultNaN else fWithSign neg 0x7F800000)
  else fRound neg (fSig a * fSig b) (fExp a + fExp b)

/-- A quotient of integers with its last bit made sticky, enough bits for one rounding. -/
def stickyQuotient (p q : Nat) : Nat :=
  2 * (p / q) + (if p % q = 0 then 0 else 1)

/-- `/f` (R18): division of a non-zero value by zero gives infinity, of zero by zero the default NaN (R274). -/
def fDiv (a b : F32) : F32 :=
  let neg := fSign a != fSign b
  if fIsNaN a || fIsNaN b then fPropagate a b
  else if fIsInf a then (if fIsInf b then fDefaultNaN else fWithSign neg 0x7F800000)
  else if fIsInf b then fWithSign neg 0
  else if fIsZero b then (if fIsZero a then fDefaultNaN else fWithSign neg 0x7F800000)
  else fRound neg (stickyQuotient (fSig a * 2 ^ 64) (fSig b)) (fExp a - fExp b - 65)

/-- The integer square root, bit by bit from bit `k - 1` down. -/
def isqrtBits : (k n r : Nat) → Nat
  | 0, _, r => r
  | k + 1, n, r =>
    isqrtBits k n (if (r + 2 ^ k) * (r + 2 ^ k) ≤ n then r + 2 ^ k else r)

/-- `sqrtf` (R18): correctly rounded; of a negative value the default NaN, of -0 itself. -/
def fSqrt (a : F32) : F32 :=
  if fIsNaN a then fPropagate a a
  else if fIsZero a then a
  else if fSign a then fDefaultNaN
  else if fIsInf a then a
  else
    let odd := (fExp a % 2).toNat
    let n := fSig a * 2 ^ (odd + 64)
    let r := isqrtBits 46 n 0
    fRound false (2 * r + (if r * r = n then 0 else 1)) ((fExp a - odd) / 2 - 33)

/-- A number that orders the values that are not NaN; +0 and -0 have the same. -/
def fOrder (a : F32) : Int := if fSign a then -(fMagnitude a : Int) else fMagnitude a

/-- `a <f b`: false when either side is a NaN (R18). -/
def fLt (a b : F32) : Bool := !fIsNaN a && !fIsNaN b && decide (fOrder a < fOrder b)

/-- `a ==f b`: false when either side is a NaN; +0 equals -0 (R18). -/
def fEq (a b : F32) : Bool := !fIsNaN a && !fIsNaN b && decide (fOrder a = fOrder b)

/-- `f32(n)`: an integer rounded to nearest even (R18). -/
def fOfNat (n : Nat) : F32 := fRound false n 0

/-- An integer of either sign rounded to nearest even. -/
def fOfInt (z : Int) : F32 := fRound (decide (z < 0)) z.natAbs 0

/-- The binary32 nearest to `± p / q` (`q` not 0): the `f:<decimal>` literals of R107. -/
def fOfRatio (neg : Bool) (p q : Nat) : F32 :=
  let k := 64 + q.log2
  fRound neg (stickyQuotient (p * 2 ^ k) q) (-(k + 1 : Int))

/-- The magnitude function (R183): the square root of the sum of the squares, each operation rounded. -/
def fMag (re im : F32) : F32 := fSqrt (fAdd (fMul re re) (fMul im im))

end Sys2Proof.Machine
end

