-- ==== Sys2Proof/Machine/Window.lean ====
section
/-! DEFINITION. The window table WIN(W) (spec R46): the reference table, and the coefficient an implementation's table
has. -/

namespace Sys2Proof.Machine

/-- The binary places of the fixed-point numbers the reference table is evaluated in (log 7). -/
def winPlaces : Nat := 160

/-- Pi, in units of `2 ^ -160`, rounded down. -/
def winPi : Nat := 0x3243f6a8885a308d313198a2e03707344a4093822

/-- WIN_SCALE, `sqrt(8/3)` (R46), in units of `2 ^ -160`, rounded down. -/
def winScale : Nat := isqrtBits (winPlaces + 2) (8 * 2 ^ (2 * winPlaces) / 3) 0

/-- The alternating sum `x^k/k! - x^(k+2)/(k+2)! + ...` of `fuel` terms, where `x2` is the square of x and `t` the first
term; from k = 2 on it is `1 - cos x`. -/
def winSeries (x2 : Nat) : (fuel k t : Nat) → Int
  | 0, _, _ => 0
  | fuel + 1, k, t =>
    t - winSeries x2 fuel (k + 2) (t * x2 / 2 ^ winPlaces / ((k + 1) * (k + 2)))

/-- `1 - cos x`, `x` and the result in units of `2 ^ -160`. -/
def winVersine (x : Nat) : Nat :=
  let x2 := x * x / 2 ^ winPlaces
  (winSeries x2 40 2 (x2 / 2)).toNat

/-- Coefficient `n` of the reference table (R46): `rnd32(WIN_SCALE * 0.5 * (1 - cos(2*pi*n / W)))`, the periodic Hann
shape with a constant scale, rounded once (log 7). -/
def refWin (W n : Nat) : F32 :=
  fRound false (winScale * winVersine (2 * winPi * n / W)) (-(2 * winPlaces + 1 : Int))

/-- WIN(W), coefficient `n`: the reference table, or another one (R12, R46). -/
def winCoefficient (p : Params) (W n : Nat) : F32 :=
  match p.win with
  | .reference => refWin W n
  | .other => Config.win W n

/-- WIN(W): the W window coefficients (R46). -/
def winTable (p : Params) (W : Nat) : List F32 := (List.range W).map (winCoefficient p W)

end Sys2Proof.Machine
end

