-- ==== Sys2Proof/Machine/Primitives.lean ====
section
/-! DEFINITION. The build-time parameters of R12 as the rules use them: the free constants of Config with the properties
the spec names for them (NUM, FFT, CMP, DB2LIN), and the reference bodies the spec gives. -/

namespace Sys2Proof.Machine

/-- The exponent k when the value is exactly `2 ^ k`. -/
def fExactPow2 (a : F32) : Option Int :=
  if fSign a || !fIsFinite a || fIsZero a then none
  else if fSig a = 2 ^ (fSig a).log2 then some (fExp a + (fSig a).log2) else none

/-- NUM.log2, with LOG2_EXACT_POW2: `log2(2^k) = k` (D4, U8). -/
def numLog2 (x : F32) : F32 :=
  match fExactPow2 x with
  | some k => fOfInt k
  | none => Config.log2 x

/-- NUM.log10, with LOG10_EXACT_100: `log10(100.0) = 2.0` (D4, U8). -/
def numLog10 (x : F32) : F32 :=
  if x = 0x42C80000#32 then 0x40000000#32 else Config.log10 x

/-- NUM.exp, with EXP_ZERO: `exp(0.0) = 1.0` (D4, U8). -/
def numExp (x : F32) : F32 :=
  if x = fZero then fOne else Config.exp x

/-- NUM.pow, with POW_ZERO_EXP: `pow(x, 0.0) = 1.0` for every x, infinity and NaN too (D4, U8), and with what R146 states:
`pow(+inf, negative)` is +0, and a NaN to a power that is not zero is a NaN. -/
def numPow (x y : F32) : F32 :=
  if y = fZero then fOne
  else if fIsNaN x && !fIsZero y then fPropagate x y
  else if x = fInfinity ∧ fLt y fZero = true then fZero
  else Config.pow x y

/-- Amplitude decibels to linear (R212): the reference `NUM.pow(10.0, x /f 20.0)`, or another DB2LIN. -/
def db2lin (p : Params) (x : F32) : F32 :=
  match p.db2lin with
  | .reference => numPow 0x41200000#32 (fDiv x 0x41A00000#32)
  | .other => Config.db2lin x

/-- The reference envelope follower (R143). -/
def refEnvelope (env cteA cteR m : F32) : F32 :=
  let cte := if fLt env m then cteA else cteR
  fAdd m (fMul cte (fSub env m))

/-- The reference gain computer (R144). -/
def refGain (env' thr ratio : F32) : F32 :=
  if fLt env' thr then fOne
  else numPow (fDiv env' thr) (fSub (fDiv fOne ratio) fOne)

/-- The reference core (R143 to R145): the new envelope and the compressed magnitude. -/
def refStep (env thr ratio cteA cteR m : F32) : F32 × F32 :=
  let env' := refEnvelope env cteA cteR m
  (env', fMul (refGain env' thr ratio) m)

/-- Another core: free, but for P2, "if ratio is 1.0 then m' = m for every finite m >= 0" (R141). -/
def otherStep (env thr ratio cteA cteR m : F32) : F32 × F32 :=
  (Config.cmpEnv env thr ratio cteA cteR m,
   if ratio = fOne ∧ fIsFinite m ∧ (fIsZero m ∨ ¬ fSign m) then m
   else Config.cmpOut env thr ratio cteA cteR m)

/-- CMP.step (R141): a function of its six arguments (P1, P3). -/
def cmpStep (p : Params) (env thr ratio cteA cteR m : F32) : F32 × F32 :=
  match p.core with
  | .reference => refStep env thr ratio cteA cteR m
  | .other => otherStep env thr ratio cteA cteR m

/-- `cte(t, r)` of R148: the coefficient of a time in milliseconds at an effective rate. -/
def cmpCte (p : Params) (t rate : F32) : F32 :=
  match p.core with
  | .reference =>
    if fLt t 0x3A83126F#32 then fZero
    else numExp (fDiv (fDiv 0xC5C4597C#32 rate) t)
  | .other => Config.cmpCte t rate

/-- Zero of the sign of `x`. -/
def fZeroLike (x : F32) : F32 := x &&& 0x80000000#32

/-- A transform's output element, with FFT_ZERO: an all-zero input gives zero of either sign (R175, R177). -/
def zeroPreserving (input : List F32) (y : F32) : F32 :=
  if input.all fIsZero then fZeroLike y else y

/-- The buffer after FFT.fwd(W, buf) (R175): bins 0 to W/2 interleaved at elements 0 to W + 1, a function of W and the W
input samples; the elements above are unspecified (U4). `draw` numbers the transform. -/
def fftForward (W draw : Nat) (buf : List F32) : List F32 :=
  let x := buf.take W
  (List.range (2 * W)).map fun i =>
    if i < W + 2 then zeroPreserving x (Config.fftFwd W x i) else Config.fftTail draw i

/-- The bins FFT.inv reads (R177): elements 0 to W + 1; "the imaginary parts given for bins 0 and W/2 do not
contribute". -/
def inverseInput (W : Nat) (buf : List F32) : List F32 :=
  ((buf.take (W + 2)).set 1 fZero).set (W + 1) fZero

/-- The buffer after FFT.inv(W, buf) (R177): W real samples at elements 0 to W - 1; the elements above are
unspecified (U4). -/
def fftInverse (W draw : Nat) (buf : List F32) : List F32 :=
  let x := inverseInput W buf
  (List.range (2 * W)).map fun i =>
    if i < W then zeroPreserving x (Config.fftInv W x i) else Config.fftTail draw i

end Sys2Proof.Machine
end

