-- ==== Sys2Proof/Machine/State.lean ====
section
/-! DEFINITION. The state of the block as plain data: everything spec 10_state.md names, and the model's own fields,
marked as such. -/

namespace Sys2Proof.Machine

/-- Why the machine stops. The block itself never stops: every error of R270 is recorded in ERR and the machine goes on
(R271), and no arithmetic raises anything (R274). -/
inductive Fault where
  /-- Raised by `step` when the micro-operation port holds a word that is no micro-operation of R105. No sequencer ever
  issues one (R101), so nothing the hardware does is lost: safe. -/
  | undefinedMicroOp (w : Word)
deriving DecidableEq, Repr

/-- Why an instruction has no meaning. -/
inductive Refusal where
  /-- Answered by `exec` for an instruction without a meaning. No arm answers it now: every row of the opcode table has
  its meaning. Safe. -/
  | notModelled (mnemonic : String)
deriving DecidableEq, Repr

/-- RUN_STATE (R23). -/
inductive RunState where
  | unprepared
  | prepared
  | fatal
deriving DecidableEq, Repr

/-- The index of a configuration slot: the bit LIVE, and BG's `target` (R25, R26). -/
inductive SlotIx where
  | s0
  | s1
deriving DecidableEq, Repr

/-- `1 - i`: the other slot. -/
def SlotIx.other : SlotIx → SlotIx
  | .s0 => .s1
  | .s1 => .s0

/-- The status of a slot (R53). -/
inductive SlotStatus where
  | empty
  | built
  | retired
deriving DecidableEq, Repr

/-- A ring buffer (R48): `data` has `cap` elements, `pos` is the write cursor, `rpos` the read cursor. -/
structure Ring where
  cap : Nat
  data : List F32
  pos : Nat
  rpos : Nat
deriving DecidableEq, Repr

/-- A configuration slot, one ProcessConfiguration (R45 to R53). Bin `b` has index `b - 1` in the per-bin arrays
(R50). -/
structure Slot where
  status : SlotStatus
  /-- Window size; it stands for the transform handle too. -/
  W : Nat
  /-- Overlap factor in force. -/
  K : Nat
  /-- Channels the slot was built for. -/
  nch : Nat
  win : List F32
  scratch : List F32
  inr : List Ring
  sidr : List Ring
  outr : List Ring
  thr : List F32
  ratio : List F32
  cteA : List F32
  cteR : List F32
  /-- `env[j][c]`. -/
  env : List (List F32)
  acc : List F32
  count : Word
deriving DecidableEq, Repr

/-- The registers HOST writes (R29 to R41). A register of which only some bits are stored holds those bits only. -/
structure Csr where
  sampleRate : Word
  maxBlock : Word
  numCh : Word
  scNumCh : Word
  sidechainActive : BitVec 1
  ratio : F32
  attackMs : F32
  releaseMs : F32
  autoMakeup : BitVec 1
  windowOrder : BitVec 4
  overlapFactor : BitVec 7
  baseThreshold : F32
deriving DecidableEq, Repr

/-- The stored fields of ERR (R44): the sticky cause bits and LAST_CODE. -/
structure ErrReg where
  causes : BitVec 8
  lastCode : BitVec 8
deriving DecidableEq, Repr

/-- `bg_pc` (R26, R231). -/
inductive BgPc where
  | idle
  | stage
  | publish
deriving DecidableEq, Repr

/-- BG's private state (R26). -/
structure Bg where
  pc : BgPc
  target : SlotIx
  ordL : BitVec 4
  kL : BitVec 7
deriving DecidableEq, Repr

/-- The values PREPARE latches (R55). -/
structure Latch where
  /-- SR_L. -/
  sampleRate : F32
  /-- MAXBLK_L. -/
  maxBlock : Word
  /-- NCH_L. -/
  nch : Word
  /-- SCBUS_L. -/
  scBus : Bool
deriving DecidableEq, Repr

/-- `rt_pc` (R22): a line of the micro-program of R190. Line 7, the settings update, has one position for each
register it reads, because HOST may write between two of those reads (R313, log 2). Line 12 has one position for
the cycle and one for the I/O step of a pass. -/
inductive RtPc where
  /-- RT_IDLE. -/
  | idle
  /-- Line 4. -/
  | fetch
  /-- Line 5. -/
  | sampleSc
  /-- Line 6. -/
  | flagCas
  /-- Line 7: the test, and the copy of OVERLAP_FACTOR. -/
  | updOverlap
  /-- Line 7: CMP.SETRATIO of RATIO. -/
  | updRatio
  /-- Line 7: the read of ATTACK_MS. -/
  | updAttack
  /-- Line 7: the read of RELEASE_MS, and CMP.SETTIME. -/
  | updRelease
  /-- Line 7: THR.CURVE, which reads BASE_THRESHOLD. -/
  | updCurve
  /-- Line 7: GAIN.UPDATE, which reads AUTO_MAKEUP. -/
  | updGain
  /-- Line 8. -/
  | zfill
  /-- Line 9. -/
  | align
  /-- Line 10. -/
  | firstIo
  /-- Line 11. -/
  | windows
  /-- Line 12: the loop test and the cycle. -/
  | cycle
  /-- Line 12: the I/O step. -/
  | loopIo
  /-- Line 13. -/
  | check
deriving DecidableEq, Repr

/-- RT's micro-program counter and working registers (R21, R22): the integer ones "all unsigned 32-bit". -/
structure RtRegs where
  pc : RtPc
  /-- Which program runs: PROCESS_BYPASSED (R199) or PROCESS (R190). -/
  bypass : Bool
  /-- Block length. -/
  M : Word
  /-- Already-processed count. -/
  a : Word
  /-- Sample offset into the block. -/
  off : Word
  /-- Samples in this I/O step. -/
  n : Word
  /-- Cycles to run. -/
  nwin : Word
  /-- Cycle index. -/
  k : Word
  /-- Channel index. -/
  c : Word
  /-- Bin index. -/
  b : Word
  swapped : Bool
  /-- The result of SET.FLAGCAS (R190 line 6). -/
  changed : Bool
  m : F32
  m2 : F32
  s : F32
deriving DecidableEq, Repr

/-- Which of a channel's three rings an operation works on (R49, R120). -/
inductive RingKind where
  | input
  | sidechain
  | output
deriving DecidableEq, Repr

/-- A region of the block sample memory (R54). -/
inductive Region where
  | input
  | sidechain
  | output
deriving DecidableEq, Repr

/-- A sequence of samples outside the rings (R120): a span of a block buffer, from sample `off` of channel `c`, or
the scratch buffer from element 0. -/
inductive Span where
  | block (r : Region)
  | scratch
deriving DecidableEq, Repr

/-- The MODEL's own registers (log 12): the operands of a micro-operation for which R21 names no working register.
The hardware wires them at each place a micro-operation is issued from. -/
structure OpRegs where
  /-- The ring of RB.WRITE, RB.LAST, RB.DRAIN, RB.ACC, in channel `c`. -/
  ring : RingKind
  /-- The source span of RB.WRITE and RB.ACC. -/
  src : Span
  /-- The destination span of RB.LAST and RB.DRAIN; `none` is RB.DRAIN's `discard` (RB.LAST then has no destination). -/
  dst : Option Span
  /-- The flag of RB.DRAIN. -/
  consume : Bool
  /-- The gain of RB.ACC. -/
  gain : F32
  /-- The threshold of CMP.SETTHR. -/
  t : F32
  /-- The ratio of CMP.SETRATIO. -/
  ratio : F32
  /-- The times of CMP.SETTIME. -/
  attackMs : F32
  releaseMs : F32
  /-- The operand of SET.UPDATE. -/
  forced : Bool
deriving DecidableEq, Repr

/-- One entry of the schedule (R14, R20): which agent acts next, and for HOST its access (R17). `width` is in
bytes. -/
inductive Event where
  /-- MemWrite(addr, width, v). -/
  | hostWrite (addr : Word) (width : Nat) (v : Word)
  /-- MemRead(addr, width). -/
  | hostRead (addr : Word) (width : Nat)
  /-- RT takes its next step. -/
  | rt
  /-- BG takes its next step. -/
  | bg
  /-- The micro-operation port: a micro-operation applied directly to the named state (R107). -/
  | issue (w : Word)
  /-- The external reset (R300). -/
  | reset
deriving DecidableEq, Repr

/-- The events the hardware and its collaborator make. A word on the micro-operation port is none of them: only
unit vectors apply a micro-operation directly (R107). -/
def Event.isHardware : Event → Bool
  | .hostWrite _ _ _ => true
  | .hostRead _ _ => true
  | .rt => true
  | .bg => true
  | .issue _ => false
  | .reset => true

/-- The block sample memory (R54, R72): the bytes written since reset, by byte address, addresses strictly rising. A
byte that is not listed has not been written since reset and has no value here (log 10). -/
abbrev Memory := List Host.Cell

/-- The canonical form of a memory: addresses strictly rising. (No value stands for an unlisted byte, so no entry can
equal what an unlisted address reads as.) -/
abbrev Memory.wf (m : Memory) : Prop := m.Pairwise fun x y => x.1 < y.1

/-- The state of the block. -/
structure State where
  /-- The build-time parameters: constants of the machine, never written (log 4). -/
  params : Params
  csr : Csr
  err : ErrReg
  runState : RunState
  rtBusy : Bool
  settingsChanged : Bool
  windowPending : Bool
  /-- SWAP bit 0, LIVE. -/
  live : SlotIx
  /-- SWAP bit 1, READY. -/
  ready : Bool
  bg : Bg
  /-- GAIN (R27). -/
  gain : F32
  /-- SC_EFF (R28). -/
  scEff : Bool
  latch : Latch
  slot0 : Slot
  slot1 : Slot
  mem : Memory
  rt : RtRegs
  /-- The model's own (log 12). -/
  op : OpRegs
  /-- The model's own (log 20): what HOST's last read returned. -/
  hostData : Word
  /-- The model's own (log 11): HOST writes to the block sample memory, made while RT owns it, that RT has not
  seen, oldest first. -/
  deferred : List (Nat × Word)
  /-- The model's own (log 20): the counter free values are drawn with. -/
  fresh : Nat
  /-- The model's own (log 10): the number of resets so far. -/
  epoch : Nat
  /-- The model's own (log 1): the rest of the schedule. -/
  agenda : List Event
deriving DecidableEq, Repr

/-- A slot that holds no configuration: "all other slot fields hold no value" (R58); they stand at zero or empty
(log 14). -/
def Slot.blank : Slot :=
  ⟨.empty, 0, 0, 0, [], [], [], [], [], [], [], [], [], [], [], 0#32⟩

/-- The registers after reset (R29, R58): RATIO 1.0, WINDOW_ORDER 12, OVERLAP_FACTOR 4, all others 0. -/
def Csr.reset : Csr :=
  ⟨0#32, 0#32, 0#32, 0#32, 0#1, 0x3F800000#32, 0#32, 0#32, 0#1, 12#4, 4#7, 0#32⟩

/-- RT at rest; the working registers "hold no value" after reset (R58) and stand at zero (log 13). -/
def RtRegs.reset : RtRegs :=
  ⟨.idle, false, 0#32, 0#32, 0#32, 0#32, 0#32, 0#32, 0#32, 0#32, false, false, 0#32, 0#32, 0#32⟩

/-- The model's operand registers after reset (log 12). -/
def OpRegs.reset : OpRegs :=
  ⟨.input, .scratch, none, false, 0#32, 0#32, 0#32, 0#32, 0#32, false⟩

/-- The state after reset of a machine with the build-time parameters `p` (R58, R300). -/
def State.resetWith (p : Params) : State where
  params := p
  csr := Csr.reset
  err := ⟨0#8, 0#8⟩
  runState := .unprepared
  rtBusy := false
  settingsChanged := false
  windowPending := false
  live := .s0
  ready := false
  bg := ⟨.idle, .s0, 0#4, 0#7⟩
  gain := 0#32
  scEff := false
  latch := ⟨0#32, 0#32, 0#32, false⟩
  slot0 := Slot.blank
  slot1 := Slot.blank
  mem := []
  rt := RtRegs.reset
  op := OpRegs.reset
  hostData := 0#32
  deferred := []
  fresh := 0
  epoch := 0
  agenda := []

/-- The machine right after reset (R58), with the reference build-time parameters of R12. -/
def State.reset : State := State.resetWith Params.reference

end Sys2Proof.Machine
end

