-- ==== Sys2Proof/Machine/Ops.lean ====
section
/-! DEFINITION. The named operations every meaning is written over: elements of arrays, rings, slots, the block sample
memory, and raising an error (spec 10_state.md, 20_memory.md, 40_ringbuffer.md, 60_exceptions.md R271). -/

namespace Sys2Proof.Machine

/-! ## Elements of arrays -/

/-- `x[i]` (R16). An element the array does not have is any value (log 15). -/
def elemAt (x : List F32) (i : Nat) : F32 := x[i]?.getD (Config.absent i)

/-- `for j in 0 .. n-1: x[j] <- f j x[j]`, each element by itself; what stands above stays. -/
def mapFirst (n : Nat) (f : Nat → F32 → F32) (x : List F32) : List F32 :=
  x.mapIdx fun j v => if j < n then f j v else v

/-- `for i: x[i] <- src[i]` over the elements `src` has (R16). -/
def overwrite (x src : List F32) : List F32 :=
  x.mapIdx fun j v => src[j]?.getD v

/-! ## Rings (R48, R120 to R124) -/

/-- A ring as it is built: all data 0.0, both cursors 0 (R48). -/
def Ring.fresh (cap : Nat) : Ring := ⟨cap, List.replicate cap fZero, 0, 0⟩

/-- What stands for a ring that a slot does not have (log 15). -/
def Ring.none : Ring := ⟨0, [], 0, 0⟩

/-- RB.WRITE's body (R121). -/
def Ring.write (r : Ring) (src : List F32) (n : Nat) : Ring :=
  { r with
    data := (List.range n).foldl (fun d i => d.set ((r.pos + i) % r.cap) (elemAt src i)) r.data
    pos := (r.pos + n) % r.cap }

/-- RB.LAST's body (R122): the `n` most recent samples, oldest first. `mod` is that of the integers, so the pseudocode
has its literal result for `n` above the capacity too (U15). -/
def Ring.last (r : Ring) (n : Nat) : List F32 :=
  (List.range n).map fun (i : Nat) =>
    elemAt r.data (((r.pos : Int) + r.cap - n + i) % (r.cap : Int)).toNat

/-- The loop of RB.DRAIN (R123) over `n` elements from `j` on: what is read, and the data it leaves. -/
def drainLoop (cap : Nat) (consume : Bool) : (n j : Nat) → List F32 → List F32 × List F32
  | 0, _, data => ([], data)
  | n + 1, j, data =>
    let x := elemAt data (j % cap)
    let rest := drainLoop cap consume n (j + 1) (if consume then data.set (j % cap) fZero else data)
    (x :: rest.1, rest.2)

/-- What RB.DRAIN reads (R123). -/
def Ring.drained (r : Ring) (n : Nat) (consume : Bool) : List F32 :=
  (drainLoop r.cap consume n r.rpos r.data).1

/-- The ring RB.DRAIN leaves (R123): with `consume` the elements read are 0.0 and the read cursor moves. -/
def Ring.drain (r : Ring) (n : Nat) (consume : Bool) : Ring :=
  { r with
    data := (drainLoop r.cap consume n r.rpos r.data).2
    rpos := if consume then (r.rpos + n) % r.cap else r.rpos }

/-- RB.ACC's body (R124): the product is rounded, then the sum; neither cursor moves. -/
def Ring.accumulate (r : Ring) (src : List F32) (n : Nat) (gain : F32) : Ring :=
  { r with
    data := (List.range n).foldl
      (fun d i =>
        d.set ((r.rpos + i) % r.cap) (fAdd (elemAt d ((r.rpos + i) % r.cap)) (fMul gain (elemAt src i))))
      r.data }

/-! ## Slots (R45 to R53) -/

/-- `floor(W / K)` (R13); no value is given for K = 0 (U1, log 16). -/
def interval (W K : Nat) : Nat := if K = 0 then Config.intervalOfZero W else W / K

/-- The windowing interval I of a slot (R13, R45). -/
def Slot.interval (s : Slot) : Nat := Machine.interval s.W s.K

/-- The rings of one kind (R49). -/
def Slot.rings (s : Slot) : RingKind → List Ring
  | .input => s.inr
  | .sidechain => s.sidr
  | .output => s.outr

/-- The ring of one kind in channel `c`. -/
def Slot.ring (s : Slot) (kind : RingKind) (c : Nat) : Ring := (s.rings kind)[c]?.getD Ring.none

/-- A change of one ring. -/
def Slot.modRing (kind : RingKind) (c : Nat) (f : Ring → Ring) (s : Slot) : Slot :=
  { s with
    inr := if kind = .input then s.inr.modify c f else s.inr
    sidr := if kind = .sidechain then s.sidr.modify c f else s.sidr
    outr := if kind = .output then s.outr.modify c f else s.outr }

/-- BUILD(W, K, nch) (R233) on a machine with the parameters `p`. The bank's settings "hold no value" until the forced
settings update: 0.0 ("A model may store 0.0"). -/
def Slot.build (p : Params) (W K nch : Nat) : Slot where
  status := .built
  W := W
  K := K
  nch := nch
  win := winTable p W
  scratch := List.replicate (2 * W) fZero
  inr := List.replicate nch (Ring.fresh W)
  sidr := List.replicate nch (Ring.fresh W)
  outr := List.replicate nch (Ring.fresh W)
  thr := List.replicate (W / 2) fZero
  ratio := List.replicate (W / 2) fZero
  cteA := List.replicate (W / 2) fZero
  cteR := List.replicate (W / 2) fZero
  env := List.replicate (W / 2) (List.replicate nch fZero)
  acc := List.replicate (W / 2) fZero
  count := 0#32

/-- `slot[i]` (R16). -/
def State.slot (s : State) : SlotIx → Slot
  | .s0 => s.slot0
  | .s1 => s.slot1

/-- `S`, the live slot (R16, R25). -/
def State.liveSlot (s : State) : Slot := s.slot s.live

/-- The spare slot, `slot[1 - LIVE]`. -/
def State.spareSlot (s : State) : Slot := s.slot s.live.other

/-- `slot[i] <- v`. -/
def State.setSlot (i : SlotIx) (v : Slot) (s : State) : State :=
  { s with
    slot0 := if i = .s0 then v else s.slot0
    slot1 := if i = .s1 then v else s.slot1 }

/-- A change of the live slot. -/
def State.modLive (f : Slot → Slot) (s : State) : State := s.setSlot s.live (f s.liveSlot)

/-- A change of one ring of the live slot. -/
def State.modRing (kind : RingKind) (c : Nat) (f : Ring → Ring) (s : State) : State :=
  s.modLive (Slot.modRing kind c f)

/-! ## The interval where it may be 0 (log 16) -/

/-- `x mod I`. -/
def modInterval (x I : Nat) : Nat := if I = 0 then Config.modZero x else x % I

/-- `ceil(x / I)` in integers, `(x + I - 1) / I` rounded down (R197). -/
def ceilDivInterval (x I : Nat) : Nat :=
  if I = 0 then Config.ceilDivZero x else (x + I - 1) / I

/-! ## The block sample memory (R54, R70 to R73) -/

/-- The byte listed at an address, if one is. -/
def Memory.lookup (a : Nat) : Memory → Option Byte
  | [] => none
  | (x, v) :: rest => if x = a then some v else Memory.lookup a rest

/-- Store one byte, keeping the addresses rising. -/
def Memory.store (a : Nat) (v : Byte) : Memory → Memory
  | [] => [(a, v)]
  | (x, w) :: rest =>
    if a < x then (a, v) :: (x, w) :: rest
    else if a = x then (a, v) :: rest
    else (x, w) :: Memory.store a v rest

/-- Store a word, little-endian: the byte at `a` is bits 7:0 (R73). -/
def Memory.storeWord (a : Nat) (v : Word) (m : Memory) : Memory :=
  Memory.store (a + 3) (v.extractLsb' 24 8) (Memory.store (a + 2) (v.extractLsb' 16 8)
    (Memory.store (a + 1) (v.extractLsb' 8 8) (Memory.store a (v.extractLsb' 0 8) m)))

/-- The byte of block sample memory at an address: what was last written, or what it has held since reset `epoch`
(R54, U5, log 10). -/
def State.byteAt (s : State) (a : Nat) : Byte := (Memory.lookup a s.mem).getD (Config.ramByte s.epoch a)

/-- The word at an address (R73). -/
def State.wordAt (s : State) (a : Nat) : Word :=
  s.byteAt (a + 3) ++ s.byteAt (a + 2) ++ s.byteAt (a + 1) ++ s.byteAt a

/-- BLK_BASE (R70). -/
def blkBase : Nat := 0x00010000

/-- RS, the bytes of one region (R72). -/
def regionSize (p : Params) : Nat := 4 * p.maxCh * p.maxBlock

/-- The first address of a region (R72): IN, SC, OUT in this order. -/
def regionBase (p : Params) : Region → Nat
  | .input => blkBase
  | .sidechain => blkBase + regionSize p
  | .output => blkBase + 2 * regionSize p

/-- `addr(R[c][i])` (R72). -/
def sampleAddr (p : Params) (r : Region) (c i : Nat) : Nat :=
  regionBase p r + 4 * (c * p.maxBlock + i)

/-- `R[c][i]` exists: "c < P_MAX_CH, i < P_MAX_BLOCK" (R54). -/
def sampleExists (p : Params) (c i : Nat) : Bool := decide (c < p.maxCh) && decide (i < p.maxBlock)

/-- `R[c][i]` (R54). A sample that does not exist is any value (log 15). -/
def State.sample (s : State) (r : Region) (c i : Nat) : F32 :=
  if sampleExists s.params c i then s.wordAt (sampleAddr s.params r c i) else Config.absent i

/-- `R[c][i] <- v` on the memory of a machine with parameters `p`; a sample that does not exist is not written. -/
def storeSample (p : Params) (r : Region) (c i : Nat) (v : F32) (m : Memory) : Memory :=
  if sampleExists p c i then Memory.storeWord (sampleAddr p r c i) v m else m

/-- `R[c][off + j] <- vals[j]` for every j. -/
def storeSamples (p : Params) (r : Region) (c : Nat) : (off : Nat) → List F32 → Memory → Memory
  | _, [], m => m
  | off, v :: vals, m => storeSamples p r c (off + 1) vals (storeSample p r c off v m)

/-- The samples `R[c][off .. off+n-1]`. -/
def State.samples (s : State) (r : Region) (c off n : Nat) : List F32 :=
  (List.range n).map fun i => s.sample r c (off + i)

/-- `R[c][off ..] <- vals`. -/
def State.setSamples (r : Region) (c off : Nat) (vals : List F32) (s : State) : State :=
  { s with mem := storeSamples s.params r c off vals s.mem }

/-! ## The end of a block command, and errors -/

/-- A HOST write that RT sees at once (R87): it is done, and takes the place of older unseen writes of that word. -/
def State.storeHostWord (a : Nat) (v : Word) (s : State) : State :=
  { s with
    mem := Memory.storeWord a v s.mem
    deferred := s.deferred.filter fun d => d.1 != a }

/-- The writes RT has not seen reach the memory when it belongs to HOST again (R87, log 11). -/
def flushDeferred (d : List (Nat × Word)) (m : Memory) : Memory :=
  d.foldl (fun m w => Memory.storeWord w.1 w.2 m) m

/-- The end of a block command: `RT_BUSY <- 0` (R190 line 13, R273), RT at rest, the block buffers HOST's again. -/
def State.endBlock (s : State) : State :=
  { s with
    rtBusy := false
    rt := { s.rt with pc := .idle }
    mem := flushDeferred s.deferred s.mem
    deferred := [] }

/-- The errors of R270. -/
inductive BlockError where
  | layout
  | assert
  | illegalCmd
  | notPrepared
  | blockLen
  | busy
  | prepareArg
  | bus
deriving DecidableEq, Repr

/-- The code of an error (R270). -/
def BlockError.code : BlockError → Nat
  | .layout => 1
  | .assert => 2
  | .illegalCmd => 3
  | .notPrepared => 4
  | .blockLen => 5
  | .busy => 6
  | .prepareArg => 7
  | .bus => 8

/-- ERR after `raise E`: `ERR[n-1] <- 1` and `ERR[15:8] <- n` (R271). -/
def ErrReg.record (e : BlockError) (r : ErrReg) : ErrReg :=
  ⟨r.causes ||| BitVec.ofNat 8 (2 ^ (e.code - 1)), BitVec.ofNat 8 e.code⟩

/-- `raise E` (R271): the error is recorded in ERR. "Nothing else happens except for Assert": RUN_STATE <- FATAL,
RT_BUSY <- 0 and the command ends (R273). "No agent is interrupted, no state is saved, there is no handler address, no
return instruction and no nesting." -/
def State.raise (e : BlockError) (s : State) : State :=
  match e with
  | .assert => { s.endBlock with err := s.err.record .assert, runState := .fatal }
  | .layout => { s with err := s.err.record .layout }
  | .illegalCmd => { s with err := s.err.record .illegalCmd }
  | .notPrepared => { s with err := s.err.record .notPrepared }
  | .blockLen => { s with err := s.err.record .blockLen }
  | .busy => { s with err := s.err.record .busy }
  | .prepareArg => { s with err := s.err.record .prepareArg }
  | .bus => { s with err := s.err.record .bus }

/-- HOST's write of ERR (R44), the nearest thing the block has to a return from an error: a 1 clears its cause bit, but
for bit 1 (ASSERT), which only reset clears; LAST_CODE is read-only. -/
def ErrReg.clear (v : Word) (r : ErrReg) : ErrReg :=
  ⟨r.causes &&& ~~~ (v.extractLsb' 0 8 &&& 0xFD#8), r.lastCode⟩

end Sys2Proof.Machine
end

