-- ==== Sys2Proof/Machine/Flags.lean ====
section
/-! DEFINITION. The flags and the words HOST reads them in: STATUS, ERR, SC_EFF, the swapper state (spec R24 to R28,
R42 to R44). The block has no condition codes (R24). -/

namespace Sys2Proof.Machine

/-- RUN_STATE as it reads in STATUS[1:0] (R23). -/
def RunState.code : RunState → BitVec 2
  | .unprepared => 0#2
  | .prepared => 1#2
  | .fatal => 2#2

/-- A slot's status as it reads in STATUS (R43). -/
def SlotStatus.code : SlotStatus → BitVec 2
  | .empty => 0#2
  | .built => 1#2
  | .retired => 2#2

/-- LIVE as a bit (R25). -/
def SlotIx.bit : SlotIx → BitVec 1
  | .s0 => 0#1
  | .s1 => 1#1

/-- The states of the source's swapper (R26, R237). -/
inductive SwapperState where
  | idle
  | staging
  | published
deriving DecidableEq, Repr

/-- The swapper state is a function of `bg_pc` and READY (R26). -/
def State.swapper (s : State) : SwapperState :=
  match s.bg.pc with
  | .idle => if s.ready then .published else .idle
  | .stage => .staging
  | .publish => .staging

/-- STATUS[9:8] (R26). -/
def SwapperState.code : SwapperState → BitVec 2
  | .idle => 0#2
  | .staging => 1#2
  | .published => 2#2

/-- BG_BUSY, 1 exactly in Staging (R26, R43). -/
def State.bgBusy (s : State) : Bool := s.swapper == .staging

/-- The word STATUS reads as (R43); bits 31:15 read 0. -/
def State.statusWord (s : State) : Word :=
  0#17 ++ s.slot1.status.code ++ s.slot0.status.code ++ BitVec.ofBool s.scEff ++ s.swapper.code
    ++ BitVec.ofBool s.ready ++ s.live.bit ++ BitVec.ofBool s.windowPending
    ++ BitVec.ofBool s.settingsChanged ++ BitVec.ofBool s.bgBusy ++ BitVec.ofBool s.rtBusy
    ++ s.runState.code

/-- The word ERR reads as (R44). -/
def ErrReg.word (r : ErrReg) : Word := 0#16 ++ r.lastCode ++ r.causes

/-- The word LATENCY reads as (R42): the live slot's W, 0 when UNPREPARED. -/
def State.latencyWord (s : State) : Word :=
  match s.runState with
  | .unprepared => 0#32
  | .prepared => BitVec.ofNat 32 s.liveSlot.W
  | .fatal => BitVec.ofNat 32 s.liveSlot.W

/-- The word WINDOWS_PROCESSED reads as (R29, R52): the live slot's counter, 0 when UNPREPARED. -/
def State.windowsProcessedWord (s : State) : Word :=
  match s.runState with
  | .unprepared => 0#32
  | .prepared => s.liveSlot.count
  | .fatal => s.liveSlot.count

/-- `SC_EFF <- CSR[SIDECHAIN_ACTIVE][0] AND SCBUS_L` (R28, R192). -/
def State.sampleSidechain (s : State) : State :=
  { s with scEff := s.csr.sidechainActive.getLsbD 0 && s.latch.scBus }

end Sys2Proof.Machine
end

