-- ==== Sys2Proof/Machine/Operands.lean ====
section
/-! DEFINITION. The operand forms of the micro-operations (spec R101, R120): the spans outside the rings, and the
selection of a ring, a channel and a bin by the working registers. -/

namespace Sys2Proof.Machine

/-- `src[0..n-1]` (R120): `n` samples of a block buffer from sample `off` of channel `c`, or of the scratch buffer from
element 0. -/
def State.readSpan (s : State) (sp : Span) (c off n : Nat) : List F32 :=
  match sp with
  | .block r => s.samples r c off n
  | .scratch => (List.range n).map (elemAt s.liveSlot.scratch)

/-- `dst[i] <- vals[i]` for every i (R120). -/
def State.writeSpan (sp : Span) (c off : Nat) (vals : List F32) (s : State) : State :=
  match sp with
  | .block r => s.setSamples r c off vals
  | .scratch => s.modLive fun S => { S with scratch := overwrite S.scratch vals }

/-- A destination or the keyword `discard` (R123). -/
def State.writeDest (dst : Option Span) (c off : Nat) (vals : List F32) (s : State) : State :=
  match dst with
  | none => s
  | some sp => s.writeSpan sp c off vals

/-- The ring the operand registers select: a ring of the live slot in channel `c` (R120). -/
def State.operandRing (s : State) : Ring := s.liveSlot.ring s.op.ring s.rt.c.toNat

/-- The source span the operand registers select. -/
def State.operandSource (s : State) : List F32 := s.readSpan s.op.src s.rt.c.toNat s.rt.off.toNat s.rt.n.toNat

/-- The bins of a window: `b` in 1 to W/2 has index `b - 1` (R50, R140). -/
def binIndex (b : Nat) : Nat := b - 1

/-- An operand bin is one the bank has: 1 to W/2 (R142, R147, R162). -/
def Slot.hasBin (s : Slot) (b : Nat) : Bool := decide (1 ≤ b) && decide (b ≤ s.W / 2)

end Sys2Proof.Machine
end

