-- ==== Sys2Proof/Machine/Compressor.lean ====
section
/-! DEFINITION. The per-bin compressor bank: CMP.PROCESS, CMP.SETTHR, CMP.SETTIME, CMP.SETRATIO (spec
41_compressor.md). -/

namespace Sys2Proof.Machine

/-- `env[j][c]` (R50). -/
def Slot.envAt (S : Slot) (j c : Nat) : F32 := elemAt (S.env[j]?.getD []) c

/-- `env[j][c] <- v`. -/
def Slot.setEnv (j c : Nat) (v : F32) (S : Slot) : Slot :=
  { S with env := S.env.modify j fun row => row.set c v }

/-- CMP.step of the instance of bin `b` and channel `c` on a magnitude: the new envelope and the compressed magnitude
(R142). -/
def Slot.compress (p : Params) (S : Slot) (b c : Nat) (m : F32) : F32 × F32 :=
  let j := binIndex b
  cmpStep p (S.envAt j c) (elemAt S.thr j) (elemAt S.ratio j) (elemAt S.cteA j) (elemAt S.cteR j) m

/-- CMP.PROCESS (R142): the result goes to the working register `m2`; "writes `env[j][c]` only". A bin the bank does not
have gives any value and writes nothing (log 15). -/
def execCmpProcess (s : State) : Host.Outcome State Fault Refusal :=
  let S := s.liveSlot
  if S.hasBin s.rt.b.toNat then
    let r := S.compress s.params s.rt.b.toNat s.rt.c.toNat s.rt.m
    let t := s.modLive (Slot.setEnv (binIndex s.rt.b.toNat) s.rt.c.toNat r.1)
    .next { t with rt := { t.rt with m2 := r.2 } }
  else
    .next { s with rt := { s.rt with m2 := Config.absent s.rt.b.toNat } }

/-- The write of one threshold (R147). -/
def Slot.setThreshold (b : Nat) (t : F32) (S : Slot) : Slot :=
  if S.hasBin b then { S with thr := S.thr.set (binIndex b) t } else S

/-- CMP.SETTHR (R147): "the envelope state is not touched". -/
def execCmpSetThr (s : State) : Host.Outcome State Fault Refusal :=
  .next (s.modLive (Slot.setThreshold s.rt.b.toNat s.op.t))

/-- The effective sample rate `SR_L /f f32(S.I)` (R148). -/
def State.effectiveRate (s : State) : F32 := fDiv s.latch.sampleRate (fOfNat s.liveSlot.interval)

/-- The attack and release coefficients of every instance (R148). -/
def State.setTimes (attackMs releaseMs : F32) (s : State) : State :=
  let a := cmpCte s.params attackMs s.effectiveRate
  let r := cmpCte s.params releaseMs s.effectiveRate
  s.modLive fun S =>
    { S with
      cteA := mapFirst (S.W / 2) (fun _ _ => a) S.cteA
      cteR := mapFirst (S.W / 2) (fun _ _ => r) S.cteR }

/-- CMP.SETTIME (R148). -/
def execCmpSetTime (s : State) : Host.Outcome State Fault Refusal :=
  .next (s.setTimes s.op.attackMs s.op.releaseMs)

/-- The ratio of every instance (R149). -/
def State.setRatio (ratio : F32) (s : State) : State :=
  s.modLive fun S => { S with ratio := mapFirst (S.W / 2) (fun _ _ => ratio) S.ratio }

/-- CMP.SETRATIO (R149). -/
def execCmpSetRatio (s : State) : Host.Outcome State Fault Refusal :=
  .next (s.setRatio s.op.ratio)

end Sys2Proof.Machine
end

