-- ==== Sys2Proof/Machine/Settings.lean ====
section
/-! DEFINITION. The settings update: SET.FLAGCAS, SET.UPDATE, THR.CURVE, GAIN.UPDATE (spec 45_settings.md). -/

namespace Sys2Proof.Machine

/-- The compare-and-exchange of SETTINGS_CHANGED, one indivisible step; the result goes to `changed` (R217). -/
def State.flagCas (s : State) : State :=
  { s with settingsChanged := false, rt := { s.rt with changed := s.settingsChanged } }

/-- SET.FLAGCAS (R217): with the flag clear it stores nothing, and clear it stays. -/
def execSetFlagCas (s : State) : Host.Outcome State Fault Refusal :=
  .next s.flagCas

/-- `S.K <- CSR[OVERLAP_FACTOR][6:0]` (R213). -/
def State.copyOverlap (s : State) : State :=
  s.modLive fun S => { S with K := s.csr.overlapFactor.toNat }

/-- The fixed curve's threshold of bin `b`, in decibels (R212). -/
def curveDecibels (base binHz : F32) (b : Nat) : F32 :=
  let f := fMul (fOfNat b) binHz
  let oct := numLog2 (fAdd f 0x40000000#32)
  fSub (fAdd base 0x40400000#32) (fMul 0x40400000#32 oct)

/-- The fixed threshold curve (R212), every instance of the live slot. -/
def State.thresholdCurve (s : State) : State :=
  let base := s.csr.baseThreshold
  let binHz := fDiv s.latch.sampleRate (fOfNat s.liveSlot.W)
  s.modLive fun S =>
    { S with thr := mapFirst (S.W / 2) (fun j _ => db2lin s.params (curveDecibels base binHz (j + 1))) S.thr }

/-- THR.CURVE (R212). -/
def execThrCurve (s : State) : Host.Outcome State Fault Refusal :=
  .next s.thresholdCurve

/-- The makeup gain (R214) of overlap factor `K` and ratio `r`. -/
def makeupGain (K : Nat) (r : F32) (auto scEff : Bool) : F32 :=
  let g := fDiv fOne (fOfNat K)
  if auto then
    if scEff then fMul g (fDiv (fAdd r 0x41C00000#32) 0x41C80000#32)
    else fMul g (fSub (fMul (numLog10 (fMul r 0x42C80000#32)) 0x43480000#32) 0x43C78000#32)
  else g

/-- `GAIN` recomputed with ratio `r`, "the value CMP.SETRATIO was given" (R214). -/
def State.updateGain (r : F32) (s : State) : State :=
  { s with gain := makeupGain s.liveSlot.K r (s.csr.autoMakeup.getLsbD 0) s.scEff }

/-- GAIN.UPDATE (R214): issued by itself it reads RATIO. -/
def execGainUpdate (s : State) : Host.Outcome State Fault Refusal :=
  .next (s.updateGain s.csr.ratio)

/-- `if SC_EFF = 0 or forced = 1: THR.CURVE` (R210). -/
def State.curveIfFixed (forced : Bool) (s : State) : State :=
  if !s.scEff || forced then s.thresholdCurve else s

/-- The in-place settings update as one step (R210). -/
def State.settingsUpdate (forced : Bool) (s : State) : State :=
  State.updateGain s.csr.ratio
    (State.curveIfFixed forced
      (State.setTimes s.csr.attackMs s.csr.releaseMs (State.setRatio s.csr.ratio s.copyOverlap)))

/-- SET.UPDATE (R210), with the operand `op.forced`. -/
def execSetUpdate (s : State) : Host.Outcome State Fault Refusal :=
  .next (s.settingsUpdate s.op.forced)

end Sys2Proof.Machine
end

