-- ==== Sys2Proof/Machine/HostCommands.lean ====
section
/-! DEFINITION. The host commands NOP, PREPARE, RELEASE, NOTIFY_SETTINGS (spec 47_host_commands.md). -/

namespace Sys2Proof.Machine

/-- NOP (R252): "nothing", in every state. -/
def execNop (s : State) : Host.Outcome State Fault Refusal :=
  .next s

/-- The arguments of PREPARE are in range (R250 line 3, R279): a finite positive sample rate, 1 to P_MAX_BLOCK samples,
1 to P_MAX_CH channels. -/
def State.prepareArgsOk (s : State) : Bool :=
  fIsFinite s.csr.sampleRate && fLt fZero s.csr.sampleRate
    && decide (1 ≤ s.csr.maxBlock.toNat) && decide (s.csr.maxBlock.toNat ≤ s.params.maxBlock)
    && decide (1 ≤ s.csr.numCh.toNat) && decide (s.csr.numCh.toNat ≤ s.params.maxCh)

/-- The checks of PREPARE, R250 lines 1 to 4, in the order of R281. -/
def State.prepareError (s : State) : Option BlockError :=
  if s.rtBusy then some .busy
  else if s.runState = .fatal then some .notPrepared
  else if !s.prepareArgsOk then some .prepareArg
  else if s.csr.scNumCh ≠ 0#32 ∧ s.csr.scNumCh ≠ s.csr.numCh then some .layout
  else none

/-- R250 line 5: the latched values (R55). -/
def State.latchPrepare (s : State) : State :=
  { s with
    latch := { sampleRate := s.csr.sampleRate
               maxBlock := s.csr.maxBlock
               nch := s.csr.numCh
               scBus := s.csr.scNumCh != 0#32 } }

/-- The flags, BG and the SWAP word put back (R250 line 6, R251, R323). -/
def State.abandonRebuild (s : State) : State :=
  { s with
    settingsChanged := false
    windowPending := false
    bg := { s.bg with pc := .idle }
    live := .s0
    ready := false }

/-- R250 line 7: the first configuration in slot 0, slot 1 EMPTY. -/
def State.buildFirst (s : State) : State :=
  { s with
    slot0 := Slot.build s.params (2 ^ s.csr.windowOrder.toNat) s.csr.overlapFactor.toNat s.csr.numCh.toNat
    slot1 := { s.slot1 with status := .empty } }

/-- R250 lines 5 to 10. -/
def State.prepareRun (s : State) : State :=
  { State.settingsUpdate true s.latchPrepare.abandonRebuild.buildFirst.sampleSidechain with
    runState := .prepared }

/-- PREPARE (R250): "on any of them [the errors] nothing but ERR changes". -/
def execPrepare (s : State) : Host.Outcome State Fault Refusal :=
  match s.prepareError with
  | some e => .next (s.raise e)
  | none => .next s.prepareRun

/-- R251 past its checks. -/
def State.releaseRun (s : State) : State :=
  { s.abandonRebuild with
    slot0 := { s.slot0 with status := .empty }
    slot1 := { s.slot1 with status := .empty }
    runState := .unprepared }

/-- RELEASE (R251). -/
def execRelease (s : State) : Host.Outcome State Fault Refusal :=
  if s.rtBusy then .next (s.raise .busy)
  else if s.runState = .fatal then .next (s.raise .notPrepared)
  else .next s.releaseRun

/-- NOTIFY_SETTINGS (R253): "if RUN_STATE = PREPARED: SETTINGS_CHANGED <- 1"; nothing in the other states. -/
def execNotifySettings (s : State) : Host.Outcome State Fault Refusal :=
  .next (if s.runState = .prepared then { s with settingsChanged := true } else s)

end Sys2Proof.Machine
end

