-- ==== Sys2Proof/Machine/RingBuffer.lean ====
section
/-! DEFINITION. The ring buffer micro-operations RB.WRITE, RB.LAST, RB.DRAIN, RB.ACC (spec 40_ringbuffer.md). Operands: the
ring `op.ring` of channel `c`, the count `n`, the spans `op.src` and `op.dst` from sample `off`, `op.consume`,
`op.gain`. -/

namespace Sys2Proof.Machine

/-- RB.WRITE (R121): "appends n new samples, overwriting the oldest; advances the cursor by n." -/
def execRbWrite (s : State) : Host.Outcome State Fault Refusal :=
  .next (s.modRing s.op.ring s.rt.c.toNat fun r => r.write s.operandSource s.rt.n.toNat)

/-- RB.LAST (R122): "copies the n most recently written samples, oldest-first, into dst without consuming them". -/
def execRbLast (s : State) : Host.Outcome State Fault Refusal :=
  .next (s.writeDest s.op.dst s.rt.c.toNat s.rt.off.toNat (s.operandRing.last s.rt.n.toNat))

/-- RB.DRAIN (R123): "copies the n oldest not-yet-emitted samples"; with `consume` they become 0.0 and the read cursor
moves. -/
def execRbDrain (s : State) : Host.Outcome State Fault Refusal :=
  .next ((s.modRing s.op.ring s.rt.c.toNat fun r => r.drain s.rt.n.toNat s.op.consume).writeDest
    s.op.dst s.rt.c.toNat s.rt.off.toNat (s.operandRing.drained s.rt.n.toNat s.op.consume))

/-- RB.ACC (R124): "adds `gain × src[i]` into the ring" from its read cursor on. -/
def execRbAcc (s : State) : Host.Outcome State Fault Refusal :=
  .next (s.modRing s.op.ring s.rt.c.toNat fun r => r.accumulate s.operandSource s.rt.n.toNat s.op.gain)

end Sys2Proof.Machine
end

