-- ==== Sys2Proof/Machine/Stft.lean ====
section
/-! DEFINITION. The steps of one STFT cycle: STFT.EXTRACT, STFT.WINA, FFT.FWD, BIN.SCALE, FFT.INV, STFT.WINS, STFT.OLA,
STFT.COUNT (spec 43_stft_engine.md). All work on the live slot. -/

namespace Sys2Proof.Machine

/-- `RB.LAST(ring, scratch[0..W-1], W)`: the last window of a ring (R161, R172, R182). -/
def State.extract (kind : RingKind) (c : Nat) (s : State) : State :=
  s.modLive fun S => { S with scratch := overwrite S.scratch ((S.ring kind c).last S.W) }

/-- STFT.EXTRACT (R172), of channel `c`. -/
def execStftExtract (s : State) : Host.Outcome State Fault Refusal :=
  .next (s.extract .input s.rt.c.toNat)

/-- `scratch[n] <- scratch[n] *f win[n]` for n = 0 to W - 1 (R174, R178). -/
def State.applyWindow (s : State) : State :=
  s.modLive fun S => { S with scratch := mapFirst S.W (fun n x => fMul x (elemAt S.win n)) S.scratch }

/-- STFT.WINA (R174), analysis windowing. -/
def execStftWinA (s : State) : Host.Outcome State Fault Refusal :=
  .next s.applyWindow

/-- The forward transform of the scratch buffer (R175). -/
def State.forward (s : State) : State :=
  { s.modLive fun S => { S with scratch := fftForward S.W s.fresh S.scratch } with fresh := s.fresh + 1 }

/-- FFT.FWD (R175). -/
def execFftFwd (s : State) : Host.Outcome State Fault Refusal :=
  .next s.forward

/-- The magnitude of bin `b` of the scratch buffer (R176, R183). -/
def Slot.binMagnitude (S : Slot) (b : Nat) : F32 :=
  fMag (elemAt S.scratch (2 * b)) (elemAt S.scratch (2 * b + 1))

/-- CMP.PROCESS of bin `b` on its magnitude: the new envelope and m2 (R176). -/
def Slot.binCompressed (p : Params) (S : Slot) (c b : Nat) : F32 × F32 :=
  S.compress p b c (S.binMagnitude b)

/-- The factor of bin `b`: `if m ==f 0.0 then 1.0 else m2 /f m` (R176). -/
def Slot.binFactor (p : Params) (S : Slot) (c b : Nat) : F32 :=
  let m := S.binMagnitude b
  if fEq m fZero then fOne else fDiv (S.binCompressed p c b).2 m

/-- The loop of BIN.SCALE over bins 1 to W/2 (R176). The bins are disjoint (R171), so each is scaled from what the
transform left; bin 0 stays. -/
def Slot.scaleBins (p : Params) (c : Nat) (S : Slot) : Slot :=
  { S with
    scratch := S.scratch.mapIdx fun i x =>
      if 1 ≤ i / 2 ∧ i / 2 ≤ S.W / 2 then fMul x (S.binFactor p c (i / 2)) else x
    env := S.env.mapIdx fun j row =>
      if j < S.W / 2 then row.set c (S.binCompressed p c (j + 1)).1 else row }

/-- RT's working registers `b`, `m`, `m2` and `s` as the pass of the last bin leaves them (R21, R176); a window of fewer
than two samples has no pass. -/
def RtRegs.afterBins (p : Params) (S : Slot) (c : Nat) (r : RtRegs) : RtRegs :=
  if S.W / 2 = 0 then r
  else
    { r with
      b := BitVec.ofNat 32 (S.W / 2)
      m := S.binMagnitude (S.W / 2)
      m2 := (S.binCompressed p c (S.W / 2)).2
      s := S.binFactor p c (S.W / 2) }

/-- BIN.SCALE of channel `c` (R176). -/
def State.binScale (c : Nat) (s : State) : State :=
  { s.modLive (Slot.scaleBins s.params c) with rt := s.rt.afterBins s.params s.liveSlot c }

/-- BIN.SCALE (R176). -/
def execBinScale (s : State) : Host.Outcome State Fault Refusal :=
  .next (s.binScale s.rt.c.toNat)

/-- The inverse transform of the scratch buffer (R177). -/
def State.inverse (s : State) : State :=
  { s.modLive fun S => { S with scratch := fftInverse S.W s.fresh S.scratch } with fresh := s.fresh + 1 }

/-- FFT.INV (R177). -/
def execFftInv (s : State) : Host.Outcome State Fault Refusal :=
  .next s.inverse

/-- STFT.WINS (R178), synthesis windowing with the same table. -/
def execStftWinS (s : State) : Host.Outcome State Fault Refusal :=
  .next s.applyWindow

/-- `RB.ACC(outr[c], scratch[0..n-1], n, gain)` (R179, R182). -/
def State.overlapAdd (c n : Nat) (gain : F32) (s : State) : State :=
  s.modLive fun S => S.modRing .output c fun r => r.accumulate S.scratch n gain

/-- STFT.OLA of channel `c` at the makeup gain GAIN (R179). -/
def State.addFrame (c : Nat) (s : State) : State := s.overlapAdd c s.liveSlot.W s.gain

/-- STFT.OLA (R179). -/
def execStftOla (s : State) : Host.Outcome State Fault Refusal :=
  .next (s.addFrame s.rt.c.toNat)

/-- The counter after one more window, "saturating at 2^32 - 1" (R52, R180). -/
def countAfter (count : Word) : Word := if count.toNat < 2 ^ 32 - 1 then count + 1#32 else count

/-- The processed-window counter of the live slot (R180). -/
def State.countWindow (s : State) : State := s.modLive fun S => { S with count := countAfter S.count }

/-- STFT.COUNT (R180). -/
def execStftCount (s : State) : Host.Outcome State Fault Refusal :=
  .next s.countWindow

end Sys2Proof.Machine
end

