-- ==== Sys2Proof/Machine/Sidechain.lean ====
section
/-! DEFINITION. The sidechain aggregator: SC.ANALYZE, AGG.ACC, AGG.COMMIT (spec 42_sidechain.md). -/

namespace Sys2Proof.Machine

/-- `acc[b - 1] <- acc[b - 1] +f m` (R162). -/
def Slot.accumulateBin (b : Nat) (m : F32) (S : Slot) : Slot :=
  if S.hasBin b then { S with acc := S.acc.set (binIndex b) (fAdd (elemAt S.acc (binIndex b)) m) } else S

/-- AGG.ACC (R162), of bin `b` and magnitude `m`. -/
def execAggAcc (s : State) : Host.Outcome State Fault Refusal :=
  .next (s.modLive (Slot.accumulateBin s.rt.b.toNat s.rt.m))

/-- AGG.ACC of every bin's magnitude (R161): the accumulators are disjoint, one for each bin 1 to W/2. -/
def Slot.accumulateSpectrum (S : Slot) : Slot :=
  { S with acc := mapFirst (S.W / 2) (fun j x => fAdd x (S.binMagnitude (j + 1))) S.acc }

/-- SC.ANALYZE of channel `c` (R161): the sidechain frame is not windowed. -/
def State.analyze (c : Nat) (s : State) : State :=
  ((s.extract .sidechain c).forward).modLive Slot.accumulateSpectrum

/-- SC.ANALYZE (R161). -/
def execScAnalyze (s : State) : Host.Outcome State Fault Refusal :=
  .next (s.analyze s.rt.c.toNat)

/-- Every threshold the average of its accumulator over the channels, every accumulator 0.0 (R163). -/
def Slot.commit (S : Slot) : Slot :=
  { S with
    thr := mapFirst (S.W / 2) (fun j _ => fDiv (elemAt S.acc j) (fOfNat S.nch)) S.thr
    acc := mapFirst (S.W / 2) (fun _ _ => fZero) S.acc }

/-- AGG.COMMIT (R163). -/
def execAggCommit (s : State) : Host.Outcome State Fault Refusal :=
  .next (s.modLive Slot.commit)

end Sys2Proof.Machine
end

