-- ==== Sys2Proof/Machine/Cycle.lean ====
section
/-! DEFINITION. The whole cycles: STFT.CYCLE and BYP.CYCLE (spec 43_stft_engine.md R170, R182). -/

namespace Sys2Proof.Machine

/-- `for c in 0 .. nch-1: f c` (R170): the channels one after another, channel 0 first (R171, R90). -/
def forChannels (nch : Nat) (f : Nat → State → State) (s : State) : State :=
  (List.range nch).foldl (fun t c => f c t) s

/-- Phase A of a cycle (R170, R160): the sidechain analysis of all channels, then the commit. -/
def State.sidechainPhase (s : State) : State :=
  if s.scEff then (forChannels s.liveSlot.nch State.analyze s).modLive Slot.commit else s

/-- Phase B of a cycle for one channel: source steps 1 and 3 to 8 (R170). -/
def State.channelPass (c : Nat) (s : State) : State :=
  State.addFrame c
    (State.applyWindow (State.inverse (State.binScale c (State.forward (State.applyWindow (s.extract .input c))))))

/-- One processing cycle (R170). -/
def State.stftCycle (s : State) : State :=
  State.countWindow (forChannels s.liveSlot.nch State.channelPass s.sidechainPhase)

/-- STFT.CYCLE (R170). -/
def execStftCycle (s : State) : Host.Outcome State Fault Refusal :=
  .next s.stftCycle

/-- One channel of a bypass cycle (R182): the oldest I of the last W samples onto the next I to be emitted. -/
def State.bypassPass (c : Nat) (s : State) : State :=
  (s.extract .input c).overlapAdd c s.liveSlot.interval fOne

/-- One bypass cycle (R182). -/
def State.bypassCycle (s : State) : State :=
  State.countWindow (forChannels s.liveSlot.nch State.bypassPass s)

/-- BYP.CYCLE (R182). -/
def execBypCycle (s : State) : Host.Outcome State Fault Refusal :=
  .next s.bypassCycle

end Sys2Proof.Machine
end

