-- ==== Sys2Proof/Machine/Scheduler.lean ====
section
/-! DEFINITION. The block scheduler's operations: PROCESS, PROCESS_BYPASSED, SCHED.ALIGN, SCHED.IOSTEP, SCHED.ZFILL,
SCHED.CHECK (spec 44_scheduler.md). The lines of the block program after its acceptance are in Sequencer.lean. -/

namespace Sys2Proof.Machine

/-- The acceptance checks of a block command, R190 lines 1 to 3, in the order of R281. -/
def State.blockError (M : Nat) (s : State) : Option BlockError :=
  if s.rtBusy then some .busy
  else if s.runState ≠ .prepared then some .notPrepared
  else if s.latch.maxBlock.toNat < M then some .blockLen
  else none

/-- An accepted block command: `RT_BUSY <- 1`, and RT stands before line 4 of its program (R190 line 3, R22). -/
def State.startBlock (bypass : Bool) (M : Nat) (s : State) : State :=
  { s with rtBusy := true, rt := { s.rt with pc := .fetch, bypass := bypass, M := BitVec.ofNat 32 M } }

/-- PROCESS (R190): the acceptance checks and the start of the RT sequencer; "a failed check ends the command with no
other effect". Lines 4 to 13 are the next steps of RT (`rtStep`). -/
def execProcess (M : Nat) (s : State) : Host.Outcome State Fault Refusal :=
  match s.blockError M with
  | some e => .next (s.raise e)
  | none => .next (s.startBlock false M)

/-- PROCESS_BYPASSED (R199): as PROCESS, with BYP.CYCLE in the program. -/
def execProcessBypassed (M : Nat) (s : State) : Host.Outcome State Fault Refusal :=
  match s.blockError M with
  | some e => .next (s.raise e)
  | none => .next (s.startBlock true M)

/-- `min(M, (I - (S.inr[0].pos mod I)) mod I)` (R196). -/
def State.alignment (M : Nat) (s : State) : Nat :=
  let I := s.liveSlot.interval
  min M (modInterval (I - modInterval (s.liveSlot.ring .input 0).pos I) I)

/-- SCHED.ALIGN (R196): the result goes to `a`. -/
def State.align (s : State) : State := { s with rt := { s.rt with a := BitVec.ofNat 32 (s.alignment s.rt.M.toNat) } }

/-- SCHED.ALIGN (R196). -/
def execSchedAlign (s : State) : Host.Outcome State Fault Refusal :=
  .next s.align

/-- The writing half of an I/O step for channel `c` (R194): the input ring, and with SC_EFF the sidechain ring. -/
def State.ioWrite (off n c : Nat) (s : State) : State :=
  let t := s.modRing .input c fun r => r.write (s.samples .input c off n) n
  if s.scEff then t.modRing .sidechain c fun r => r.write (s.samples .sidechain c off n) n else t

/-- What an I/O step puts into OUT for channel `c` (R194): the drained samples once `count >= K`, else silence. -/
def State.ioOutput (n c : Nat) (s : State) : List F32 :=
  if s.liveSlot.K ≤ s.liveSlot.count.toNat then (s.liveSlot.ring .output c).drained n true
  else List.replicate n fZero

/-- The reading half (R194): in both branches the output ring is drained with consume. -/
def State.ioRead (off n c : Nat) (s : State) : State :=
  (s.modRing .output c fun r => r.drain n true).setSamples .output c off (s.ioOutput n c)

/-- SCHED.IOSTEP (R194) on `n` samples from block offset `off`. -/
def State.ioStep (off n : Nat) (s : State) : State :=
  forChannels s.liveSlot.nch (fun c t => State.ioRead off n c (State.ioWrite off n c t)) s

/-- SCHED.IOSTEP (R194). -/
def execSchedIoStep (s : State) : Host.Outcome State Fault Refusal :=
  .next (s.ioStep s.rt.off.toNat s.rt.n.toNat)

/-- SCHED.ZFILL (R193): `OUT[c][0..M-1] <- 0.0` for the channels from nch to P_MAX_CH - 1. -/
def State.zeroFill (M : Nat) (s : State) : State :=
  let nch := s.liveSlot.nch
  (List.range (s.params.maxCh - nch)).foldl
    (fun t i => t.setSamples .output (nch + i) 0 (List.replicate M fZero)) s

/-- SCHED.ZFILL (R193). -/
def execSchedZfill (s : State) : Host.Outcome State Fault Refusal :=
  .next (s.zeroFill s.rt.M.toNat)

/-- SCHED.CHECK (R198): `if off != M: raise Assert`. -/
def State.checkConsumed (s : State) : State :=
  if s.rt.off ≠ s.rt.M then s.raise .assert else s

/-- SCHED.CHECK (R198). -/
def execSchedCheck (s : State) : Host.Outcome State Fault Refusal :=
  .next s.checkConsumed

end Sys2Proof.Machine
end

