-- ==== Sys2Proof/Machine/Swapper.lean ====
section
/-! DEFINITION. The configuration swapper: NOTIFY_WINDOW, CFG.CLAIM, CFG.STAGE, CFG.PUBLISH, CFG.FETCH, CFG.RETIRE (spec
46_swapper.md). -/

namespace Sys2Proof.Machine

/-- NOTIFY_WINDOW (R230): "if RUN_STATE = PREPARED: WINDOW_PENDING <- 1"; nothing in the other states. -/
def execNotifyWindow (s : State) : Host.Outcome State Fault Refusal :=
  .next (if s.runState = .prepared then { s with windowPending := true } else s)

/-- The claim (R232): the pending flag is exchanged, the order and the overlap factor latched, then in one access to the
SWAP word READY is cleared and LIVE read. -/
def State.claim (s : State) : State :=
  { s with
    windowPending := false
    ready := false
    bg := { s.bg with
            ordL := s.csr.windowOrder
            kL := s.csr.overlapFactor
            target := s.live.other } }

/-- CFG.CLAIM (R232). -/
def execCfgClaim (s : State) : Host.Outcome State Fault Refusal :=
  .next s.claim

/-- The rebuild (R233): `slot[target] <- BUILD(2^ord_l, k_l, NCH_L)`. -/
def State.stage (s : State) : State :=
  s.setSlot s.bg.target (Slot.build s.params (2 ^ s.bg.ordL.toNat) s.bg.kL.toNat s.latch.nch.toNat)

/-- CFG.STAGE (R233). -/
def execCfgStage (s : State) : Host.Outcome State Fault Refusal :=
  .next s.stage

/-- The publish (R234): READY <- 1, unconditional. -/
def State.publish (s : State) : State := { s with ready := true }

/-- CFG.PUBLISH (R234). -/
def execCfgPublish (s : State) : Host.Outcome State Fault Refusal :=
  .next s.publish

/-- The swap point (R235), one indivisible access to the SWAP word; the result goes to `swapped`. -/
def State.fetch (s : State) : State :=
  if s.ready then
    { s.setSlot s.live { s.liveSlot with status := .retired } with
      live := s.live.other
      ready := false
      rt := { s.rt with swapped := true } }
  else { s with rt := { s.rt with swapped := false } }

/-- CFG.FETCH (R235). -/
def execCfgFetch (s : State) : Host.Outcome State Fault Refusal :=
  .next s.fetch

/-- BG's claim is enabled in BG_IDLE (R231). -/
def State.claimEnabled (s : State) : Bool :=
  s.bg.pc == .idle && s.windowPending && s.runState == .prepared

/-- BG's housekeeping is enabled in BG_IDLE when no claim is (R231). -/
def State.retireEnabled (s : State) : Bool :=
  s.bg.pc == .idle && !s.claimEnabled && s.spareSlot.status == .retired && !s.ready

/-- The release of the retired slot (R236), "enabled only as rule R231 says" (log 19). -/
def State.retire (s : State) : State :=
  if s.retireEnabled then s.setSlot s.live.other { s.spareSlot with status := .empty } else s

/-- CFG.RETIRE (R236). -/
def execCfgRetire (s : State) : Host.Outcome State Fault Refusal :=
  .next s.retire

end Sys2Proof.Machine
end

