-- ==== Sys2Proof/Machine/Dispatch.lean ====
section
/-! DEFINITION. The meaning of every instruction, one arm per constructor (spec R103, R105). -/

namespace Sys2Proof.Machine

/-- One instruction's effect on the state. -/
def exec (i : Instr) (s : State) : Host.Outcome State Fault Refusal :=
  match i with
  | .nop => Sys2Proof.Machine.execNop s
  | .prepare => Sys2Proof.Machine.execPrepare s
  | .release => Sys2Proof.Machine.execRelease s
  | .process M => Sys2Proof.Machine.execProcess M s
  | .processBypassed M => Sys2Proof.Machine.execProcessBypassed M s
  | .notifySettings => Sys2Proof.Machine.execNotifySettings s
  | .notifyWindow => Sys2Proof.Machine.execNotifyWindow s
  | .rbWrite => Sys2Proof.Machine.execRbWrite s
  | .rbLast => Sys2Proof.Machine.execRbLast s
  | .rbDrain => Sys2Proof.Machine.execRbDrain s
  | .rbAcc => Sys2Proof.Machine.execRbAcc s
  | .cmpProcess => Sys2Proof.Machine.execCmpProcess s
  | .cmpSetThr => Sys2Proof.Machine.execCmpSetThr s
  | .cmpSetTime => Sys2Proof.Machine.execCmpSetTime s
  | .cmpSetRatio => Sys2Proof.Machine.execCmpSetRatio s
  | .scAnalyze => Sys2Proof.Machine.execScAnalyze s
  | .aggAcc => Sys2Proof.Machine.execAggAcc s
  | .aggCommit => Sys2Proof.Machine.execAggCommit s
  | .stftExtract => Sys2Proof.Machine.execStftExtract s
  | .stftWinA => Sys2Proof.Machine.execStftWinA s
  | .fftFwd => Sys2Proof.Machine.execFftFwd s
  | .binScale => Sys2Proof.Machine.execBinScale s
  | .fftInv => Sys2Proof.Machine.execFftInv s
  | .stftWinS => Sys2Proof.Machine.execStftWinS s
  | .stftOla => Sys2Proof.Machine.execStftOla s
  | .stftCount => Sys2Proof.Machine.execStftCount s
  | .stftCycle => Sys2Proof.Machine.execStftCycle s
  | .bypCycle => Sys2Proof.Machine.execBypCycle s
  | .schedAlign => Sys2Proof.Machine.execSchedAlign s
  | .schedIoStep => Sys2Proof.Machine.execSchedIoStep s
  | .schedZfill => Sys2Proof.Machine.execSchedZfill s
  | .schedCheck => Sys2Proof.Machine.execSchedCheck s
  | .setFlagCas => Sys2Proof.Machine.execSetFlagCas s
  | .setUpdate => Sys2Proof.Machine.execSetUpdate s
  | .thrCurve => Sys2Proof.Machine.execThrCurve s
  | .gainUpdate => Sys2Proof.Machine.execGainUpdate s
  | .cfgClaim => Sys2Proof.Machine.execCfgClaim s
  | .cfgStage => Sys2Proof.Machine.execCfgStage s
  | .cfgPublish => Sys2Proof.Machine.execCfgPublish s
  | .cfgFetch => Sys2Proof.Machine.execCfgFetch s
  | .cfgRetire => Sys2Proof.Machine.execCfgRetire s

end Sys2Proof.Machine
end

