-- ==== Sys2Proof/Machine/Bus.lean ====
section
/-! DEFINITION. HOST's accesses: the register map, the block sample memory, bad accesses, and the issue of a command by a
write of CMD (spec 10_state.md R29 to R44, 20_memory.md R70 to R76, 60_exceptions.md R280). -/

namespace Sys2Proof.Machine

/-- The registers of R29. -/
inductive HostReg where
  | id | version | cmd | status | err | latency | windowsProcessed | makeupGain
  | sampleRate | maxBlock | numCh | scNumCh | sidechainActive | ratio | attackMs | releaseMs
  | autoMakeup | windowOrder | overlapFactor | baseThreshold
deriving DecidableEq, Repr

/-- The offset of a register (R29). -/
def HostReg.offset : HostReg → Nat
  | .id => 0x00
  | .version => 0x04
  | .cmd => 0x08
  | .status => 0x0C
  | .err => 0x10
  | .latency => 0x14
  | .windowsProcessed => 0x18
  | .makeupGain => 0x1C
  | .sampleRate => 0x20
  | .maxBlock => 0x24
  | .numCh => 0x28
  | .scNumCh => 0x2C
  | .sidechainActive => 0x30
  | .ratio => 0x34
  | .attackMs => 0x38
  | .releaseMs => 0x3C
  | .autoMakeup => 0x40
  | .windowOrder => 0x44
  | .overlapFactor => 0x48
  | .baseThreshold => 0x4C

/-- The registers in the order of their offsets. -/
def hostRegs : List HostReg :=
  [.id, .version, .cmd, .status, .err, .latency, .windowsProcessed, .makeupGain,
   .sampleRate, .maxBlock, .numCh, .scNumCh, .sidechainActive, .ratio, .attackMs, .releaseMs,
   .autoMakeup, .windowOrder, .overlapFactor, .baseThreshold]

/-- What an aligned word address is (R70, R71, R72, R75). -/
inductive Target where
  /-- A register of R29. -/
  | register (r : HostReg)
  /-- A reserved offset, 0x50 to 0xFC. -/
  | reserved
  /-- A word of the block sample memory. -/
  | sample
  /-- Nothing. -/
  | unmapped
deriving DecidableEq, Repr

/-- The target of an aligned address. -/
def targetAt (p : Params) (a : Nat) : Target :=
  if a < 0x100 then
    match hostRegs.find? fun r => r.offset == a with
    | some r => .register r
    | none => .reserved
  else if blkBase ≤ a ∧ a < blkBase + 3 * regionSize p then .sample
  else .unmapped

/-- "32 bits wide at an address that is a multiple of 4" (R74); `width` in bytes. -/
def accessOk (addr : Word) (width : Nat) : Bool := width == 4 && addr.toNat % 4 == 0

/-- The word a register reads as (R29). -/
def State.readReg (s : State) : HostReg → Word
  | .id => 0x53435354#32
  | .version => 0x00010000#32
  | .cmd => 0#32
  | .status => s.statusWord
  | .err => s.err.word
  | .latency => s.latencyWord
  | .windowsProcessed => s.windowsProcessedWord
  | .makeupGain => s.gain
  | .sampleRate => s.csr.sampleRate
  | .maxBlock => s.csr.maxBlock
  | .numCh => s.csr.numCh
  | .scNumCh => s.csr.scNumCh
  | .sidechainActive => s.csr.sidechainActive.setWidth 32
  | .ratio => s.csr.ratio
  | .attackMs => s.csr.attackMs
  | .releaseMs => s.csr.releaseMs
  | .autoMakeup => s.csr.autoMakeup.setWidth 32
  | .windowOrder => s.csr.windowOrder.setWidth 32
  | .overlapFactor => s.csr.overlapFactor.setWidth 32
  | .baseThreshold => s.csr.baseThreshold

/-- MemRead (R17): the word goes to `hostData`. "A read has no side effect anywhere" (R76) but the error of a bad
access; while RT owns the block sample memory a read of it returns any value (R87, U6). -/
def State.hostRead (addr : Word) (width : Nat) (s : State) : State :=
  if !accessOk addr width then { s.raise .bus with hostData := 0#32 }
  else
    match targetAt s.params addr.toNat with
    | .register r => { s with hostData := s.readReg r }
    | .reserved => { s with hostData := 0#32 }
    | .sample =>
      if s.rtBusy then { s with hostData := Config.raceRead s.fresh, fresh := s.fresh + 1 }
      else { s with hostData := s.wordAt addr.toNat }
    | .unmapped => { s.raise .bus with hostData := 0#32 }

/-- A write of a register other than CMD (R29): "a write to a parameter register only stores the value" (R76); bits a
register does not name are ignored; a write of a read-only register is ignored; ERR is write-1-to-clear (R44). -/
def State.writeReg (r : HostReg) (v : Word) (s : State) : State :=
  match r with
  | .id => s
  | .version => s
  | .cmd => s
  | .status => s
  | .err => { s with err := s.err.clear v }
  | .latency => s
  | .windowsProcessed => s
  | .makeupGain => s
  | .sampleRate => { s with csr := { s.csr with sampleRate := v } }
  | .maxBlock => { s with csr := { s.csr with maxBlock := v } }
  | .numCh => { s with csr := { s.csr with numCh := v } }
  | .scNumCh => { s with csr := { s.csr with scNumCh := v } }
  | .sidechainActive => { s with csr := { s.csr with sidechainActive := v.extractLsb' 0 1 } }
  | .ratio => { s with csr := { s.csr with ratio := v } }
  | .attackMs => { s with csr := { s.csr with attackMs := v } }
  | .releaseMs => { s with csr := { s.csr with releaseMs := v } }
  | .autoMakeup => { s with csr := { s.csr with autoMakeup := v.extractLsb' 0 1 } }
  | .windowOrder => { s with csr := { s.csr with windowOrder := v.extractLsb' 0 4 } }
  | .overlapFactor => { s with csr := { s.csr with overlapFactor := v.extractLsb' 0 7 } }
  | .baseThreshold => { s with csr := { s.csr with baseThreshold := v } }

/-- A HOST write of the block sample memory. While RT owns it, it "may or may not be seen by RT" (R87, U6): seen, it is
done at once; not seen, it is done when the block command ends (log 11). -/
def State.hostStore (a : Nat) (v : Word) (s : State) : State :=
  if s.rtBusy then
    let t := { s with fresh := s.fresh + 1 }
    if Config.raceSeen s.fresh then t.storeHostWord a v
    else { t with deferred := s.deferred ++ [(a, v)] }
  else s.storeHostWord a v

/-- A write of CMD (R100): the word "is decoded and dispatched at the moment of the write"; a word that is no command
raises IllegalCmd and has no other effect (R104, R275). -/
def issueCommand (w : Word) (s : State) : Host.Outcome State Fault Refusal :=
  match decodeCommand w with
  | some i => exec i s
  | none => .next (s.raise .illegalCmd)

/-- MemWrite (R17). A bad access is dropped and raises Bus (R74, R75, R280). -/
def hostWrite (addr : Word) (width : Nat) (v : Word) (s : State) : Host.Outcome State Fault Refusal :=
  if !accessOk addr width then .next (s.raise .bus)
  else
    match targetAt s.params addr.toNat with
    | .register r => if r = .cmd then issueCommand v s else .next (s.writeReg r v)
    | .reserved => .next s
    | .sample => .next (s.hostStore addr.toNat v)
    | .unmapped => .next (s.raise .bus)

/-- A word on the micro-operation port (R107): the micro-operation it names; any other word stops the machine
(log 22). -/
def issueMicroOp (w : Word) (s : State) : Host.Outcome State Fault Refusal :=
  match decodeMicroOp w with
  | some i => exec i s
  | none => .fault (.undefinedMicroOp w)

end Sys2Proof.Machine
end

