-- ==== Sys2Proof/Machine/Sequencer.lean ====
section
/-! DEFINITION. The two fixed micro-programs: RT's block program (spec R190, R199) and BG's rebuild program (R231), one
line to a step. -/

namespace Sys2Proof.Machine

/-- `rt_pc <- target` (R17, R22). -/
def State.goto (pc : RtPc) (s : State) : State := { s with rt := { s.rt with pc := pc } }

/-- Line 4 (R190): the swap point (R191). -/
def State.rtFetch (s : State) : State := s.fetch.goto .sampleSc

/-- Line 5: SC_EFF sampled once per block (R192). -/
def State.rtSampleSc (s : State) : State := s.sampleSidechain.goto .flagCas

/-- Line 6: the settings flag (R217). -/
def State.rtFlagCas (s : State) : State := s.flagCas.goto .updOverlap

/-- Line 7, the test, and the first register SET.UPDATE reads: OVERLAP_FACTOR into `S.K` (R210, R213). -/
def State.rtUpdOverlap (s : State) : State :=
  if s.rt.changed || s.rt.swapped then s.copyOverlap.goto .updRatio else s.goto .zfill

/-- Line 7: RATIO is read, once (R210), and CMP.SETRATIO given it. -/
def State.rtUpdRatio (s : State) : State :=
  State.goto .updAttack { s.setRatio s.csr.ratio with op := { s.op with ratio := s.csr.ratio } }

/-- Line 7: ATTACK_MS is read. -/
def State.rtUpdAttack (s : State) : State :=
  State.goto .updRelease { s with op := { s.op with attackMs := s.csr.attackMs } }

/-- Line 7: RELEASE_MS is read, and CMP.SETTIME issued. -/
def State.rtUpdRelease (s : State) : State :=
  State.goto .updCurve
    { s.setTimes s.op.attackMs s.csr.releaseMs with op := { s.op with releaseMs := s.csr.releaseMs } }

/-- Line 7: THR.CURVE, which reads BASE_THRESHOLD, when SC_EFF is 0 or the block has swapped (R210). -/
def State.rtUpdCurve (s : State) : State := (s.curveIfFixed s.rt.swapped).goto .updGain

/-- Line 7: GAIN.UPDATE, which reads AUTO_MAKEUP; its ratio is "the value CMP.SETRATIO was given" (R214). -/
def State.rtUpdGain (s : State) : State := (s.updateGain s.op.ratio).goto .zfill

/-- Line 8: the surplus channels (R193). -/
def State.rtZfill (s : State) : State := (s.zeroFill s.rt.M.toNat).goto .align

/-- Line 9: the alignment (R196). -/
def State.rtAlign (s : State) : State := s.align.goto .firstIo

/-- An I/O step of RT: `n` samples from `off`, and `off <- off + n` (R190). -/
def State.rtIo (off n : Nat) (s : State) : State :=
  let t := s.ioStep off n
  { t with rt := { t.rt with n := BitVec.ofNat 32 n, off := BitVec.ofNat 32 (off + n) } }

/-- Line 10: the samples that complete the alignment. -/
def State.rtFirstIo (s : State) : State := (s.rtIo 0 s.rt.a.toNat).goto .windows

/-- Line 11: `nwin <- ceil((M - a) / I)` (R197), and `k` before the first pass of line 12; with no pass `k` stays 0, a
DESIGN CHOICE (log 13). -/
def State.rtWindows (s : State) : State :=
  State.goto .cycle
    { s with rt := { s.rt with
                     nwin := BitVec.ofNat 32 (ceilDivInterval (s.rt.M.toNat - s.rt.a.toNat) s.liveSlot.interval)
                     k := 0#32 } }

/-- Line 12: the loop test, and the cycle of the program that runs (R190, R199). -/
def State.rtCycle (s : State) : State :=
  if s.rt.k.toNat < s.rt.nwin.toNat then
    State.goto .loopIo (if s.rt.bypass then s.bypassCycle else s.stftCycle)
  else s.goto .check

/-- Line 12: `n <- min(I, M - off)`, the I/O step, and the next pass. After the last pass `k` is `nwin`, a DESIGN CHOICE
(log 13): R190 and R197 give `k` a value inside the loop only, and R21 has it dead when the command ends. -/
def State.rtLoopIo (s : State) : State :=
  let t := s.rtIo s.rt.off.toNat (min s.liveSlot.interval (s.rt.M.toNat - s.rt.off.toNat))
  State.goto .cycle { t with rt := { t.rt with k := t.rt.k + 1#32 } }

/-- Line 13: the postcondition (R198), and `RT_BUSY <- 0`. -/
def State.rtCheck (s : State) : State := s.checkConsumed.endBlock

/-- One step of RT: the line `rt_pc` stands before. At rest it takes none. -/
def State.rtStep (s : State) : State :=
  match s.rt.pc with
  | .idle => s
  | .fetch => s.rtFetch
  | .sampleSc => s.rtSampleSc
  | .flagCas => s.rtFlagCas
  | .updOverlap => s.rtUpdOverlap
  | .updRatio => s.rtUpdRatio
  | .updAttack => s.rtUpdAttack
  | .updRelease => s.rtUpdRelease
  | .updCurve => s.rtUpdCurve
  | .updGain => s.rtUpdGain
  | .zfill => s.rtZfill
  | .align => s.rtAlign
  | .firstIo => s.rtFirstIo
  | .windows => s.rtWindows
  | .cycle => s.rtCycle
  | .loopIo => s.rtLoopIo
  | .check => s.rtCheck

/-- `k` steps of RT with no other agent between them. -/
def State.rtSteps : (k : Nat) → State → State
  | 0, s => s
  | k + 1, s => State.rtSteps k s.rtStep

/-- A step of BG is enabled (R231). -/
def State.bgEnabled (s : State) : Bool :=
  match s.bg.pc with
  | .idle => s.claimEnabled || s.retireEnabled
  | .stage => true
  | .publish => true

/-- `bg_pc <- target` (R22). -/
def State.bgGoto (pc : BgPc) (s : State) : State := { s with bg := { s.bg with pc := pc } }

/-- One step of BG (R231); where none is enabled it takes none. -/
def State.bgStep (s : State) : State :=
  match s.bg.pc with
  | .idle => if s.claimEnabled then s.claim.bgGoto .stage else s.retire
  | .stage => s.stage.bgGoto .publish
  | .publish => s.publish.bgGoto .idle

/-- What happens where the schedule names no agent (log 1): RT goes on with its command, else BG takes an enabled step,
else nothing happens ("both sequencers are idle and wait", R301). -/
def State.unscheduled (s : State) : State :=
  if s.rtBusy then s.rtStep else if s.bgEnabled then s.bgStep else s

/-- The external reset (R300): every piece of state at its value of R58. The machine's parameters and the rest of the
schedule are no state of the block; the memory's content is a new unspecified one (log 24). -/
def State.applyReset (s : State) : State :=
  { State.resetWith s.params with
    fresh := s.fresh
    epoch := s.epoch + 1
    agenda := s.agenda }

end Sys2Proof.Machine
end

