-- ==== Sys2Proof/Machine/Step.lean ====
section
/-! DEFINITION. One step of the machine: the next agent of the schedule acts (spec R14, R20, R80). -/

namespace Sys2Proof.Machine

/-- What one entry of the schedule does. -/
def perform (e : Event) (s : State) : Host.Outcome State Fault Refusal :=
  match e with
  | .hostWrite addr width v => hostWrite addr width v s
  | .hostRead addr width => .next (s.hostRead addr width)
  | .rt => .next s.rtStep
  | .bg => .next s.bgStep
  | .issue w => issueMicroOp w s
  | .reset => .next s.applyReset

/-- One step: the next entry of the schedule, taken off it; where the schedule names no agent, `State.unscheduled`
(log 1). All accesses of all agents are in the one total order of the steps (R80). -/
def step (s : State) : Host.Outcome State Fault Refusal :=
  match s.agenda with
  | [] => .next s.unscheduled
  | e :: rest => perform e { s with agenda := rest }

/-- Where the machine meets an instruction word next: a command word as HOST's write of CMD (R100), any other word on
the micro-operation port (R101, R107). -/
def fetchEvent (w : Word) : Event :=
  if (opcOf w).toNat < 0x40 then .hostWrite 0x00000008#32 4 w else .issue w

/-- The state with an instruction's word where `step` meets its next instruction: at the head of the schedule
(log 21). -/
def State.withFetchWord (s : State) (nbits w : Nat) : State :=
  { s with agenda := fetchEvent (tableWord nbits w) :: s.agenda }

end Sys2Proof.Machine
end

