-- ==== Sys2Proof/Machine/Assembler.lean ====
section
/-! DEFINITION. The listing syntax and the pseudo-instructions of spec R107 and R108: each line as the schedule entries that
perform it. -/

namespace Sys2Proof.Machine

/-- `WR <REG>, <value>` (R107). -/
def asmWr (r : HostReg) (v : Word) : Event := .hostWrite (BitVec.ofNat 32 r.offset) 4 v

/-- `RD <REG>` (R107). -/
def asmRd (r : HostReg) : Event := .hostRead (BitVec.ofNat 32 r.offset) 4

/-- `CMD <MNEMONIC> [arg]` (R107): the command's word written to CMD. -/
def asmCmd (i : Instr) : Event := asmWr .cmd (encode i)

/-- `RT.<micro-op>` (R107): the micro-operation applied directly to the named state. -/
def asmMicroOp (i : Instr) : Event := .issue (encode i)

/-- `WRS <region>[c][i..], <list>` (R107): HOST writes of block samples. -/
def asmWrs (p : Params) (r : Region) (c : Nat) : (i : Nat) → List F32 → List Event
  | _, [] => []
  | i, v :: vals => .hostWrite (BitVec.ofNat 32 (sampleAddr p r c i)) 4 v :: asmWrs p r c (i + 1) vals

/-- `RDS OUT[c][i..i+n-1]` (R107): HOST reads of block samples. -/
def asmRds (p : Params) (r : Region) (c i n : Nat) : List Event :=
  (List.range n).map fun j => .hostRead (BitVec.ofNat 32 (sampleAddr p r c (i + j))) 4

/-- `prepare sr, maxblk, nch [, scch]` (R108). -/
def asmPrepare (sr : F32) (maxBlk nch scCh : Word) : List Event :=
  [asmWr .sampleRate sr, asmWr .maxBlock maxBlk, asmWr .numCh nch, asmWr .scNumCh scCh, asmCmd .prepare]

/-- `release` (R108). -/
def asmRelease : List Event := [asmCmd .release]

/-- `processBlock M` (R108): the command, RT's steps, and the polls of STATUS, `polls` of them. -/
def asmProcessBlock (M rtTurns polls : Nat) : List Event :=
  asmCmd (.process M) :: (List.replicate rtTurns .rt ++ List.replicate polls (asmRd .status))

/-- `processBlockBypassed M` (R108). -/
def asmProcessBlockBypassed (M rtTurns polls : Nat) : List Event :=
  asmCmd (.processBypassed M) :: (List.replicate rtTurns .rt ++ List.replicate polls (asmRd .status))

/-- `reportedLatencySamples` (R108, R254): a read of LATENCY, not a command. -/
def asmReportedLatency : List Event := [asmRd .latency]

/-- `onCompressorSettingsChanged` (R108). -/
def asmOnSettingsChanged : List Event := [asmCmd .notifySettings]

/-- `onWindowOrderChanged` (R108). -/
def asmOnWindowOrderChanged : List Event := [asmCmd .notifyWindow]

/-- `setRatio x` and its like (R108): a parameter write, then NOTIFY_SETTINGS. -/
def asmSetParameter (r : HostReg) (v : Word) : List Event := [asmWr r v, asmCmd .notifySettings]

/-- `setWindowOrder n` (R108). -/
def asmSetWindowOrder (n : Word) : List Event := [asmWr .windowOrder n, asmCmd .notifyWindow]

end Sys2Proof.Machine
end

