-- ==== Sys2Proof/Safety.lean ====
section
/-! DEFINITION. What counts as a sound state and a safe run, in the terms the statements use (spec 10_state.md R48, R49,
R53, R57; 44_scheduler.md R195, R198; 46_swapper.md R238). -/

namespace Sys2Proof.Machine

/-- The write cursor of channel 0's input ring; all input rings have the same (R49). -/
def Slot.cursor (S : Slot) : Nat := (S.ring .input 0).pos

/-- A ring of capacity `W` holding `W` samples (R48, R49). -/
structure Ring.Sized (r : Ring) (W : Nat) : Prop where
  cap_eq : r.cap = W
  data_length : r.data.length = W

/-- A BUILT slot for `nch` channels (R45, R49, R53): "every per-channel array has exactly `numChannels` entries; every
per-bin array has exactly `window size / 2` entries", and between I/O steps the cursors of all input rings and of
all output rings agree (R195). -/
structure Slot.Built (S : Slot) (nch : Nat) : Prop where
  status_eq : S.status = .built
  window_pos : 0 < S.W
  nch_eq : S.nch = nch
  nch_pos : 0 < nch
  win_length : S.win.length = S.W
  scratch_length : S.scratch.length = 2 * S.W
  inr_length : S.inr.length = nch
  sidr_length : S.sidr.length = nch
  outr_length : S.outr.length = nch
  thr_length : S.thr.length = S.W / 2
  ratio_length : S.ratio.length = S.W / 2
  cteA_length : S.cteA.length = S.W / 2
  cteR_length : S.cteR.length = S.W / 2
  acc_length : S.acc.length = S.W / 2
  env_length : S.env.length = S.W / 2
  env_rows : ∀ row ∈ S.env, row.length = nch
  cursor_lt : S.cursor < S.W
  input_rings : ∀ r ∈ S.inr, r.Sized S.W ∧ r.pos = S.cursor ∧ r.rpos = 0
  sidechain_rings : ∀ r ∈ S.sidr, r.Sized S.W ∧ r.pos < S.W ∧ r.rpos = 0
  output_rings : ∀ r ∈ S.outr, r.Sized S.W ∧ r.rpos = S.cursor ∧ r.pos = 0

/-- The invariant of the machine under HOST, RT, BG and reset: the swapper's protocol (R26, R53, R57, R238), the shape of
the slots in use, RT's busy bit, the canonical memory, and a schedule in which no micro-operation is applied
directly. -/
structure State.Sound (s : State) : Prop where
  /-- "when RUN_STATE is PREPARED, `slot[LIVE].status = BUILT`" (R53); the slots keep what they held in FATAL (R291). -/
  live_built : s.runState ≠ .unprepared → s.liveSlot.Built s.latch.nch.toNat
  /-- "when READY = 1, `slot[1 - LIVE].status = BUILT`" (R53). -/
  ready_built : s.ready = true → s.spareSlot.Built s.latch.nch.toNat
  /-- Published is a state of a prepared engine with BG idle (R26). -/
  ready_idle : s.ready = true → s.bg.pc = .idle ∧ s.runState ≠ .unprepared
  /-- Between its claim and its publish BG's target is the spare slot (R232, R238). -/
  target_spare : s.bg.pc ≠ .idle → s.bg.target = s.live.other ∧ s.runState ≠ .unprepared
  /-- What BG publishes is built (R233). -/
  staged_built : s.bg.pc = .publish → s.spareSlot.Built s.latch.nch.toNat
  /-- No configuration exists in UNPREPARED (R23). -/
  unprepared_empty : s.runState = .unprepared → s.slot0.status = .empty ∧ s.slot1.status = .empty
  /-- In UNPREPARED the flags and LIVE stand as reset and RELEASE leave them: the NOTIFY commands do nothing there (R255),
  and no swap happens. -/
  unprepared_flags :
    s.runState = .unprepared → s.settingsChanged = false ∧ s.windowPending = false ∧ s.live = .s0
  /-- RT is at rest exactly when RT_BUSY is 0 (R22, R190). -/
  busy_iff : s.rtBusy = true ↔ s.rt.pc ≠ .idle
  /-- Only a prepared engine runs a block (R255). -/
  busy_prepared : s.rtBusy = true → s.runState = .prepared
  /-- The memory is in its canonical form. -/
  mem_wf : Memory.wf s.mem
  /-- No HOST write waits unseen while HOST owns the block sample memory (R87, log 11). -/
  deferred_idle : s.rtBusy = false → s.deferred = []
  /-- Only the hardware's agents act. -/
  schedule : s.agenda.all Event.isHardware = true

/-- HOST keeps the overlap factor in 2 to 64 and the window order in 9 to 15 (R10): "prevented by the collaborator's
range enforcement before reaching this core". -/
def Event.keepsRange : Event → Bool
  | .hostWrite addr width v =>
    if accessOk addr width then
      if addr.toNat = HostReg.offset .overlapFactor then
        decide (2 ≤ (v.extractLsb' 0 7).toNat) && decide ((v.extractLsb' 0 7).toNat ≤ 64)
      else if addr.toNat = HostReg.offset .windowOrder then decide (9 ≤ (v.extractLsb' 0 4).toNat)
      else true
    else true
  | .hostRead _ _ => true
  | .rt => true
  | .bg => true
  | .issue _ => true
  | .reset => true

/-- A window size and an overlap factor of the declared ranges (R10). -/
structure InRange (W K : Nat) : Prop where
  window_ge : 512 ≤ W
  overlap_ge : 2 ≤ K
  overlap_le : K ≤ 64

/-- Every window order and overlap factor the machine holds, or will be given by the schedule, is in its declared range
(R10). -/
structure State.Ranged (s : State) : Prop where
  csr_range : InRange (2 ^ s.csr.windowOrder.toNat) s.csr.overlapFactor.toNat
  live_range : s.runState ≠ .unprepared → InRange s.liveSlot.W s.liveSlot.K
  bg_range : s.bg.pc = .stage → InRange (2 ^ s.bg.ordL.toNat) s.bg.kL.toNat
  spare_range : s.ready = true ∨ s.bg.pc = .publish → InRange s.spareSlot.W s.spareSlot.K
  schedule_range : s.agenda.all Event.keepsRange = true

/-- How much of the block RT has consumed at each line of its program (R190, R196, R197, R198). -/
def State.Consumed (s : State) : Prop :=
  let I := s.liveSlot.interval
  let M := s.rt.M.toNat
  let a := s.rt.a.toNat
  let off := s.rt.off.toNat
  let nwin := s.rt.nwin.toNat
  let k := s.rt.k.toNat
  match s.rt.pc with
  | .firstIo => a ≤ M
  | .windows => a ≤ M ∧ off = a
  | .cycle => a ≤ M ∧ off = min M (a + k * I) ∧ k ≤ nwin ∧ nwin = (M - a + I - 1) / I
  | .loopIo => a ≤ M ∧ off = min M (a + k * I) ∧ k < nwin ∧ nwin = (M - a + I - 1) / I
  | .check => off = M
  | _ => True

/-- A step of a run is safe when it does not enter the fatal state (R291). -/
def SafeStep (s : State) : Prop :=
  ∀ t, step s = .next t → s.runState ≠ .fatal → t.runState ≠ .fatal

/-- Nothing of the state but the live slot changes, and no byte of the block sample memory: the shape of every
micro-operation that works on the live slot alone (R57). -/
structure LiveBecomes (s : State) (S : Slot) (t : State) : Prop where
  state_eq : t = s.setSlot s.live S
  memory_eq : ∀ a, t.byteAt a = s.byteAt a

/-- As `LiveBecomes`, for an operation that runs transforms: the model's counter of free values moves on too (log 6). -/
structure EngineBecomes (s : State) (S : Slot) (t : State) : Prop where
  state_eq : t = { s.setSlot s.live S with fresh := t.fresh }
  memory_eq : ∀ a, t.byteAt a = s.byteAt a

/-! ## Operands and results of the micro-operations, as the statements name them -/

/-- `src[i]`: sample `off + i` of channel `c` of a block buffer, or element `i` of the scratch buffer (R120). -/
def State.sourceElem (s : State) (i : Nat) : F32 :=
  match s.op.src with
  | .block r => s.sample r s.rt.c.toNat (s.rt.off.toNat + i)
  | .scratch => elemAt s.liveSlot.scratch i

/-- The byte at `a` belongs to one of the samples `R[c][off .. off+n-1]` (R72). -/
def InSamples (p : Params) (r : Region) (c off n a : Nat) : Prop :=
  ∃ i < n, sampleExists p c (off + i) = true ∧ sampleAddr p r c (off + i) ≤ a ∧ a < sampleAddr p r c (off + i) + 4

/-- `OUT`, `IN` or `SC` in channel `c` receives `vals i` at sample `off + i` for every `i < n`, and nothing else of the
state changes. -/
structure SamplesBecome (s : State) (r : Region) (c off n : Nat) (vals : Nat → F32) (t : State) : Prop where
  state_eq : t = { s with mem := t.mem }
  written : ∀ i < n, sampleExists s.params c (off + i) = true → t.sample r c (off + i) = vals i
  kept : ∀ a, ¬ InSamples s.params r c off n a → t.byteAt a = s.byteAt a

/-- `dst[i] <- vals i` for every `i < n`, where `dst` is the destination the operand registers select, and nothing else of
the state changes (R120, R122, R123). -/
def DestBecomes (s : State) (vals : Nat → F32) (t : State) : Prop :=
  match s.op.dst with
  | none => t = s
  | some (.block r) => SamplesBecome s r s.rt.c.toNat s.rt.off.toNat s.rt.n.toNat vals t
  | some .scratch =>
    ∃ x : List F32,
      LiveBecomes s { s.liveSlot with scratch := x } t ∧ x.length = s.liveSlot.scratch.length
        ∧ ∀ i < x.length, elemAt x i = if i < s.rt.n.toNat then vals i else elemAt s.liveSlot.scratch i

/-- The scratch buffer after `RB.LAST(r, scratch[0..W-1], W)` on a ring of capacity `W` (R161, R172): the whole ring,
oldest sample first; the elements from `W` on stay. -/
def frameOf (r : Ring) (W : Nat) (scratch : List F32) : List F32 :=
  ((List.range W).map fun i => elemAt r.data ((r.pos + i) % W)) ++ scratch.drop W

/-- Micro-operations issued one after another, each with the channel register set first (R101). -/
def issueAll : List (Nat × Instr) → State → Host.Outcome State Fault Refusal
  | [], s => .next s
  | (c, i) :: rest, s =>
    match exec i { s with rt := { s.rt with c := BitVec.ofNat 32 c } } with
    | .next t => issueAll rest t
    | .fault f => .fault f
    | .refused r => .refused r

/-- The micro-operations of one processing cycle (R170): the sidechain phase when SC_EFF is 1, then seven steps per channel,
then the counter. -/
def cycleProgram (nch : Nat) (scEff : Bool) : List (Nat × Instr) :=
  (if scEff then (List.range nch).map (fun c => (c, Instr.scAnalyze)) ++ [(0, Instr.aggCommit)] else [])
    ++ (List.range nch).flatMap (fun c =>
        [(c, Instr.stftExtract), (c, Instr.stftWinA), (c, Instr.fftFwd), (c, Instr.binScale), (c, Instr.fftInv),
         (c, Instr.stftWinS), (c, Instr.stftOla)])
    ++ [(0, Instr.stftCount)]

end Sys2Proof.Machine
end

