-- ==== Sys2Proof/Certificates/Slice0/Obligations.lean ====
section
/-! DEFINITION. The statements for the provers: what the instructions and the machine do, from the numbered rules of the spec.
Each docstring names the rules it formalises, and the log entries of what is the model's own. -/

section
open Sys2Proof Sys2Proof.Machine

/-- Decoding the encoding of any well-formed instruction gives it back. Rules R100, R102, R103, R105: every bit of an
encoding counts. The byte order is that of R73. -/
def Obligations.DecodeEncodeRoundTrip : Prop :=
  ∀ i : Instr, i.wellFormed = true →
    decode (encode i) = .ok i ∧ ∀ rest : List Byte, decodeBytes (bytesOfWord (encode i) ++ rest) = .ok (i, rest)

/-- A word that decodes is the encoding of a well-formed instruction, so each word has one meaning. Rules R103 to
R106: no reserved word falls through to a neighbouring row. -/
def Obligations.DecodedWordIsItsEncoding : Prop :=
  ∀ (w : Word) (i : Instr), decode w = .ok i → i.wellFormed = true ∧ encode i = w

/-- The words of test vectors V60 and V61, and one per family of micro-operations, decode as listed. V60, V61 and V62
of 95_test_vectors.md, and words of R105. -/
def Obligations.SampleWordsDecode : Prop :=
  decode 0x00000000#32 = .ok .nop ∧ decode 0x01000000#32 = .ok .prepare ∧ decode 0x02000000#32 = .ok .release ∧
  decode 0x03000200#32 = .ok (.process 512) ∧ decode 0x03000000#32 = .ok (.process 0) ∧
  decode 0x03ABCDEF#32 = .ok (.process 11259375) ∧ decode 0x04000007#32 = .ok (.processBypassed 7) ∧
  decode 0x05000000#32 = .ok .notifySettings ∧ decode 0x06000000#32 = .ok .notifyWindow ∧
  decode 0x40000000#32 = .ok .rbWrite ∧ decode 0x48000000#32 = .ok .cmpProcess ∧
  decode 0x52000000#32 = .ok .aggCommit ∧ decode 0x5A000000#32 = .ok .fftFwd ∧
  decode 0x61000000#32 = .ok .bypCycle ∧ decode 0x65000000#32 = .ok .schedIoStep ∧
  decode 0x6B000000#32 = .ok .gainUpdate ∧ decode 0x73000000#32 = .ok .cfgFetch ∧
  decodeCommand 0x01000001#32 = none ∧ decodeCommand 0x07000000#32 = none ∧
  decodeCommand 0x40000000#32 = none ∧ decodeCommand 0xFFFFFFFF#32 = none

/-- A word written to CMD is a command or is illegal, and an illegal word changes nothing but ERR. Rule R104, and
R275: in every RUN_STATE, also while RT is busy. -/
def Obligations.IllegalWordOnlyRecordsError : Prop :=
  ∀ (s : State) (w : Word),
    (7 ≤ (opcOf w).toNat ∨ ((opcOf w).toNat ∈ [0, 1, 2, 5, 6] ∧ argOf w ≠ 0) →
      hostWrite 0x00000008#32 4 w s = .next { s with err := ⟨s.err.causes ||| 4#8, 3#8⟩ }) ∧
    (¬ (7 ≤ (opcOf w).toNat ∨ ((opcOf w).toNat ∈ [0, 1, 2, 5, 6] ∧ argOf w ≠ 0)) →
      ∃ i : Instr, i.isCommand = true ∧ decode w = .ok i ∧ hostWrite 0x00000008#32 4 w s = exec i s)

/-- A step runs the decoded instruction: a command word on CMD, or a micro-operation word on its port (logs 1, 21,
22). The schedule and the micro-operation port are the model's own (logs 1, 21, 22). -/
def Obligations.StepRunsDecodedInstruction : Prop :=
  (∀ (s : State) (rest : List Event) (w : Word) (i : Instr), s.agenda = .hostWrite 0x00000008#32 4 w :: rest →
    decode w = .ok i → i.isCommand = true → step s = exec i { s with agenda := rest }) ∧
  (∀ (s : State) (rest : List Event) (w : Word) (i : Instr), s.agenda = .issue w :: rest →
    decode w = .ok i → i.isCommand = false → step s = exec i { s with agenda := rest }) ∧
  (∀ (s : State) (rest : List Event) (w : Word), s.agenda = .issue w :: rest →
    (∀ i : Instr, decode w = .ok i → i.isCommand = true) → step s = .fault (.undefinedMicroOp w)) ∧
  (∀ (s : State) (i : Instr), i.wellFormed = true → step (s.withFetchWord 32 (encode i).toNat) = exec i s)

/-- NOP changes no state, in every state. Rule R252. -/
def Obligations.NopChangesNothing : Prop :=
  ∀ s : State, exec .nop s = .next s

/-- An accepted PREPARE latches its arguments, builds slot 0, applies all settings and enters PREPARED. Rule R250
lines 5 to 10, with BUILD of R233 and the forced update of R210. The fields of an EMPTY slot hold no value in the spec
(R53); that slot 1 keeps them is the model's choice (log 14). K = 0: log 16. -/
def Obligations.PrepareEstablishesEngine : Prop :=
  ∀ s : State, s.rtBusy = false → s.runState ≠ .fatal →
    fIsFinite s.csr.sampleRate = true → fLt fZero s.csr.sampleRate = true →
    1 ≤ s.csr.maxBlock.toNat → s.csr.maxBlock.toNat ≤ s.params.maxBlock →
    1 ≤ s.csr.numCh.toNat → s.csr.numCh.toNat ≤ s.params.maxCh →
    (s.csr.scNumCh = 0#32 ∨ s.csr.scNumCh = s.csr.numCh) →
    let W := 2 ^ s.csr.windowOrder.toNat
    let K := s.csr.overlapFactor.toNat
    let nch := s.csr.numCh.toNat
    let sc := s.csr.sidechainActive.getLsbD 0 && s.csr.scNumCh != 0#32
    let rate := fDiv s.csr.sampleRate (fOfNat (interval W K))
    let ring : Ring := ⟨W, List.replicate W fZero, 0, 0⟩
    let slot : Slot :=
      { status := .built, W := W, K := K, nch := nch
        win := (List.range W).map (winCoefficient s.params W)
        scratch := List.replicate (2 * W) fZero
        inr := List.replicate nch ring, sidr := List.replicate nch ring, outr := List.replicate nch ring
        thr := (List.range (W / 2)).map fun j =>
          db2lin s.params (curveDecibels s.csr.baseThreshold (fDiv s.csr.sampleRate (fOfNat W)) (j + 1))
        ratio := List.replicate (W / 2) s.csr.ratio
        cteA := List.replicate (W / 2) (cmpCte s.params s.csr.attackMs rate)
        cteR := List.replicate (W / 2) (cmpCte s.params s.csr.releaseMs rate)
        env := List.replicate (W / 2) (List.replicate nch fZero)
        acc := List.replicate (W / 2) fZero
        count := 0#32 }
    exec .prepare s = .next
      { s with
        latch := ⟨s.csr.sampleRate, s.csr.maxBlock, s.csr.numCh, s.csr.scNumCh != 0#32⟩
        settingsChanged := false
        windowPending := false
        bg := { s.bg with pc := .idle }
        live := .s0
        ready := false
        slot0 := slot
        slot1 := { s.slot1 with status := .empty }
        scEff := sc
        gain := makeupGain K s.csr.ratio (s.csr.autoMakeup.getLsbD 0) sc
        runState := .prepared } ∧
    ∀ t : State, exec .prepare s = .next t → ∀ a, t.byteAt a = s.byteAt a

/-- PREPARE refuses bad arguments before a bad layout, and then changes nothing but ERR. Rules R279 and R272. -/
def Obligations.PrepareChecksItsArguments : Prop :=
  ∀ s : State, s.rtBusy = false → s.runState ≠ .fatal →
    let bad := fIsFinite s.csr.sampleRate = false ∨ fLt fZero s.csr.sampleRate = false ∨
      s.csr.maxBlock = 0#32 ∨ s.params.maxBlock < s.csr.maxBlock.toNat ∨
      s.csr.numCh = 0#32 ∨ s.params.maxCh < s.csr.numCh.toNat
    (bad → exec .prepare s = .next { s with err := ⟨s.err.causes ||| 0x40#8, 7#8⟩ }) ∧
    (¬ bad → s.csr.scNumCh ≠ 0#32 ∧ s.csr.scNumCh ≠ s.csr.numCh →
      exec .prepare s = .next { s with err := ⟨s.err.causes ||| 0x01#8, 1#8⟩ })

/-- RELEASE frees both configurations and enters UNPREPARED, and is refused while busy or in FATAL. Rule R251. The
fields of an EMPTY slot hold no value in the spec (R53): that they stay as they were is the model's choice (log 14). -/
def Obligations.ReleaseFreesBothSlots : Prop :=
  ∀ s : State,
    (s.rtBusy = true → exec .release s = .next { s with err := ⟨s.err.causes ||| 0x20#8, 6#8⟩ }) ∧
    (s.rtBusy = false → s.runState = .fatal →
      exec .release s = .next { s with err := ⟨s.err.causes ||| 0x08#8, 4#8⟩ }) ∧
    (s.rtBusy = false → s.runState ≠ .fatal →
      ∃ t : State, exec .release s = .next t ∧ (∀ a, t.byteAt a = s.byteAt a) ∧
        t = { s with
              slot0 := { s.slot0 with status := .empty }
              slot1 := { s.slot1 with status := .empty }
              settingsChanged := false
              windowPending := false
              bg := { s.bg with pc := .idle }
              live := .s0
              ready := false
              runState := .unprepared } ∧
        t.latencyWord = 0#32 ∧ t.windowsProcessedWord = 0#32) ∧
    (s.Sound → s.runState = .unprepared → exec .release s = .next s)

/-- NOTIFY_SETTINGS and NOTIFY_WINDOW set their flag in PREPARED and do nothing in the other states. Rules R253 and
R230. -/
def Obligations.NotifySetsItsFlagOnlyWhenPrepared : Prop :=
  ∀ s : State,
    (s.runState = .prepared →
      exec .notifySettings s = .next { s with settingsChanged := true } ∧
      exec .notifyWindow s = .next { s with windowPending := true }) ∧
    (s.runState ≠ .prepared → exec .notifySettings s = .next s ∧ exec .notifyWindow s = .next s)

/-- An accepted block command starts RT's program, and each step of RT is the micro-operation of its line. Rules R190
and R199, line by line, with the rule of each line. One line of the program is one step of RT (log 2). K = 0: log 16.
`k` outside a pass: log 13. HOST's writes that RT has not seen reach the memory at the end (log 11). -/
def Obligations.BlockCommandStarts : Prop :=
  ∀ s : State,
    (∀ M : Nat, s.rtBusy = false → s.runState = .prepared → M ≤ s.latch.maxBlock.toNat →
      (∃ t : State, exec (.process M) s = .next t ∧ (∀ a, t.byteAt a = s.byteAt a) ∧
        t = { s with rtBusy := true, rt := { s.rt with pc := .fetch, bypass := false, M := BitVec.ofNat 32 M } }) ∧
      (∃ t : State, exec (.processBypassed M) s = .next t ∧ (∀ a, t.byteAt a = s.byteAt a) ∧
        t = { s with rtBusy := true, rt := { s.rt with pc := .fetch, bypass := true, M := BitVec.ofNat 32 M } })) ∧
    (s.rt.pc = .idle → s.rtStep = s) ∧
    (s.rt.pc = .fetch → ∃ t : State, exec .cfgFetch s = .next t ∧
      s.rtStep = { t with rt := { t.rt with pc := .sampleSc } }) ∧
    (s.rt.pc = .sampleSc → s.rtStep =
      { s with
        scEff := s.csr.sidechainActive.getLsbD 0 && s.latch.scBus
        rt := { s.rt with pc := .flagCas } }) ∧
    (s.rt.pc = .flagCas → ∃ t : State, exec .setFlagCas s = .next t ∧
      s.rtStep = { t with rt := { t.rt with pc := .updOverlap } }) ∧
    (s.rt.pc = .updOverlap → s.rt.changed = false → s.rt.swapped = false →
      s.rtStep = { s with rt := { s.rt with pc := .zfill } }) ∧
    (s.rt.pc = .zfill → ∃ t : State, exec .schedZfill s = .next t ∧
      s.rtStep = { t with rt := { t.rt with pc := .align } }) ∧
    (s.rt.pc = .align → ∃ t : State, exec .schedAlign s = .next t ∧
      s.rtStep = { t with rt := { t.rt with pc := .firstIo } }) ∧
    (s.rt.pc = .firstIo → ∃ t : State,
      exec .schedIoStep { s with rt := { s.rt with off := 0#32, n := s.rt.a } } = .next t ∧
      s.rtStep = { t with rt := { t.rt with pc := .windows, off := s.rt.a } }) ∧
    (s.rt.pc = .windows → s.rt.a.toNat ≤ s.rt.M.toNat → 0 < s.liveSlot.interval →
      s.rtStep =
        { s with rt := { s.rt with
            pc := .cycle, k := 0#32
            nwin := BitVec.ofNat 32
              ((s.rt.M.toNat - s.rt.a.toNat + s.liveSlot.interval - 1) / s.liveSlot.interval) } }) ∧
    (s.rt.pc = .cycle → s.rt.k.toNat < s.rt.nwin.toNat → ∃ t : State,
      exec (if s.rt.bypass then .bypCycle else .stftCycle) s = .next t ∧
      s.rtStep = { t with rt := { t.rt with pc := .loopIo } }) ∧
    (s.rt.pc = .cycle → s.rt.nwin.toNat ≤ s.rt.k.toNat →
      s.rtStep = { s with rt := { s.rt with pc := .check } }) ∧
    (s.rt.pc = .loopIo → s.rt.off.toNat ≤ s.rt.M.toNat → ∃ (n : Word) (t : State),
      n.toNat = min s.liveSlot.interval (s.rt.M.toNat - s.rt.off.toNat) ∧
      exec .schedIoStep { s with rt := { s.rt with n := n } } = .next t ∧
      s.rtStep = { t with rt := { t.rt with pc := .cycle, off := s.rt.off + n, k := s.rt.k + 1#32 } }) ∧
    (s.rt.pc = .check → ∃ t : State, exec .schedCheck s = .next t ∧
      s.rtStep =
        { t with
          rtBusy := false
          rt := { t.rt with pc := .idle }
          mem := flushDeferred t.deferred t.mem
          deferred := [] })

/-- A command refused as Busy, NotPrepared or BlockLen changes nothing but ERR. Rules R276, R277 (R200) and R278, in
the order of R281. -/
def Obligations.UnacceptableCommandOnlyRecordsError : Prop :=
  ∀ (s : State) (M : Nat),
    (s.rtBusy = true → ∀ i ∈ [Instr.prepare, .release, .process M, .processBypassed M],
      exec i s = .next { s with err := ⟨s.err.causes ||| 0x20#8, 6#8⟩ }) ∧
    (s.rtBusy = false → s.runState ≠ .prepared → ∀ i ∈ [Instr.process M, .processBypassed M],
      exec i s = .next { s with err := ⟨s.err.causes ||| 0x08#8, 4#8⟩ }) ∧
    (s.rtBusy = false → s.runState = .fatal → ∀ i ∈ [Instr.prepare, .release],
      exec i s = .next { s with err := ⟨s.err.causes ||| 0x08#8, 4#8⟩ }) ∧
    (s.rtBusy = false → s.runState = .prepared → s.latch.maxBlock.toNat < M →
      ∀ i ∈ [Instr.process M, .processBypassed M],
        exec i s = .next { s with err := ⟨s.err.causes ||| 0x10#8, 5#8⟩ })

/-- RB.WRITE stores n samples at the write cursor and moves it, for every n (operand wiring: log 12). Rule R121; the
operand registers are the model's (log 12). -/
def Obligations.RbWriteAppends : Prop :=
  ∀ (s : State) (r : Ring), (s.liveSlot.rings s.op.ring)[s.rt.c.toNat]? = some r → r.data.length = r.cap → 0 < r.cap →
    ∃ (d : List F32) (t : State), exec .rbWrite s = .next t ∧
      LiveBecomes s
        (s.liveSlot.modRing s.op.ring s.rt.c.toNat fun _ => { r with data := d, pos := (r.pos + s.rt.n.toNat) % r.cap }) t ∧
      d.length = r.cap ∧
      (∀ i < s.rt.n.toNat, s.rt.n.toNat ≤ i + r.cap → elemAt d ((r.pos + i) % r.cap) = s.sourceElem i) ∧
      (∀ j < r.cap, (∀ i < s.rt.n.toNat, (r.pos + i) % r.cap ≠ j) → elemAt d j = elemAt r.data j)

/-- RB.LAST copies the n newest samples, oldest first, and changes no ring (operand wiring: log 12). Rule R122; the
operand registers are the model's (log 12). -/
def Obligations.RbLastCopiesNewestSamples : Prop :=
  ∀ (s : State) (r : Ring), (s.liveSlot.rings s.op.ring)[s.rt.c.toNat]? = some r → r.data.length = r.cap → 0 < r.cap →
    s.rt.n.toNat ≤ r.cap →
    ∃ t : State, exec .rbLast s = .next t ∧
      DestBecomes s (fun i => elemAt r.data ((r.pos + r.cap - s.rt.n.toNat + i) % r.cap)) t

/-- RB.DRAIN copies the n oldest samples, and with consume zeroes them and moves rpos (operand wiring: log 12). Rule
R123; the operand registers are the model's (log 12). -/
def Obligations.RbDrainEmitsOldestSamples : Prop :=
  ∀ (s : State) (r : Ring), (s.liveSlot.rings s.op.ring)[s.rt.c.toNat]? = some r → r.data.length = r.cap → 0 < r.cap →
    ∃ (d : List F32) (u t : State), exec .rbDrain s = .next t ∧
      LiveBecomes s
        (s.liveSlot.modRing s.op.ring s.rt.c.toNat fun _ =>
          { r with data := d, rpos := if s.op.consume then (r.rpos + s.rt.n.toNat) % r.cap else r.rpos }) u ∧
      DestBecomes u
        (fun i => if s.op.consume = true ∧ r.cap ≤ i then fZero else elemAt r.data ((r.rpos + i) % r.cap)) t ∧
      d.length = r.cap ∧
      (s.op.consume = false → d = r.data) ∧
      (s.op.consume = true → ∀ i < s.rt.n.toNat, elemAt d ((r.rpos + i) % r.cap) = fZero) ∧
      (∀ j < r.cap, (∀ i < s.rt.n.toNat, (r.rpos + i) % r.cap ≠ j) → elemAt d j = elemAt r.data j)

/-- RB.ACC adds gain times each source sample from rpos on and moves no cursor (operand wiring: log 12). Rule R124;
the operand registers are the model's (log 12). -/
def Obligations.RbAccAddsScaledSamples : Prop :=
  ∀ (s : State) (r : Ring), (s.liveSlot.rings s.op.ring)[s.rt.c.toNat]? = some r → r.data.length = r.cap → 0 < r.cap →
    s.rt.n.toNat ≤ r.cap →
    ∃ (d : List F32) (t : State), exec .rbAcc s = .next t ∧
      LiveBecomes s (s.liveSlot.modRing s.op.ring s.rt.c.toNat fun _ => { r with data := d }) t ∧
      d.length = r.cap ∧
      (∀ i < s.rt.n.toNat, elemAt d ((r.rpos + i) % r.cap) =
        fAdd (elemAt r.data ((r.rpos + i) % r.cap)) (fMul s.op.gain (s.sourceElem i))) ∧
      (∀ j < r.cap, (∀ i < s.rt.n.toNat, (r.rpos + i) % r.cap ≠ j) → elemAt d j = elemAt r.data j)

/-- After any sequence of writes a ring's last n samples are the last n of the write history. The source's test
property in R122: RB.LAST after RB.WRITE returns the end of the write history, oldest first. -/
def Obligations.RingRemembersRecentHistory : Prop :=
  ∀ (cap n : Nat) (writes : List (List F32)), n ≤ cap →
    (writes.foldl (fun r xs => r.write xs xs.length) (Ring.fresh cap)).last n =
      (List.replicate cap fZero ++ writes.flatten).drop (cap + writes.flatten.length - n)

/-- CMP.PROCESS steps one bin's compressor in one channel and writes only its envelope and m2. Rules R142 to R145. -/
def Obligations.CmpProcessStepsOneInstance : Prop :=
  ∀ (s : State) (row : List F32), 1 ≤ s.rt.b.toNat → s.rt.b.toNat ≤ s.liveSlot.W / 2 →
    s.liveSlot.env[s.rt.b.toNat - 1]? = some row → s.rt.c.toNat < row.length →
    let S := s.liveSlot
    let j := s.rt.b.toNat - 1
    let env := elemAt row s.rt.c.toNat
    let m := s.rt.m
    let thr := elemAt S.thr j
    let ratio := elemAt S.ratio j
    let e := (cmpStep s.params env thr ratio (elemAt S.cteA j) (elemAt S.cteR j) m).1
    let m' := (cmpStep s.params env thr ratio (elemAt S.cteA j) (elemAt S.cteR j) m).2
    (∃ t : State, exec .cmpProcess s = .next t ∧ (∀ a, t.byteAt a = s.byteAt a) ∧
      t = { s.setSlot s.live { S with env := S.env.set j (row.set s.rt.c.toNat e) } with rt := { s.rt with m2 := m' } }) ∧
    (s.params.core = .reference →
      e = fAdd m (fMul (if fLt env m then elemAt S.cteA j else elemAt S.cteR j) (fSub env m)) ∧
      m' = fMul (if fLt e thr then fOne else numPow (fDiv e thr) (fSub (fDiv fOne ratio) fOne)) m)

/-- With ratio 1.0 every core returns a finite magnitude unchanged; the reference core's other corner cases. Property
P2 of R141, and the corner cases of R146. -/
def Obligations.UnityAtRatioOne : Prop :=
  ∀ (p : Params) (env thr ratio cteA cteR m : F32),
    (fIsFinite m = true → fIsZero m = true ∨ fSign m = false → (cmpStep p env thr fOne cteA cteR m).2 = m) ∧
    (p.core = .reference →
      let e := (cmpStep p env thr ratio cteA cteR m).1
      let m' := (cmpStep p env thr ratio cteA cteR m).2
      let exponent := fSub (fDiv fOne ratio) fOne
      (thr = fZero → fLt fZero e = true → fLt exponent fZero = true → fIsFinite m = true → fSign m = false →
        m' = fZero) ∧
      (thr = fZero → fIsZero e = true → fIsZero exponent = false → fIsNaN m' = true) ∧
      (env = fZero → m = fZero → fIsFinite cteA = true → fIsFinite cteR = true → e = fZero) ∧
      (fIsNaN m = true ∨ fIsNaN env = true → fIsNaN e = true))

/-- CMP.SETTHR writes one threshold and CMP.SETRATIO the ratio of every instance (operand wiring: log 12). Rules R147
and R149; the operand registers are the model's (log 12). -/
def Obligations.CompressorThresholdAndRatioWrites : Prop :=
  ∀ s : State,
    (1 ≤ s.rt.b.toNat → s.rt.b.toNat ≤ s.liveSlot.W / 2 →
      ∃ t : State, exec .cmpSetThr s = .next t ∧
        LiveBecomes s { s.liveSlot with thr := s.liveSlot.thr.set (s.rt.b.toNat - 1) s.op.t } t) ∧
    (s.liveSlot.ratio.length = s.liveSlot.W / 2 →
      ∃ t : State, exec .cmpSetRatio s = .next t ∧
        LiveBecomes s { s.liveSlot with ratio := List.replicate (s.liveSlot.W / 2) s.op.ratio } t)

/-- CMP.SETTIME turns attack and release times into every instance's coefficients (operands: log 12; K = 0: log 16).
Rule R148: 0x3A83126F is 0.001 and 0xC5C4597C is -6283.1855. The operand registers are the model's (log 12), and so is
the free interval of K = 0 (log 16). -/
def Obligations.CompressorTimesBecomeCoefficients : Prop :=
  ∀ s : State, s.liveSlot.cteA.length = s.liveSlot.W / 2 → s.liveSlot.cteR.length = s.liveSlot.W / 2 →
    let rate := fDiv s.latch.sampleRate (fOfNat s.liveSlot.interval)
    (∃ t : State, exec .cmpSetTime s = .next t ∧
      LiveBecomes s
        { s.liveSlot with
          cteA := List.replicate (s.liveSlot.W / 2) (cmpCte s.params s.op.attackMs rate)
          cteR := List.replicate (s.liveSlot.W / 2) (cmpCte s.params s.op.releaseMs rate) } t) ∧
    (s.params.core = .reference → ∀ time : F32, cmpCte s.params time rate =
      if fLt time 0x3A83126F#32 then fZero else numExp (fDiv (fDiv 0xC5C4597C#32 rate) time))

/-- AGG.ACC adds one magnitude; AGG.COMMIT makes every threshold the channel average and clears the sums. Rules R162
and R163. -/
def Obligations.AggregatorAveragesIntoThresholds : Prop :=
  ∀ s : State,
    (1 ≤ s.rt.b.toNat → s.rt.b.toNat ≤ s.liveSlot.W / 2 →
      ∃ t : State, exec .aggAcc s = .next t ∧
        LiveBecomes s
          { s.liveSlot with
            acc := s.liveSlot.acc.set (s.rt.b.toNat - 1) (fAdd (elemAt s.liveSlot.acc (s.rt.b.toNat - 1)) s.rt.m) } t) ∧
    (s.liveSlot.thr.length = s.liveSlot.W / 2 → s.liveSlot.acc.length = s.liveSlot.W / 2 →
      ∃ (thr : List F32) (t : State), exec .aggCommit s = .next t ∧
        LiveBecomes s { s.liveSlot with thr := thr, acc := List.replicate (s.liveSlot.W / 2) fZero } t ∧
        thr.length = s.liveSlot.W / 2 ∧
        ∀ j < s.liveSlot.W / 2, elemAt thr j = fDiv (elemAt s.liveSlot.acc j) (fOfNat s.liveSlot.nch))

/-- SC.ANALYZE transforms a channel's last sidechain window, unwindowed, and adds each bin's magnitude. Rule R161;
FFT.FWD is the operation of R175. The counter of free values is the model's (logs 6 and 20). -/
def Obligations.ScAnalyzeAccumulatesSpectrum : Prop :=
  ∀ (s : State) (nch : Nat) (r : Ring), s.liveSlot.Built nch → s.liveSlot.sidr[s.rt.c.toNat]? = some r →
    ∃ (u t : State) (acc : List F32),
      exec .fftFwd (s.setSlot s.live
        { s.liveSlot with scratch := frameOf r s.liveSlot.W s.liveSlot.scratch }) = .next u ∧
      exec .scAnalyze s = .next t ∧
      EngineBecomes s { s.liveSlot with scratch := u.liveSlot.scratch, acc := acc } t ∧ t.fresh = u.fresh ∧
      acc.length = s.liveSlot.W / 2 ∧
      ∀ b, 1 ≤ b → b ≤ s.liveSlot.W / 2 →
        elemAt acc (b - 1) = fAdd (elemAt s.liveSlot.acc (b - 1))
          (fMag (elemAt u.liveSlot.scratch (2 * b)) (elemAt u.liveSlot.scratch (2 * b + 1)))

/-- STFT.EXTRACT copies the whole input ring of a channel into the scratch buffer, oldest sample first. Rule R172. -/
def Obligations.StftExtractTakesTheLastWindow : Prop :=
  ∀ (s : State) (nch : Nat) (r : Ring), s.liveSlot.Built nch → s.liveSlot.inr[s.rt.c.toNat]? = some r →
    ∃ t : State, exec .stftExtract s = .next t ∧
      LiveBecomes s { s.liveSlot with scratch := frameOf r s.liveSlot.W s.liveSlot.scratch } t

/-- STFT.WINA and STFT.WINS multiply the first W scratch elements by the window table. Rules R174 and R178. -/
def Obligations.WindowingMultipliesByTheTable : Prop :=
  ∀ s : State, ∀ i ∈ [Instr.stftWinA, .stftWinS],
    ∃ (x : List F32) (t : State), exec i s = .next t ∧ LiveBecomes s { s.liveSlot with scratch := x } t ∧
      x.length = s.liveSlot.scratch.length ∧
      ∀ n < x.length, elemAt x n =
        if n < s.liveSlot.W then fMul (elemAt s.liveSlot.scratch n) (elemAt s.liveSlot.win n)
        else elemAt s.liveSlot.scratch n

/-- FFT.FWD gives bins 0 to W/2 as one function of W and the W samples, zero bins for a zero frame. Properties FFT_FUN
and FFT_ZERO of R175; the counter of free values is the model's (log 6). -/
def Obligations.FftForwardKeepsItsInterface : Prop :=
  ∃ F : Nat → List F32 → Nat → F32,
    (∀ W x i, (∀ v ∈ x, fIsZero v = true) → fIsZero (F W x i) = true) ∧
    ∀ s : State, ∃ (y : List F32) (t : State), exec .fftFwd s = .next t ∧
      EngineBecomes s { s.liveSlot with scratch := y } t ∧ y.length = 2 * s.liveSlot.W ∧
      ∀ i, i < s.liveSlot.W + 2 → i < 2 * s.liveSlot.W →
        elemAt y i = F s.liveSlot.W (s.liveSlot.scratch.take s.liveSlot.W) i

/-- FFT.INV gives W samples as one function of W and bins 0 to W/2; two imaginary parts do not contribute. Properties
FFT_FUN and FFT_ZERO of R177; the counter of free values is the model's (log 6). -/
def Obligations.FftInverseKeepsItsInterface : Prop :=
  ∃ F : Nat → List F32 → Nat → F32,
    (∀ W x i, (∀ v ∈ x, fIsZero v = true) → fIsZero (F W x i) = true) ∧
    (∀ (W : Nat) (x x' : List F32), x.length = W + 2 → x'.length = W + 2 →
      (∀ i, i ≠ 1 → i ≠ W + 1 → x[i]? = x'[i]?) → F W x = F W x') ∧
    ∀ s : State, ∃ (y : List F32) (t : State), exec .fftInv s = .next t ∧
      EngineBecomes s { s.liveSlot with scratch := y } t ∧ y.length = 2 * s.liveSlot.W ∧
      ∀ i < s.liveSlot.W, elemAt y i = F s.liveSlot.W (s.liveSlot.scratch.take (s.liveSlot.W + 2)) i

/-- BIN.SCALE scales each bin 1 to W/2 by m'/m, or by 1.0 when m is zero, and steps its compressor. Rules R176 and
R183. RT's working registers keep the last bin's values (log 13). -/
def Obligations.BinScaleCompressesEveryBin : Prop :=
  ∀ (s : State) (nch : Nat), s.liveSlot.Built nch → s.rt.c.toNat < nch →
    ∃ (x : List F32) (env : List (List F32)) (t : State), exec .binScale s = .next t ∧
      LiveBecomes { s with rt := t.rt } { s.liveSlot with scratch := x, env := env } t ∧
      (s.liveSlot.W / 2 = 0 → t.rt = s.rt) ∧
      x.length = s.liveSlot.scratch.length ∧ env.length = s.liveSlot.env.length ∧
      (∀ b, 1 ≤ b → b ≤ s.liveSlot.W / 2 → ∀ row : List F32, s.liveSlot.env[b - 1]? = some row →
        let re := elemAt s.liveSlot.scratch (2 * b)
        let im := elemAt s.liveSlot.scratch (2 * b + 1)
        let m := fSqrt (fAdd (fMul re re) (fMul im im))
        let r := cmpStep s.params (elemAt row s.rt.c.toNat) (elemAt s.liveSlot.thr (b - 1))
          (elemAt s.liveSlot.ratio (b - 1)) (elemAt s.liveSlot.cteA (b - 1)) (elemAt s.liveSlot.cteR (b - 1)) m
        let f := if fEq m fZero then fOne else fDiv r.2 m
        elemAt x (2 * b) = fMul re f ∧ elemAt x (2 * b + 1) = fMul im f ∧
          env[b - 1]? = some (row.set s.rt.c.toNat r.1) ∧
          (b = s.liveSlot.W / 2 → t.rt = { s.rt with b := BitVec.ofNat 32 b, m := m, m2 := r.2, s := f })) ∧
      (∀ i, i < 2 ∨ 2 * (s.liveSlot.W / 2) + 2 ≤ i → x[i]? = s.liveSlot.scratch[i]?)

/-- With ratio 1.0 in every instance BIN.SCALE leaves the scratch buffer bit for bit, for finite magnitudes. R176:
with ratio 1.0 the factor is m /f m = 1.0 exactly for every finite non-zero m, and 1.0 for a zero m. -/
def Obligations.RatioOneLeavesTheSpectrum : Prop :=
  ∀ (s : State) (nch : Nat), s.liveSlot.Built nch → s.rt.c.toNat < nch →
    s.liveSlot.ratio = List.replicate (s.liveSlot.W / 2) fOne →
    (∀ b, 1 ≤ b → b ≤ s.liveSlot.W / 2 →
      fIsFinite (fMag (elemAt s.liveSlot.scratch (2 * b)) (elemAt s.liveSlot.scratch (2 * b + 1))) = true) →
    ∃ t : State, exec .binScale s = .next t ∧ t.liveSlot.scratch = s.liveSlot.scratch

/-- STFT.OLA adds GAIN times the frame onto the output ring, frame sample 0 on the next sample to be emitted. Rule
R179. -/
def Obligations.OverlapAddLandsOnTheNextSamples : Prop :=
  ∀ (s : State) (nch : Nat) (r : Ring), s.liveSlot.Built nch → s.liveSlot.outr[s.rt.c.toNat]? = some r →
    ∃ (d : List F32) (t : State), exec .stftOla s = .next t ∧
      LiveBecomes s { s.liveSlot with outr := s.liveSlot.outr.set s.rt.c.toNat { r with data := d } } t ∧
      d.length = s.liveSlot.W ∧
      ∀ i < s.liveSlot.W, elemAt d ((r.rpos + i) % s.liveSlot.W) =
        fAdd (elemAt r.data ((r.rpos + i) % s.liveSlot.W)) (fMul s.gain (elemAt s.liveSlot.scratch i))

/-- STFT.COUNT increments the live slot's window counter, saturating at 2^32 - 1. Rule R180. -/
def Obligations.CounterSaturates : Prop :=
  ∀ s : State, ∃ (n : Word) (t : State), exec .stftCount s = .next t ∧
    LiveBecomes s { s.liveSlot with count := n } t ∧
    n.toNat = min (s.liveSlot.count.toNat + 1) (2 ^ 32 - 1)

/-- STFT.CYCLE is its micro-operations in the order of the rule, and moves no cursor. Rules R170, R171, R160 and R164.
The channel register is 32 bits wide (R21), and so is NCH_L (R40, R55), the channel count of every built slot. RT's
working registers b, m, m2 and s keep the last bin's values (log 13); the counter of free values is the model's (log
6). -/
def Obligations.StftCycleIsItsProgram : Prop :=
  ∀ s : State, s.liveSlot.nch ≤ 2 ^ 32 → ∃ t u : State,
    issueAll (cycleProgram s.liveSlot.nch s.scEff) s = .next t ∧
    exec .stftCycle s = .next u ∧ u = { t with rt := { t.rt with c := s.rt.c } } ∧
    EngineBecomes { s with rt := u.rt } u.liveSlot u ∧
    u.rt = { s.rt with b := u.rt.b, m := u.rt.m, m2 := u.rt.m2, s := u.rt.s } ∧
    u.liveSlot =
      { s.liveSlot with
        scratch := u.liveSlot.scratch, env := u.liveSlot.env, outr := u.liveSlot.outr
        thr := u.liveSlot.thr, acc := u.liveSlot.acc, count := u.liveSlot.count } ∧
    u.liveSlot.outr.map (fun r => (r.cap, r.pos, r.rpos)) = s.liveSlot.outr.map (fun r => (r.cap, r.pos, r.rpos)) ∧
    (s.scEff = false → u.liveSlot.thr = s.liveSlot.thr ∧ u.liveSlot.acc = s.liveSlot.acc) ∧
    u.liveSlot.count.toNat = min (s.liveSlot.count.toNat + 1) (2 ^ 32 - 1)

/-- BYP.CYCLE adds the input of W samples ago onto the next I output samples, and counts a window. Rule R182. -/
def Obligations.BypassCycleCopiesDelayedInput : Prop :=
  ∀ (s : State) (nch : Nat), s.liveSlot.Built nch → 0 < s.liveSlot.K →
    let W := s.liveSlot.W
    let I := s.liveSlot.W / s.liveSlot.K
    ∃ (last : Ring) (outr : List Ring) (n : Word) (t : State), exec .bypCycle s = .next t ∧
      s.liveSlot.inr[nch - 1]? = some last ∧
      LiveBecomes s
        { s.liveSlot with scratch := frameOf last W s.liveSlot.scratch, outr := outr, count := n } t ∧
      n.toNat = min (s.liveSlot.count.toNat + 1) (2 ^ 32 - 1) ∧ outr.length = nch ∧
      ∀ c < nch, ∃ (ri ro : Ring) (d : List F32),
        s.liveSlot.inr[c]? = some ri ∧ s.liveSlot.outr[c]? = some ro ∧ outr[c]? = some { ro with data := d } ∧
        d.length = W ∧
        (∀ i < I, elemAt d ((ro.rpos + i) % W) =
          fAdd (elemAt ro.data ((ro.rpos + i) % W)) (fMul fOne (elemAt ri.data ((ri.pos + i) % W)))) ∧
        (∀ j < W, (∀ i < I, (ro.rpos + i) % W ≠ j) → elemAt d j = elemAt ro.data j)

/-- SCHED.ALIGN computes how many samples complete the ring's alignment to the next interval. Rule R196. -/
def Obligations.AlignmentReachesTheNextInterval : Prop :=
  ∀ (s : State) (r : Ring), s.liveSlot.inr[0]? = some r → 0 < s.liveSlot.K → s.liveSlot.K ≤ s.liveSlot.W →
    let I := s.liveSlot.W / s.liveSlot.K
    ∃ t : State, exec .schedAlign s = .next t ∧ (∀ a, t.byteAt a = s.byteAt a) ∧
      t = { s with rt := { s.rt with a := BitVec.ofNat 32 (min s.rt.M.toNat ((I - r.pos % I) % I)) } } ∧
      t.rt.a.toNat = min s.rt.M.toNat ((I - r.pos % I) % I) ∧ t.rt.a.toNat < I ∧ t.rt.a.toNat ≤ s.rt.M.toNat

/-- SCHED.IOSTEP writes the input rings, drains the output rings, and emits real output once count reaches K. Rule
R194. -/
def Obligations.IoStepWritesInputAndDrainsOutput : Prop :=
  ∀ (s : State) (nch : Nat), s.liveSlot.Built nch → s.rt.n.toNat ≤ s.liveSlot.W →
    let off := s.rt.off.toNat
    let n := s.rt.n.toNat
    ∃ (inr sidr outr : List Ring) (t : State), exec .schedIoStep s = .next t ∧
      t = { s.setSlot s.live { s.liveSlot with inr := inr, sidr := sidr, outr := outr } with mem := t.mem } ∧
      inr.length = nch ∧ sidr.length = nch ∧ outr.length = nch ∧ (s.scEff = false → sidr = s.liveSlot.sidr) ∧
      (∀ c < nch, ∃ ri rs ro : Ring,
        s.liveSlot.inr[c]? = some ri ∧ s.liveSlot.sidr[c]? = some rs ∧ s.liveSlot.outr[c]? = some ro ∧
        inr[c]? = some (ri.write (s.samples .input c off n) n) ∧
        (s.scEff = true → sidr[c]? = some (rs.write (s.samples .sidechain c off n) n)) ∧
        outr[c]? = some (ro.drain n true) ∧
        ∀ i < n, sampleExists s.params c (off + i) = true → t.sample .output c (off + i) =
          if s.liveSlot.K ≤ s.liveSlot.count.toNat then elemAt ro.data ((ro.rpos + i) % s.liveSlot.W) else fZero) ∧
      (∀ a, (∀ c < nch, ¬ InSamples s.params .output c off n a) → t.byteAt a = s.byteAt a)

/-- SCHED.ZFILL writes 0.0 to the first M samples of every output channel from nch up, and nothing else. Rule R193. -/
def Obligations.SurplusChannelsAreZeroFilled : Prop :=
  ∀ s : State, ∃ t : State, exec .schedZfill s = .next t ∧ t = { s with mem := t.mem } ∧
    (∀ c i, s.liveSlot.nch ≤ c → i < s.rt.M.toNat → sampleExists s.params c i = true → t.sample .output c i = fZero) ∧
    (∀ a, (∀ c, s.liveSlot.nch ≤ c → ¬ InSamples s.params .output c 0 s.rt.M.toNat a) → t.byteAt a = s.byteAt a)

/-- SCHED.CHECK does nothing when off equals M, and otherwise raises Assert and enters FATAL. Rules R198 and R273.
HOST writes made during the block that RT has not seen reach the memory here (log 11); RT is at rest (log 28). -/
def Obligations.CheckRaisesAssertOnlyOnMismatch : Prop :=
  ∀ s : State,
    (s.rt.off = s.rt.M → exec .schedCheck s = .next s) ∧
    (s.rt.off ≠ s.rt.M → ∃ t : State, exec .schedCheck s = .next t ∧
      t = { s with
            err := ⟨s.err.causes ||| 0x02#8, 2#8⟩
            runState := .fatal
            rtBusy := false
            rt := { s.rt with pc := .idle }
            mem := flushDeferred s.deferred s.mem
            deferred := [] } ∧
      (s.deferred = [] → ∀ a, t.byteAt a = s.byteAt a))

/-- SET.FLAGCAS returns the settings flag and leaves it clear. Rule R217. -/
def Obligations.FlagExchangeConsumesOnce : Prop :=
  ∀ s : State,
    (s.settingsChanged = true → ∃ t : State, exec .setFlagCas s = .next t ∧ (∀ a, t.byteAt a = s.byteAt a) ∧
      t = { s with settingsChanged := false, rt := { s.rt with changed := true } }) ∧
    (s.settingsChanged = false → ∃ t : State, exec .setFlagCas s = .next t ∧ (∀ a, t.byteAt a = s.byteAt a) ∧
      t = { s with rt := { s.rt with changed := false } })

/-- SET.UPDATE copies K, writes every ratio and coefficient, the curve unless sidechain-driven, and GAIN. Rules R210,
R211, R213 and R215. The operand forced: log 12; K = 0: log 16. -/
def Obligations.SettingsUpdateRecomputesInPlace : Prop :=
  ∀ s : State, s.liveSlot.thr.length = s.liveSlot.W / 2 → s.liveSlot.ratio.length = s.liveSlot.W / 2 →
    s.liveSlot.cteA.length = s.liveSlot.W / 2 → s.liveSlot.cteR.length = s.liveSlot.W / 2 →
    let B := s.liveSlot.W / 2
    let K := s.csr.overlapFactor.toNat
    let rate := fDiv s.latch.sampleRate (fOfNat (interval s.liveSlot.W K))
    let binHz := fDiv s.latch.sampleRate (fOfNat s.liveSlot.W)
    ∃ t : State, exec .setUpdate s = .next t ∧ (∀ a, t.byteAt a = s.byteAt a) ∧
      t = { s.setSlot s.live
              { s.liveSlot with
                K := K
                ratio := List.replicate B s.csr.ratio
                cteA := List.replicate B (cmpCte s.params s.csr.attackMs rate)
                cteR := List.replicate B (cmpCte s.params s.csr.releaseMs rate)
                thr :=
                  if s.scEff = false ∨ s.op.forced = true then
                    (List.range B).map fun j => db2lin s.params (curveDecibels s.csr.baseThreshold binHz (j + 1))
                  else s.liveSlot.thr } with
            gain := makeupGain K s.csr.ratio (s.csr.autoMakeup.getLsbD 0) s.scEff }

/-- THR.CURVE writes every bin's threshold by the fixed formula, converted from decibels. Rule R212: the constants are
2.0, 3.0, 10.0 and 20.0. -/
def Obligations.ThresholdCurveFallsThreeDecibelsPerOctave : Prop :=
  ∀ s : State, s.liveSlot.thr.length = s.liveSlot.W / 2 →
    ∃ (x : List F32) (t : State), exec .thrCurve s = .next t ∧ LiveBecomes s { s.liveSlot with thr := x } t ∧
      x.length = s.liveSlot.W / 2 ∧
      ∀ b, 1 ≤ b → b ≤ s.liveSlot.W / 2 →
        let binHz := fDiv s.latch.sampleRate (fOfNat s.liveSlot.W)
        let oct := numLog2 (fAdd (fMul (fOfNat b) binHz) 0x40000000#32)
        let tdb := fSub (fAdd s.csr.baseThreshold 0x40400000#32) (fMul 0x40400000#32 oct)
        elemAt x (b - 1) = db2lin s.params tdb ∧
        (s.params.db2lin = .reference →
          elemAt x (b - 1) = numPow 0x41200000#32 (fDiv tdb 0x41A00000#32))

/-- GAIN.UPDATE sets GAIN to 1/K, times the automatic factor of the mode when it is enabled. Rule R214: the constants
are 24, 25, 100, 200 and 399. -/
def Obligations.GainUpdateComputesMakeupGain : Prop :=
  ∀ s : State,
    let r := s.csr.ratio
    let g := fDiv fOne (fOfNat s.liveSlot.K)
    ∃ t : State, exec .gainUpdate s = .next t ∧ (∀ a, t.byteAt a = s.byteAt a) ∧
      t = { s with gain :=
              if s.csr.autoMakeup = 1#1 then
                if s.scEff then fMul g (fDiv (fAdd r 0x41C00000#32) 0x41C80000#32)
                else fMul g (fSub (fMul (numLog10 (fMul r 0x42C80000#32)) 0x43480000#32) 0x43C78000#32)
              else g }

/-- RT's six register reads with no HOST write between them make exactly the settings update (log 2). Rules R210, R86
and R313; the six steps are the model's granularity (log 2). -/
def Obligations.SteppedUpdateEqualsAtomicUpdate : Prop :=
  ∀ s : State, s.rt.pc = .updOverlap → (s.rt.changed = true ∨ s.rt.swapped = true) →
    ∃ t : State, exec .setUpdate { s with op := { s.op with forced := s.rt.swapped } } = .next t ∧
      s.rtSteps 6 =
        { t with
          rt := { s.rt with pc := .zfill }
          op := { s.op with ratio := s.csr.ratio, attackMs := s.csr.attackMs, releaseMs := s.csr.releaseMs } }

/-- CFG.CLAIM clears the pending flag, latches order and overlap, clears READY and targets the spare slot. Rule R232. -/
def Obligations.ClaimWithdrawsAndTakesTheSpare : Prop :=
  ∀ s : State, ∃ t : State, exec .cfgClaim s = .next t ∧ (∀ a, t.byteAt a = s.byteAt a) ∧
    t = { s with
          windowPending := false
          ready := false
          bg := { s.bg with
                  ordL := s.csr.windowOrder
                  kL := s.csr.overlapFactor
                  target := if s.live = .s0 then .s1 else .s0 } }

/-- CFG.STAGE replaces the target slot by a freshly built one of the latched order, overlap and channel count. Rule
R233, with R46 for the window table. The settings of the bank hold no value there; 0.0 is the model's (log 14). -/
def Obligations.StageBuildsTheTarget : Prop :=
  ∀ s : State,
    let W := 2 ^ s.bg.ordL.toNat
    let nch := s.latch.nch.toNat
    let ring : Ring := ⟨W, List.replicate W fZero, 0, 0⟩
    let zeros := List.replicate (W / 2) fZero
    ∃ t : State, exec .cfgStage s = .next t ∧ (∀ a, t.byteAt a = s.byteAt a) ∧
      t = s.setSlot s.bg.target
        { status := .built, W := W, K := s.bg.kL.toNat, nch := nch
          win := (List.range W).map (winCoefficient s.params W)
          scratch := List.replicate (2 * W) fZero
          inr := List.replicate nch ring, sidr := List.replicate nch ring, outr := List.replicate nch ring
          thr := zeros, ratio := zeros, cteA := zeros, cteR := zeros
          env := List.replicate (W / 2) (List.replicate nch fZero)
          acc := zeros
          count := 0#32 } ∧
      (s.params.win = .reference → 0 < W ∧ elemAt (t.slot s.bg.target).win 0 = 0x00000000#32)

/-- CFG.PUBLISH sets READY; CFG.FETCH swaps exactly when READY is 1 and retires the old slot. Rules R234 and R235. -/
def Obligations.PublishMarksReadyAndFetchSwaps : Prop :=
  ∀ s : State,
    (∃ t : State, exec .cfgPublish s = .next t ∧ (∀ a, t.byteAt a = s.byteAt a) ∧ t = { s with ready := true }) ∧
    (s.ready = true → ∃ t : State, exec .cfgFetch s = .next t ∧ (∀ a, t.byteAt a = s.byteAt a) ∧
      t = { s.setSlot s.live { s.liveSlot with status := .retired } with
            live := if s.live = .s0 then .s1 else .s0
            ready := false
            rt := { s.rt with swapped := true } } ∧
      t.liveSlot = s.spareSlot) ∧
    (s.ready = false → ∃ t : State, exec .cfgFetch s = .next t ∧ (∀ a, t.byteAt a = s.byteAt a) ∧
      t = { s with rt := { s.rt with swapped := false } })

/-- CFG.RETIRE, where BG may take it, makes the retired spare slot EMPTY and changes nothing else. Rule R236, enabled
as R231 says. -/
def Obligations.RetireEmptiesTheSpare : Prop :=
  ∀ s : State, s.bg.pc = .idle → ¬ (s.windowPending = true ∧ s.runState = .prepared) →
    s.spareSlot.status = .retired → s.ready = false →
    ∃ t : State, exec .cfgRetire s = .next t ∧ (∀ a, t.byteAt a = s.byteAt a) ∧
      t = s.setSlot s.live.other { s.spareSlot with status := .empty }

/-- Three BG steps after a notification, the next fetch makes a slot of the notified window order live. Rules R231,
R233, R237 and R239. The bank's settings of 0.0 in a slot just built are the model's choice (log 14). -/
def Obligations.RebuildGoesLiveAtTheNextFetch : Prop :=
  ∀ s : State, s.Sound → s.runState = .prepared → s.bg.pc = .idle → s.windowPending = true →
    let u := s.bgStep.bgStep.bgStep
    u.ready = true ∧ u.bg.pc = .idle ∧ u.windowPending = false ∧ u.liveSlot = s.liveSlot ∧ u.live = s.live ∧
    u.latencyWord = s.latencyWord ∧ u.gain = s.gain ∧ u.scEff = s.scEff ∧ u.rt = s.rt ∧
    (∀ a, u.byteAt a = s.byteAt a) ∧
    ∃ t : State, exec .cfgFetch u = .next t ∧ t.live = s.live.other ∧
      t.liveSlot = Slot.build s.params (2 ^ s.csr.windowOrder.toNat) s.csr.overlapFactor.toNat s.latch.nch.toNat ∧
      t.latencyWord = BitVec.ofNat 32 (2 ^ s.csr.windowOrder.toNat) ∧ t.spareSlot.status = .retired

/-- Every step of HOST, RT, BG and reset keeps the state sound. The invariants of R26, R49, R53, R57 and R195 as one
(Sys2Proof/Safety.lean); the canonical memory is the model's (log 10). -/
def Obligations.EveryStepKeepsSoundness : Prop :=
  ∀ s t : State, s.Sound → step s = .next t → t.Sound

/-- The state after reset is sound, in range and with no block running; the external reset gives a sound state. Rules
R58, R300 and R10. -/
def Obligations.ResetMeetsEveryInvariant : Prop :=
  State.reset.Sound ∧ State.reset.Ranged ∧ State.reset.Consumed ∧
    ∀ s : State, s.agenda.all Event.isHardware = true → s.applyReset.Sound

/-- RT never writes the spare slot but to retire the slot it leaves; BG never writes the live slot or a published one.
Rules R57 and R238. -/
def Obligations.AgentsKeepToTheirOwnSlot : Prop :=
  ∀ s : State, s.Sound →
    ((s.rtStep.live = s.live ∧ s.rtStep.spareSlot = s.spareSlot) ∨
      (s.rt.pc = .fetch ∧ s.ready = true ∧ s.rtStep.live = s.live.other ∧ s.rtStep.liveSlot = s.spareSlot ∧
        s.rtStep.spareSlot = { s.liveSlot with status := .retired })) ∧
    (s.bgStep.live = s.live ∧ s.bgStep.liveSlot = s.liveSlot ∧ s.bgStep.gain = s.gain ∧
      s.bgStep.scEff = s.scEff ∧ (∀ a, s.bgStep.byteAt a = s.byteAt a) ∧
      (s.ready = true → s.bgStep.spareSlot = s.spareSlot))

/-- In FATAL no step but the external reset changes RUN_STATE or clears the ASSERT bit. Rules R291, R44 and R300. -/
def Obligations.OnlyResetLeavesFatal : Prop :=
  ∀ s t : State, s.runState = .fatal → s.err.causes.getLsbD 1 = true → s.agenda.head? ≠ some .reset →
    step s = .next t → t.runState = .fatal ∧ t.err.causes.getLsbD 1 = true

/-- With parameters in their declared ranges no step raises Assert: every block consumes exactly its samples. Rule
R198: in this hardware the condition cannot fail; the ranges are those of R10. -/
def Obligations.NoRunRaisesAssert : Prop :=
  ∀ s t : State, s.Sound → s.Ranged → s.Consumed → step s = .next t →
    t.Sound ∧ t.Ranged ∧ t.Consumed ∧ (s.runState ≠ .fatal → t.runState ≠ .fatal)

/-- An accepted block command, left to RT, ends with RT_BUSY 0, all M samples moved, nwin cycles counted and no error.
Rules R190 and R199, with R195 to R198 and R180. That `k` ends at nwin is the model's choice (log 13), no rule's. -/
def Obligations.AcceptedBlockCompletes : Prop :=
  ∀ (s : State) (M : Nat) (i : Instr), (i = .process M ∨ i = .processBypassed M) → s.Sound → s.Ranged →
    s.rtBusy = false → s.runState = .prepared → M ≤ s.latch.maxBlock.toNat →
    let S := if s.ready then s.spareSlot else s.liveSlot
    let K := if s.ready = true ∨ s.settingsChanged = true then s.csr.overlapFactor.toNat else S.K
    let I := S.W / K
    let a := min M ((I - S.cursor % I) % I)
    let nwin := (M - a + I - 1) / I
    ∃ (u : State) (k : Nat), exec i s = .next u ∧
      let t := u.rtSteps k
      t.rtBusy = false ∧ t.rt.pc = .idle ∧ t.runState = .prepared ∧ t.err = s.err ∧
      t.rt.off.toNat = M ∧ t.rt.a.toNat = a ∧ t.rt.nwin.toNat = nwin ∧ t.rt.k.toNat = nwin ∧
      t.ready = false ∧ t.live = (if s.ready then s.live.other else s.live) ∧
      t.liveSlot.W = S.W ∧ t.liveSlot.K = K ∧ t.liveSlot.cursor = (S.cursor + M) % S.W ∧
      t.liveSlot.count.toNat = min (S.count.toNat + nwin) (2 ^ 32 - 1)

/-- What LATENCY reads changes only at a fetch that swaps, at PREPARE or RELEASE, or at reset. Rules R239 and R42. -/
def Obligations.LatencyChangesOnlyAtTheSwapOrACommand : Prop :=
  ∀ s t : State, s.Sound → step s = .next t →
    t.latencyWord = s.latencyWord ∨
    ((s.agenda.head? = some .rt ∨ (s.agenda = [] ∧ s.rtBusy = true)) ∧ s.rt.pc = .fetch ∧ s.ready = true ∧
      t.live = s.live.other ∧ t.latencyWord = BitVec.ofNat 32 s.spareSlot.W) ∨
    (∃ w : Word, s.agenda.head? = some (.hostWrite 0x00000008#32 4 w) ∧
      (decode w = .ok .prepare ∨ decode w = .ok .release)) ∨
    s.agenda.head? = some .reset

/-- STATUS reads as its fields, each at its place, and 0 above bit 14. Rule R43, with R26 for the swapper's fields. -/
def Obligations.StatusWordShowsItsFields : Prop :=
  ∀ s : State,
    let slotStatus : SlotStatus → Nat := fun x => match x with
      | .empty => 0
      | .built => 1
      | .retired => 2
    s.statusWord.toNat =
      (match s.runState with
        | .unprepared => 0
        | .prepared => 1
        | .fatal => 2) + 4 * s.rtBusy.toNat
      + 8 * (if s.bg.pc = .idle then 0 else 1) + 16 * s.settingsChanged.toNat + 32 * s.windowPending.toNat
      + 64 * (if s.live = .s0 then 0 else 1) + 128 * s.ready.toNat
      + 256 * (if s.bg.pc = .idle then 2 * s.ready.toNat else 1) + 1024 * s.scEff.toNat
      + 2048 * slotStatus s.slot0.status + 8192 * slotStatus s.slot1.status

/-- A legal HOST read returns the register or sample and changes no state. Rules R76, R29, R42 and R44, with the
STATUS word of R43 as the statement on it gives it. What was read is kept in the model's own field (log 20). -/
def Obligations.HostReadsChangeNothing : Prop :=
  ∀ s : State,
    s.hostRead 0x00#32 4 = { s with hostData := 0x53435354#32 } ∧
    s.hostRead 0x04#32 4 = { s with hostData := 0x00010000#32 } ∧
    s.hostRead 0x08#32 4 = { s with hostData := 0#32 } ∧
    s.hostRead 0x0C#32 4 = { s with hostData := s.statusWord } ∧
    s.hostRead 0x10#32 4 =
      { s with hostData := BitVec.ofNat 32 (s.err.causes.toNat + 256 * s.err.lastCode.toNat) } ∧
    s.hostRead 0x14#32 4 =
      { s with hostData := if s.runState = .unprepared then 0#32 else BitVec.ofNat 32 s.liveSlot.W } ∧
    s.hostRead 0x18#32 4 =
      { s with hostData := if s.runState = .unprepared then 0#32 else s.liveSlot.count } ∧
    s.hostRead 0x1C#32 4 = { s with hostData := s.gain } ∧
    s.hostRead 0x20#32 4 = { s with hostData := s.csr.sampleRate } ∧
    s.hostRead 0x24#32 4 = { s with hostData := s.csr.maxBlock } ∧
    s.hostRead 0x28#32 4 = { s with hostData := s.csr.numCh } ∧
    s.hostRead 0x2C#32 4 = { s with hostData := s.csr.scNumCh } ∧
    s.hostRead 0x30#32 4 = { s with hostData := BitVec.ofNat 32 s.csr.sidechainActive.toNat } ∧
    s.hostRead 0x34#32 4 = { s with hostData := s.csr.ratio } ∧
    s.hostRead 0x38#32 4 = { s with hostData := s.csr.attackMs } ∧
    s.hostRead 0x3C#32 4 = { s with hostData := s.csr.releaseMs } ∧
    s.hostRead 0x40#32 4 = { s with hostData := BitVec.ofNat 32 s.csr.autoMakeup.toNat } ∧
    s.hostRead 0x44#32 4 = { s with hostData := BitVec.ofNat 32 s.csr.windowOrder.toNat } ∧
    s.hostRead 0x48#32 4 = { s with hostData := BitVec.ofNat 32 s.csr.overlapFactor.toNat } ∧
    s.hostRead 0x4C#32 4 = { s with hostData := s.csr.baseThreshold } ∧
    (∀ a : Word, 0x50 ≤ a.toNat → a.toNat < 0x100 → a.toNat % 4 = 0 →
      s.hostRead a 4 = { s with hostData := 0#32 }) ∧
    (∀ (g : Region) (c i : Nat), sampleExists s.params c i = true → sampleAddr s.params g c i < 2 ^ 32 →
      s.rtBusy = false →
      s.hostRead (BitVec.ofNat 32 (sampleAddr s.params g c i)) 4 = { s with hostData := s.sample g c i })

/-- An access of a wrong width, misaligned or unmapped records Bus, and has no other effect. Rules R74, R75 and R280,
with R71 for the reserved offsets; a width is in bytes, as in R17. -/
def Obligations.BadAccessOnlyRecordsBus : Prop :=
  ∀ (s : State) (a : Word) (width : Nat) (v : Word),
    (width ≠ 4 ∨ a.toNat % 4 ≠ 0 ∨ (0x100 ≤ a.toNat ∧
      (a.toNat < 0x10000 ∨ 0x10000 + 3 * (4 * s.params.maxCh * s.params.maxBlock) ≤ a.toNat)) →
      hostWrite a width v s = .next { s with err := ⟨s.err.causes ||| 0x80#8, 8#8⟩ } ∧
      s.hostRead a width = { s with err := ⟨s.err.causes ||| 0x80#8, 8#8⟩, hostData := 0#32 }) ∧
    (0x50 ≤ a.toNat → a.toNat < 0x100 → a.toNat % 4 = 0 → hostWrite a 4 v s = .next s)

/-- A write of a parameter register only stores its bits, of a read-only register nothing, of ERR clears what it may.
Rules R76, R310, R29 and R44. -/
def Obligations.RegisterWritesOnlyStore : Prop :=
  ∀ (s : State) (v : Word),
    hostWrite 0x20#32 4 v s = .next { s with csr := { s.csr with sampleRate := v } } ∧
    hostWrite 0x24#32 4 v s = .next { s with csr := { s.csr with maxBlock := v } } ∧
    hostWrite 0x28#32 4 v s = .next { s with csr := { s.csr with numCh := v } } ∧
    hostWrite 0x2C#32 4 v s = .next { s with csr := { s.csr with scNumCh := v } } ∧
    hostWrite 0x30#32 4 v s = .next { s with csr := { s.csr with sidechainActive := BitVec.ofBool (v.getLsbD 0) } } ∧
    hostWrite 0x34#32 4 v s = .next { s with csr := { s.csr with ratio := v } } ∧
    hostWrite 0x38#32 4 v s = .next { s with csr := { s.csr with attackMs := v } } ∧
    hostWrite 0x3C#32 4 v s = .next { s with csr := { s.csr with releaseMs := v } } ∧
    hostWrite 0x40#32 4 v s = .next { s with csr := { s.csr with autoMakeup := BitVec.ofBool (v.getLsbD 0) } } ∧
    hostWrite 0x44#32 4 v s = .next { s with csr := { s.csr with windowOrder := BitVec.ofNat 4 v.toNat } } ∧
    hostWrite 0x48#32 4 v s = .next { s with csr := { s.csr with overlapFactor := BitVec.ofNat 7 v.toNat } } ∧
    hostWrite 0x4C#32 4 v s = .next { s with csr := { s.csr with baseThreshold := v } } ∧
    (∀ a ∈ [0x00#32, 0x04#32, 0x0C#32, 0x14#32, 0x18#32, 0x1C#32], hostWrite a 4 v s = .next s) ∧
    ∃ e : BitVec 8, hostWrite 0x10#32 4 v s = .next { s with err := ⟨e, s.err.lastCode⟩ } ∧
      ∀ i < 8, e.getLsbD i = (s.err.causes.getLsbD i && (!v.getLsbD i || decide (i = 1)))

/-- A block sample HOST writes while RT is idle reads back, and every other sample is unchanged. Rules R54 and R72;
the list of unseen writes is the model's (log 11). -/
def Obligations.BlockMemoryKeepsWhatHostWrites : Prop :=
  ∀ (s : State) (g : Region) (c i : Nat) (v : Word), s.rtBusy = false →
    sampleExists s.params c i = true → sampleAddr s.params g c i < 2 ^ 32 →
    ∃ t : State, hostWrite (BitVec.ofNat 32 (sampleAddr s.params g c i)) 4 v s = .next t ∧
      t = { s with mem := t.mem, deferred := t.deferred } ∧ t.sample g c i = v ∧
      ∀ a, (a < sampleAddr s.params g c i ∨ sampleAddr s.params g c i + 4 ≤ a) → t.byteAt a = s.byteAt a

/-- After the external reset every piece of state has the value of the reset table. Rule R58. -/
def Obligations.ResetGivesTheSpecsValues : Prop :=
  ∀ s : State, ∃ r : State, perform .reset s = .next r ∧ ∀ t ∈ [r, State.reset],
    t.readReg .id = 0x53435354#32 ∧ t.readReg .version = 0x00010000#32 ∧
    t.runState = .unprepared ∧ t.rt.pc = .idle ∧ t.bg.pc = .idle ∧ t.rtBusy = false ∧
    t.settingsChanged = false ∧ t.windowPending = false ∧ t.live = .s0 ∧ t.ready = false ∧
    t.bg.target = .s0 ∧ t.bg.ordL = 0#4 ∧ t.bg.kL = 0#7 ∧ t.gain = 0#32 ∧ t.scEff = false ∧
    t.err = ⟨0#8, 0#8⟩ ∧ t.csr.sampleRate = 0#32 ∧ t.csr.maxBlock = 0#32 ∧ t.csr.numCh = 0#32 ∧
    t.csr.scNumCh = 0#32 ∧ t.csr.sidechainActive = 0#1 ∧ t.csr.autoMakeup = 0#1 ∧
    t.csr.ratio = 0x3F800000#32 ∧ t.csr.attackMs = 0#32 ∧ t.csr.releaseMs = 0#32 ∧
    t.csr.baseThreshold = 0#32 ∧ t.csr.windowOrder = 12#4 ∧ t.csr.overlapFactor = 4#7 ∧
    t.latch = ⟨0#32, 0#32, 0#32, false⟩ ∧ t.slot0.status = .empty ∧ t.slot1.status = .empty

end
end

