-- ==== Sys2Proof/Laws/Bus.lean ====
section
/-! SUPPORT. What the register map and the decoder of CMD answer (spec R29, R70, R75, R101). -/

namespace Sys2Proof

/-- A command word decodes to a row of R103. -/
theorem decodeCommand_eq_some {w : Word} {i : Instr} (h : decodeCommand w = some i) :
    i.isCommand = true ∧ decode w = .ok i := by
  unfold decodeCommand at h
  split at h
  · rename_i j hj
    split_ifs at h with hc
    cases h
    exact ⟨hc, hj⟩
  · cases h

namespace Machine

/-- A register stands at its own offset. -/
theorem targetAt_register {p : Params} {a : Nat} {r : HostReg} (h : targetAt p a = .register r) : r.offset = a := by
  unfold targetAt at h
  split_ifs at h
  split at h
  · rename_i r' hf
    cases h
    simpa using List.find?_some hf
  · cases h

/-- The register at a register's offset. -/
theorem targetAt_offset (p : Params) (r : HostReg) : targetAt p r.offset = .register r := by
  cases r <;> rfl

/-- An access that the bus accepts is a word at a multiple of 4 (R74). -/
theorem accessOk_iff {addr : Word} {width : Nat} : accessOk addr width = true ↔ width = 4 ∧ addr.toNat % 4 = 0 := by
  simp [accessOk]

end Machine

end Sys2Proof
end

