-- ==== Sys2Proof/Laws/State.lean ====
section
/-! SUPPORT. The small lemmas of State: one per field per named update, so that no later proof unfolds a record update. -/

namespace Sys2Proof.Machine

/-! ## setSlot -/

@[simp] theorem State.setSlot_params (i : SlotIx) (v : Slot) (s : State) : (s.setSlot i v).params = s.params := rfl
@[simp] theorem State.setSlot_csr (i : SlotIx) (v : Slot) (s : State) : (s.setSlot i v).csr = s.csr := rfl
@[simp] theorem State.setSlot_err (i : SlotIx) (v : Slot) (s : State) : (s.setSlot i v).err = s.err := rfl
@[simp] theorem State.setSlot_runState (i : SlotIx) (v : Slot) (s : State) : (s.setSlot i v).runState = s.runState := rfl
@[simp] theorem State.setSlot_rtBusy (i : SlotIx) (v : Slot) (s : State) : (s.setSlot i v).rtBusy = s.rtBusy := rfl
@[simp] theorem State.setSlot_settingsChanged (i : SlotIx) (v : Slot) (s : State) : (s.setSlot i v).settingsChanged = s.settingsChanged := rfl
@[simp] theorem State.setSlot_windowPending (i : SlotIx) (v : Slot) (s : State) : (s.setSlot i v).windowPending = s.windowPending := rfl
@[simp] theorem State.setSlot_live (i : SlotIx) (v : Slot) (s : State) : (s.setSlot i v).live = s.live := rfl
@[simp] theorem State.setSlot_ready (i : SlotIx) (v : Slot) (s : State) : (s.setSlot i v).ready = s.ready := rfl
@[simp] theorem State.setSlot_bg (i : SlotIx) (v : Slot) (s : State) : (s.setSlot i v).bg = s.bg := rfl
@[simp] theorem State.setSlot_gain (i : SlotIx) (v : Slot) (s : State) : (s.setSlot i v).gain = s.gain := rfl
@[simp] theorem State.setSlot_scEff (i : SlotIx) (v : Slot) (s : State) : (s.setSlot i v).scEff = s.scEff := rfl
@[simp] theorem State.setSlot_latch (i : SlotIx) (v : Slot) (s : State) : (s.setSlot i v).latch = s.latch := rfl
@[simp] theorem State.setSlot_slot0 (i : SlotIx) (v : Slot) (s : State) :
    (s.setSlot i v).slot0 = if i = .s0 then v else s.slot0 := rfl
@[simp] theorem State.setSlot_slot1 (i : SlotIx) (v : Slot) (s : State) :
    (s.setSlot i v).slot1 = if i = .s1 then v else s.slot1 := rfl
@[simp] theorem State.setSlot_mem (i : SlotIx) (v : Slot) (s : State) : (s.setSlot i v).mem = s.mem := rfl
@[simp] theorem State.setSlot_rt (i : SlotIx) (v : Slot) (s : State) : (s.setSlot i v).rt = s.rt := rfl
@[simp] theorem State.setSlot_op (i : SlotIx) (v : Slot) (s : State) : (s.setSlot i v).op = s.op := rfl
@[simp] theorem State.setSlot_hostData (i : SlotIx) (v : Slot) (s : State) : (s.setSlot i v).hostData = s.hostData := rfl
@[simp] theorem State.setSlot_deferred (i : SlotIx) (v : Slot) (s : State) : (s.setSlot i v).deferred = s.deferred := rfl
@[simp] theorem State.setSlot_fresh (i : SlotIx) (v : Slot) (s : State) : (s.setSlot i v).fresh = s.fresh := rfl
@[simp] theorem State.setSlot_epoch (i : SlotIx) (v : Slot) (s : State) : (s.setSlot i v).epoch = s.epoch := rfl
@[simp] theorem State.setSlot_agenda (i : SlotIx) (v : Slot) (s : State) : (s.setSlot i v).agenda = s.agenda := rfl

/-! ## modLive -/

@[simp] theorem State.modLive_params (f : Slot → Slot) (s : State) : (s.modLive f).params = s.params := rfl
@[simp] theorem State.modLive_csr (f : Slot → Slot) (s : State) : (s.modLive f).csr = s.csr := rfl
@[simp] theorem State.modLive_err (f : Slot → Slot) (s : State) : (s.modLive f).err = s.err := rfl
@[simp] theorem State.modLive_runState (f : Slot → Slot) (s : State) : (s.modLive f).runState = s.runState := rfl
@[simp] theorem State.modLive_rtBusy (f : Slot → Slot) (s : State) : (s.modLive f).rtBusy = s.rtBusy := rfl
@[simp] theorem State.modLive_settingsChanged (f : Slot → Slot) (s : State) : (s.modLive f).settingsChanged = s.settingsChanged := rfl
@[simp] theorem State.modLive_windowPending (f : Slot → Slot) (s : State) : (s.modLive f).windowPending = s.windowPending := rfl
@[simp] theorem State.modLive_live (f : Slot → Slot) (s : State) : (s.modLive f).live = s.live := rfl
@[simp] theorem State.modLive_ready (f : Slot → Slot) (s : State) : (s.modLive f).ready = s.ready := rfl
@[simp] theorem State.modLive_bg (f : Slot → Slot) (s : State) : (s.modLive f).bg = s.bg := rfl
@[simp] theorem State.modLive_gain (f : Slot → Slot) (s : State) : (s.modLive f).gain = s.gain := rfl
@[simp] theorem State.modLive_scEff (f : Slot → Slot) (s : State) : (s.modLive f).scEff = s.scEff := rfl
@[simp] theorem State.modLive_latch (f : Slot → Slot) (s : State) : (s.modLive f).latch = s.latch := rfl
@[simp] theorem State.modLive_mem (f : Slot → Slot) (s : State) : (s.modLive f).mem = s.mem := rfl
@[simp] theorem State.modLive_rt (f : Slot → Slot) (s : State) : (s.modLive f).rt = s.rt := rfl
@[simp] theorem State.modLive_op (f : Slot → Slot) (s : State) : (s.modLive f).op = s.op := rfl
@[simp] theorem State.modLive_hostData (f : Slot → Slot) (s : State) : (s.modLive f).hostData = s.hostData := rfl
@[simp] theorem State.modLive_deferred (f : Slot → Slot) (s : State) : (s.modLive f).deferred = s.deferred := rfl
@[simp] theorem State.modLive_fresh (f : Slot → Slot) (s : State) : (s.modLive f).fresh = s.fresh := rfl
@[simp] theorem State.modLive_epoch (f : Slot → Slot) (s : State) : (s.modLive f).epoch = s.epoch := rfl
@[simp] theorem State.modLive_agenda (f : Slot → Slot) (s : State) : (s.modLive f).agenda = s.agenda := rfl

/-! ## modRing -/

@[simp] theorem State.modRing_params (kind : RingKind) (c : Nat) (f : Ring → Ring) (s : State) : (s.modRing kind c f).params = s.params := rfl
@[simp] theorem State.modRing_csr (kind : RingKind) (c : Nat) (f : Ring → Ring) (s : State) : (s.modRing kind c f).csr = s.csr := rfl
@[simp] theorem State.modRing_err (kind : RingKind) (c : Nat) (f : Ring → Ring) (s : State) : (s.modRing kind c f).err = s.err := rfl
@[simp] theorem State.modRing_runState (kind : RingKind) (c : Nat) (f : Ring → Ring) (s : State) : (s.modRing kind c f).runState = s.runState := rfl
@[simp] theorem State.modRing_rtBusy (kind : RingKind) (c : Nat) (f : Ring → Ring) (s : State) : (s.modRing kind c f).rtBusy = s.rtBusy := rfl
@[simp] theorem State.modRing_settingsChanged (kind : RingKind) (c : Nat) (f : Ring → Ring) (s : State) : (s.modRing kind c f).settingsChanged = s.settingsChanged := rfl
@[simp] theorem State.modRing_windowPending (kind : RingKind) (c : Nat) (f : Ring → Ring) (s : State) : (s.modRing kind c f).windowPending = s.windowPending := rfl
@[simp] theorem State.modRing_live (kind : RingKind) (c : Nat) (f : Ring → Ring) (s : State) : (s.modRing kind c f).live = s.live := rfl
@[simp] theorem State.modRing_ready (kind : RingKind) (c : Nat) (f : Ring → Ring) (s : State) : (s.modRing kind c f).ready = s.ready := rfl
@[simp] theorem State.modRing_bg (kind : RingKind) (c : Nat) (f : Ring → Ring) (s : State) : (s.modRing kind c f).bg = s.bg := rfl
@[simp] theorem State.modRing_gain (kind : RingKind) (c : Nat) (f : Ring → Ring) (s : State) : (s.modRing kind c f).gain = s.gain := rfl
@[simp] theorem State.modRing_scEff (kind : RingKind) (c : Nat) (f : Ring → Ring) (s : State) : (s.modRing kind c f).scEff = s.scEff := rfl
@[simp] theorem State.modRing_latch (kind : RingKind) (c : Nat) (f : Ring → Ring) (s : State) : (s.modRing kind c f).latch = s.latch := rfl
@[simp] theorem State.modRing_mem (kind : RingKind) (c : Nat) (f : Ring → Ring) (s : State) : (s.modRing kind c f).mem = s.mem := rfl
@[simp] theorem State.modRing_rt (kind : RingKind) (c : Nat) (f : Ring → Ring) (s : State) : (s.modRing kind c f).rt = s.rt := rfl
@[simp] theorem State.modRing_op (kind : RingKind) (c : Nat) (f : Ring → Ring) (s : State) : (s.modRing kind c f).op = s.op := rfl
@[simp] theorem State.modRing_hostData (kind : RingKind) (c : Nat) (f : Ring → Ring) (s : State) : (s.modRing kind c f).hostData = s.hostData := rfl
@[simp] theorem State.modRing_deferred (kind : RingKind) (c : Nat) (f : Ring → Ring) (s : State) : (s.modRing kind c f).deferred = s.deferred := rfl
@[simp] theorem State.modRing_fresh (kind : RingKind) (c : Nat) (f : Ring → Ring) (s : State) : (s.modRing kind c f).fresh = s.fresh := rfl
@[simp] theorem State.modRing_epoch (kind : RingKind) (c : Nat) (f : Ring → Ring) (s : State) : (s.modRing kind c f).epoch = s.epoch := rfl
@[simp] theorem State.modRing_agenda (kind : RingKind) (c : Nat) (f : Ring → Ring) (s : State) : (s.modRing kind c f).agenda = s.agenda := rfl

/-! ## setSamples -/

@[simp] theorem State.setSamples_params (r : Region) (c off : Nat) (vals : List F32) (s : State) : (s.setSamples r c off vals).params = s.params := rfl
@[simp] theorem State.setSamples_csr (r : Region) (c off : Nat) (vals : List F32) (s : State) : (s.setSamples r c off vals).csr = s.csr := rfl
@[simp] theorem State.setSamples_err (r : Region) (c off : Nat) (vals : List F32) (s : State) : (s.setSamples r c off vals).err = s.err := rfl
@[simp] theorem State.setSamples_runState (r : Region) (c off : Nat) (vals : List F32) (s : State) : (s.setSamples r c off vals).runState = s.runState := rfl
@[simp] theorem State.setSamples_rtBusy (r : Region) (c off : Nat) (vals : List F32) (s : State) : (s.setSamples r c off vals).rtBusy = s.rtBusy := rfl
@[simp] theorem State.setSamples_settingsChanged (r : Region) (c off : Nat) (vals : List F32) (s : State) : (s.setSamples r c off vals).settingsChanged = s.settingsChanged := rfl
@[simp] theorem State.setSamples_windowPending (r : Region) (c off : Nat) (vals : List F32) (s : State) : (s.setSamples r c off vals).windowPending = s.windowPending := rfl
@[simp] theorem State.setSamples_live (r : Region) (c off : Nat) (vals : List F32) (s : State) : (s.setSamples r c off vals).live = s.live := rfl
@[simp] theorem State.setSamples_ready (r : Region) (c off : Nat) (vals : List F32) (s : State) : (s.setSamples r c off vals).ready = s.ready := rfl
@[simp] theorem State.setSamples_bg (r : Region) (c off : Nat) (vals : List F32) (s : State) : (s.setSamples r c off vals).bg = s.bg := rfl
@[simp] theorem State.setSamples_gain (r : Region) (c off : Nat) (vals : List F32) (s : State) : (s.setSamples r c off vals).gain = s.gain := rfl
@[simp] theorem State.setSamples_scEff (r : Region) (c off : Nat) (vals : List F32) (s : State) : (s.setSamples r c off vals).scEff = s.scEff := rfl
@[simp] theorem State.setSamples_latch (r : Region) (c off : Nat) (vals : List F32) (s : State) : (s.setSamples r c off vals).latch = s.latch := rfl
@[simp] theorem State.setSamples_slot0 (r : Region) (c off : Nat) (vals : List F32) (s : State) : (s.setSamples r c off vals).slot0 = s.slot0 := rfl
@[simp] theorem State.setSamples_slot1 (r : Region) (c off : Nat) (vals : List F32) (s : State) : (s.setSamples r c off vals).slot1 = s.slot1 := rfl
@[simp] theorem State.setSamples_mem (r : Region) (c off : Nat) (vals : List F32) (s : State) :
    (s.setSamples r c off vals).mem = storeSamples s.params r c off vals s.mem := rfl
@[simp] theorem State.setSamples_rt (r : Region) (c off : Nat) (vals : List F32) (s : State) : (s.setSamples r c off vals).rt = s.rt := rfl
@[simp] theorem State.setSamples_op (r : Region) (c off : Nat) (vals : List F32) (s : State) : (s.setSamples r c off vals).op = s.op := rfl
@[simp] theorem State.setSamples_hostData (r : Region) (c off : Nat) (vals : List F32) (s : State) : (s.setSamples r c off vals).hostData = s.hostData := rfl
@[simp] theorem State.setSamples_deferred (r : Region) (c off : Nat) (vals : List F32) (s : State) : (s.setSamples r c off vals).deferred = s.deferred := rfl
@[simp] theorem State.setSamples_fresh (r : Region) (c off : Nat) (vals : List F32) (s : State) : (s.setSamples r c off vals).fresh = s.fresh := rfl
@[simp] theorem State.setSamples_epoch (r : Region) (c off : Nat) (vals : List F32) (s : State) : (s.setSamples r c off vals).epoch = s.epoch := rfl
@[simp] theorem State.setSamples_agenda (r : Region) (c off : Nat) (vals : List F32) (s : State) : (s.setSamples r c off vals).agenda = s.agenda := rfl

/-! ## storeHostWord -/

@[simp] theorem State.storeHostWord_params (a : Nat) (v : Word) (s : State) : (s.storeHostWord a v).params = s.params := rfl
@[simp] theorem State.storeHostWord_csr (a : Nat) (v : Word) (s : State) : (s.storeHostWord a v).csr = s.csr := rfl
@[simp] theorem State.storeHostWord_err (a : Nat) (v : Word) (s : State) : (s.storeHostWord a v).err = s.err := rfl
@[simp] theorem State.storeHostWord_runState (a : Nat) (v : Word) (s : State) : (s.storeHostWord a v).runState = s.runState := rfl
@[simp] theorem State.storeHostWord_rtBusy (a : Nat) (v : Word) (s : State) : (s.storeHostWord a v).rtBusy = s.rtBusy := rfl
@[simp] theorem State.storeHostWord_settingsChanged (a : Nat) (v : Word) (s : State) : (s.storeHostWord a v).settingsChanged = s.settingsChanged := rfl
@[simp] theorem State.storeHostWord_windowPending (a : Nat) (v : Word) (s : State) : (s.storeHostWord a v).windowPending = s.windowPending := rfl
@[simp] theorem State.storeHostWord_live (a : Nat) (v : Word) (s : State) : (s.storeHostWord a v).live = s.live := rfl
@[simp] theorem State.storeHostWord_ready (a : Nat) (v : Word) (s : State) : (s.storeHostWord a v).ready = s.ready := rfl
@[simp] theorem State.storeHostWord_bg (a : Nat) (v : Word) (s : State) : (s.storeHostWord a v).bg = s.bg := rfl
@[simp] theorem State.storeHostWord_gain (a : Nat) (v : Word) (s : State) : (s.storeHostWord a v).gain = s.gain := rfl
@[simp] theorem State.storeHostWord_scEff (a : Nat) (v : Word) (s : State) : (s.storeHostWord a v).scEff = s.scEff := rfl
@[simp] theorem State.storeHostWord_latch (a : Nat) (v : Word) (s : State) : (s.storeHostWord a v).latch = s.latch := rfl
@[simp] theorem State.storeHostWord_slot0 (a : Nat) (v : Word) (s : State) : (s.storeHostWord a v).slot0 = s.slot0 := rfl
@[simp] theorem State.storeHostWord_slot1 (a : Nat) (v : Word) (s : State) : (s.storeHostWord a v).slot1 = s.slot1 := rfl
@[simp] theorem State.storeHostWord_mem (a : Nat) (v : Word) (s : State) :
    (s.storeHostWord a v).mem = Memory.storeWord a v s.mem := rfl
@[simp] theorem State.storeHostWord_rt (a : Nat) (v : Word) (s : State) : (s.storeHostWord a v).rt = s.rt := rfl
@[simp] theorem State.storeHostWord_op (a : Nat) (v : Word) (s : State) : (s.storeHostWord a v).op = s.op := rfl
@[simp] theorem State.storeHostWord_hostData (a : Nat) (v : Word) (s : State) : (s.storeHostWord a v).hostData = s.hostData := rfl
@[simp] theorem State.storeHostWord_deferred (a : Nat) (v : Word) (s : State) :
    (s.storeHostWord a v).deferred = s.deferred.filter fun d => d.1 != a := rfl
@[simp] theorem State.storeHostWord_fresh (a : Nat) (v : Word) (s : State) : (s.storeHostWord a v).fresh = s.fresh := rfl
@[simp] theorem State.storeHostWord_epoch (a : Nat) (v : Word) (s : State) : (s.storeHostWord a v).epoch = s.epoch := rfl
@[simp] theorem State.storeHostWord_agenda (a : Nat) (v : Word) (s : State) : (s.storeHostWord a v).agenda = s.agenda := rfl

/-! ## endBlock -/

@[simp] theorem State.endBlock_params (s : State) : (s.endBlock).params = s.params := rfl
@[simp] theorem State.endBlock_csr (s : State) : (s.endBlock).csr = s.csr := rfl
@[simp] theorem State.endBlock_err (s : State) : (s.endBlock).err = s.err := rfl
@[simp] theorem State.endBlock_runState (s : State) : (s.endBlock).runState = s.runState := rfl
@[simp] theorem State.endBlock_rtBusy (s : State) :
    (s.endBlock).rtBusy = false := rfl
@[simp] theorem State.endBlock_settingsChanged (s : State) : (s.endBlock).settingsChanged = s.settingsChanged := rfl
@[simp] theorem State.endBlock_windowPending (s : State) : (s.endBlock).windowPending = s.windowPending := rfl
@[simp] theorem State.endBlock_live (s : State) : (s.endBlock).live = s.live := rfl
@[simp] theorem State.endBlock_ready (s : State) : (s.endBlock).ready = s.ready := rfl
@[simp] theorem State.endBlock_bg (s : State) : (s.endBlock).bg = s.bg := rfl
@[simp] theorem State.endBlock_gain (s : State) : (s.endBlock).gain = s.gain := rfl
@[simp] theorem State.endBlock_scEff (s : State) : (s.endBlock).scEff = s.scEff := rfl
@[simp] theorem State.endBlock_latch (s : State) : (s.endBlock).latch = s.latch := rfl
@[simp] theorem State.endBlock_slot0 (s : State) : (s.endBlock).slot0 = s.slot0 := rfl
@[simp] theorem State.endBlock_slot1 (s : State) : (s.endBlock).slot1 = s.slot1 := rfl
@[simp] theorem State.endBlock_mem (s : State) :
    (s.endBlock).mem = flushDeferred s.deferred s.mem := rfl
@[simp] theorem State.endBlock_rt (s : State) :
    (s.endBlock).rt = { s.rt with pc := .idle } := rfl
@[simp] theorem State.endBlock_op (s : State) : (s.endBlock).op = s.op := rfl
@[simp] theorem State.endBlock_hostData (s : State) : (s.endBlock).hostData = s.hostData := rfl
@[simp] theorem State.endBlock_deferred (s : State) :
    (s.endBlock).deferred = [] := rfl
@[simp] theorem State.endBlock_fresh (s : State) : (s.endBlock).fresh = s.fresh := rfl
@[simp] theorem State.endBlock_epoch (s : State) : (s.endBlock).epoch = s.epoch := rfl
@[simp] theorem State.endBlock_agenda (s : State) : (s.endBlock).agenda = s.agenda := rfl

/-! ## goto -/

@[simp] theorem State.goto_params (pc : RtPc) (s : State) : (s.goto pc).params = s.params := rfl
@[simp] theorem State.goto_csr (pc : RtPc) (s : State) : (s.goto pc).csr = s.csr := rfl
@[simp] theorem State.goto_err (pc : RtPc) (s : State) : (s.goto pc).err = s.err := rfl
@[simp] theorem State.goto_runState (pc : RtPc) (s : State) : (s.goto pc).runState = s.runState := rfl
@[simp] theorem State.goto_rtBusy (pc : RtPc) (s : State) : (s.goto pc).rtBusy = s.rtBusy := rfl
@[simp] theorem State.goto_settingsChanged (pc : RtPc) (s : State) : (s.goto pc).settingsChanged = s.settingsChanged := rfl
@[simp] theorem State.goto_windowPending (pc : RtPc) (s : State) : (s.goto pc).windowPending = s.windowPending := rfl
@[simp] theorem State.goto_live (pc : RtPc) (s : State) : (s.goto pc).live = s.live := rfl
@[simp] theorem State.goto_ready (pc : RtPc) (s : State) : (s.goto pc).ready = s.ready := rfl
@[simp] theorem State.goto_bg (pc : RtPc) (s : State) : (s.goto pc).bg = s.bg := rfl
@[simp] theorem State.goto_gain (pc : RtPc) (s : State) : (s.goto pc).gain = s.gain := rfl
@[simp] theorem State.goto_scEff (pc : RtPc) (s : State) : (s.goto pc).scEff = s.scEff := rfl
@[simp] theorem State.goto_latch (pc : RtPc) (s : State) : (s.goto pc).latch = s.latch := rfl
@[simp] theorem State.goto_slot0 (pc : RtPc) (s : State) : (s.goto pc).slot0 = s.slot0 := rfl
@[simp] theorem State.goto_slot1 (pc : RtPc) (s : State) : (s.goto pc).slot1 = s.slot1 := rfl
@[simp] theorem State.goto_mem (pc : RtPc) (s : State) : (s.goto pc).mem = s.mem := rfl
@[simp] theorem State.goto_rt (pc : RtPc) (s : State) :
    (s.goto pc).rt = { s.rt with pc := pc } := rfl
@[simp] theorem State.goto_op (pc : RtPc) (s : State) : (s.goto pc).op = s.op := rfl
@[simp] theorem State.goto_hostData (pc : RtPc) (s : State) : (s.goto pc).hostData = s.hostData := rfl
@[simp] theorem State.goto_deferred (pc : RtPc) (s : State) : (s.goto pc).deferred = s.deferred := rfl
@[simp] theorem State.goto_fresh (pc : RtPc) (s : State) : (s.goto pc).fresh = s.fresh := rfl
@[simp] theorem State.goto_epoch (pc : RtPc) (s : State) : (s.goto pc).epoch = s.epoch := rfl
@[simp] theorem State.goto_agenda (pc : RtPc) (s : State) : (s.goto pc).agenda = s.agenda := rfl

/-! ## bgGoto -/

@[simp] theorem State.bgGoto_params (pc : BgPc) (s : State) : (s.bgGoto pc).params = s.params := rfl
@[simp] theorem State.bgGoto_csr (pc : BgPc) (s : State) : (s.bgGoto pc).csr = s.csr := rfl
@[simp] theorem State.bgGoto_err (pc : BgPc) (s : State) : (s.bgGoto pc).err = s.err := rfl
@[simp] theorem State.bgGoto_runState (pc : BgPc) (s : State) : (s.bgGoto pc).runState = s.runState := rfl
@[simp] theorem State.bgGoto_rtBusy (pc : BgPc) (s : State) : (s.bgGoto pc).rtBusy = s.rtBusy := rfl
@[simp] theorem State.bgGoto_settingsChanged (pc : BgPc) (s : State) : (s.bgGoto pc).settingsChanged = s.settingsChanged := rfl
@[simp] theorem State.bgGoto_windowPending (pc : BgPc) (s : State) : (s.bgGoto pc).windowPending = s.windowPending := rfl
@[simp] theorem State.bgGoto_live (pc : BgPc) (s : State) : (s.bgGoto pc).live = s.live := rfl
@[simp] theorem State.bgGoto_ready (pc : BgPc) (s : State) : (s.bgGoto pc).ready = s.ready := rfl
@[simp] theorem State.bgGoto_bg (pc : BgPc) (s : State) :
    (s.bgGoto pc).bg = { s.bg with pc := pc } := rfl
@[simp] theorem State.bgGoto_gain (pc : BgPc) (s : State) : (s.bgGoto pc).gain = s.gain := rfl
@[simp] theorem State.bgGoto_scEff (pc : BgPc) (s : State) : (s.bgGoto pc).scEff = s.scEff := rfl
@[simp] theorem State.bgGoto_latch (pc : BgPc) (s : State) : (s.bgGoto pc).latch = s.latch := rfl
@[simp] theorem State.bgGoto_slot0 (pc : BgPc) (s : State) : (s.bgGoto pc).slot0 = s.slot0 := rfl
@[simp] theorem State.bgGoto_slot1 (pc : BgPc) (s : State) : (s.bgGoto pc).slot1 = s.slot1 := rfl
@[simp] theorem State.bgGoto_mem (pc : BgPc) (s : State) : (s.bgGoto pc).mem = s.mem := rfl
@[simp] theorem State.bgGoto_rt (pc : BgPc) (s : State) : (s.bgGoto pc).rt = s.rt := rfl
@[simp] theorem State.bgGoto_op (pc : BgPc) (s : State) : (s.bgGoto pc).op = s.op := rfl
@[simp] theorem State.bgGoto_hostData (pc : BgPc) (s : State) : (s.bgGoto pc).hostData = s.hostData := rfl
@[simp] theorem State.bgGoto_deferred (pc : BgPc) (s : State) : (s.bgGoto pc).deferred = s.deferred := rfl
@[simp] theorem State.bgGoto_fresh (pc : BgPc) (s : State) : (s.bgGoto pc).fresh = s.fresh := rfl
@[simp] theorem State.bgGoto_epoch (pc : BgPc) (s : State) : (s.bgGoto pc).epoch = s.epoch := rfl
@[simp] theorem State.bgGoto_agenda (pc : BgPc) (s : State) : (s.bgGoto pc).agenda = s.agenda := rfl

/-! ## raise -/

@[simp] theorem State.raise_params (e : BlockError) (s : State) : (s.raise e).params = s.params := by cases e <;> rfl
@[simp] theorem State.raise_csr (e : BlockError) (s : State) : (s.raise e).csr = s.csr := by cases e <;> rfl
@[simp] theorem State.raise_settingsChanged (e : BlockError) (s : State) : (s.raise e).settingsChanged = s.settingsChanged := by cases e <;> rfl
@[simp] theorem State.raise_windowPending (e : BlockError) (s : State) : (s.raise e).windowPending = s.windowPending := by cases e <;> rfl
@[simp] theorem State.raise_live (e : BlockError) (s : State) : (s.raise e).live = s.live := by cases e <;> rfl
@[simp] theorem State.raise_ready (e : BlockError) (s : State) : (s.raise e).ready = s.ready := by cases e <;> rfl
@[simp] theorem State.raise_bg (e : BlockError) (s : State) : (s.raise e).bg = s.bg := by cases e <;> rfl
@[simp] theorem State.raise_gain (e : BlockError) (s : State) : (s.raise e).gain = s.gain := by cases e <;> rfl
@[simp] theorem State.raise_scEff (e : BlockError) (s : State) : (s.raise e).scEff = s.scEff := by cases e <;> rfl
@[simp] theorem State.raise_latch (e : BlockError) (s : State) : (s.raise e).latch = s.latch := by cases e <;> rfl
@[simp] theorem State.raise_slot0 (e : BlockError) (s : State) : (s.raise e).slot0 = s.slot0 := by cases e <;> rfl
@[simp] theorem State.raise_slot1 (e : BlockError) (s : State) : (s.raise e).slot1 = s.slot1 := by cases e <;> rfl
@[simp] theorem State.raise_op (e : BlockError) (s : State) : (s.raise e).op = s.op := by cases e <;> rfl
@[simp] theorem State.raise_hostData (e : BlockError) (s : State) : (s.raise e).hostData = s.hostData := by cases e <;> rfl
@[simp] theorem State.raise_fresh (e : BlockError) (s : State) : (s.raise e).fresh = s.fresh := by cases e <;> rfl
@[simp] theorem State.raise_epoch (e : BlockError) (s : State) : (s.raise e).epoch = s.epoch := by cases e <;> rfl
@[simp] theorem State.raise_agenda (e : BlockError) (s : State) : (s.raise e).agenda = s.agenda := by cases e <;> rfl
@[simp] theorem State.raise_err (e : BlockError) (s : State) : (s.raise e).err = s.err.record e := by cases e <;> rfl

/-- Every error but Assert changes nothing but ERR (R271). -/
theorem State.raise_eq (e : BlockError) (he : e ≠ .assert) (s : State) :
    s.raise e = { s with err := s.err.record e } := by
  cases e <;> first | rfl | exact absurd rfl he

/-- Assert also ends the command and enters FATAL (R273). -/
theorem State.raise_assert_eq (s : State) :
    s.raise .assert = { s.endBlock with err := s.err.record .assert, runState := .fatal } := rfl

/-! ## Slots -/

@[simp] theorem SlotIx.other_other (i : SlotIx) : i.other.other = i := by cases i <;> rfl

theorem SlotIx.other_ne (i : SlotIx) : i.other ≠ i := by cases i <;> decide

theorem SlotIx.ne_other (i : SlotIx) : i ≠ i.other := by cases i <;> decide

/-- Every slot but slot `i` is the other one. -/
theorem SlotIx.eq_other_of_ne {i j : SlotIx} (h : j ≠ i) : j = i.other := by
  cases i <;> cases j <;> first | rfl | exact absurd rfl h

@[simp] theorem State.slot_setSlot_same (i : SlotIx) (v : Slot) (s : State) : (s.setSlot i v).slot i = v := by
  cases i <;> rfl

@[simp] theorem State.slot_setSlot_other (i : SlotIx) (v : Slot) (s : State) :
    (s.setSlot i v).slot i.other = s.slot i.other := by
  cases i <;> rfl

@[simp] theorem State.slot_setSlot_of_other (i : SlotIx) (v : Slot) (s : State) :
    (s.setSlot i.other v).slot i = s.slot i := by
  cases i <;> rfl

@[simp] theorem State.liveSlot_setSlot_live (v : Slot) (s : State) : (s.setSlot s.live v).liveSlot = v :=
  State.slot_setSlot_same s.live v s

@[simp] theorem State.liveSlot_setSlot_spare (v : Slot) (s : State) :
    (s.setSlot s.live.other v).liveSlot = s.liveSlot :=
  State.slot_setSlot_of_other s.live v s

@[simp] theorem State.spareSlot_setSlot_live (v : Slot) (s : State) :
    (s.setSlot s.live v).spareSlot = s.spareSlot :=
  State.slot_setSlot_other s.live v s

@[simp] theorem State.spareSlot_setSlot_spare (v : Slot) (s : State) :
    (s.setSlot s.live.other v).spareSlot = v :=
  State.slot_setSlot_same s.live.other v s

@[simp] theorem State.setSlot_setSlot (i : SlotIx) (v w : Slot) (s : State) :
    (s.setSlot i v).setSlot i w = s.setSlot i w := by
  cases i <;> rfl

@[simp] theorem State.setSlot_self (i : SlotIx) (s : State) : s.setSlot i (s.slot i) = s := by
  cases i <;> rfl

@[simp] theorem State.setSlot_liveSlot (s : State) : s.setSlot s.live s.liveSlot = s :=
  State.setSlot_self s.live s

@[simp] theorem State.liveSlot_modLive (f : Slot → Slot) (s : State) : (s.modLive f).liveSlot = f s.liveSlot :=
  State.liveSlot_setSlot_live (f s.liveSlot) s

@[simp] theorem State.spareSlot_modLive (f : Slot → Slot) (s : State) : (s.modLive f).spareSlot = s.spareSlot :=
  State.spareSlot_setSlot_live (f s.liveSlot) s

@[simp] theorem State.liveSlot_modRing (kind : RingKind) (c : Nat) (f : Ring → Ring) (s : State) :
    (s.modRing kind c f).liveSlot = s.liveSlot.modRing kind c f :=
  State.liveSlot_modLive _ s

@[simp] theorem State.spareSlot_modRing (kind : RingKind) (c : Nat) (f : Ring → Ring) (s : State) :
    (s.modRing kind c f).spareSlot = s.spareSlot :=
  State.spareSlot_modLive _ s

/-- Two changes of the live slot are one. -/
@[simp] theorem State.modLive_modLive (f g : Slot → Slot) (s : State) :
    (s.modLive f).modLive g = s.modLive fun S => g (f S) := by
  simp [State.modLive]

/-- A change of the live slot as the whole next state. -/
theorem State.modLive_eq (f : Slot → Slot) (s : State) : s.modLive f = s.setSlot s.live (f s.liveSlot) := rfl

@[simp] theorem State.liveSlot_setSamples (r : Region) (c off : Nat) (vals : List F32) (s : State) :
    (s.setSamples r c off vals).liveSlot = s.liveSlot := rfl

@[simp] theorem State.spareSlot_setSamples (r : Region) (c off : Nat) (vals : List F32) (s : State) :
    (s.setSamples r c off vals).spareSlot = s.spareSlot := rfl

@[simp] theorem State.liveSlot_endBlock (s : State) : s.endBlock.liveSlot = s.liveSlot := rfl

@[simp] theorem State.spareSlot_endBlock (s : State) : s.endBlock.spareSlot = s.spareSlot := rfl

@[simp] theorem State.liveSlot_goto (pc : RtPc) (s : State) : (s.goto pc).liveSlot = s.liveSlot := rfl

@[simp] theorem State.spareSlot_goto (pc : RtPc) (s : State) : (s.goto pc).spareSlot = s.spareSlot := rfl

@[simp] theorem State.liveSlot_bgGoto (pc : BgPc) (s : State) : (s.bgGoto pc).liveSlot = s.liveSlot := rfl

@[simp] theorem State.spareSlot_bgGoto (pc : BgPc) (s : State) : (s.bgGoto pc).spareSlot = s.spareSlot := rfl

@[simp] theorem State.liveSlot_raise (e : BlockError) (s : State) : (s.raise e).liveSlot = s.liveSlot := by
  cases e <;> rfl

@[simp] theorem State.spareSlot_raise (e : BlockError) (s : State) : (s.raise e).spareSlot = s.spareSlot := by
  cases e <;> rfl

/-- A byte reads the same where memory and epoch are the same. -/
theorem State.byteAt_congr {s t : State} (hm : t.mem = s.mem) (he : t.epoch = s.epoch) (a : Nat) :
    t.byteAt a = s.byteAt a := by
  simp [State.byteAt, hm, he]

@[simp] theorem State.byteAt_setSlot (i : SlotIx) (v : Slot) (s : State) (a : Nat) :
    (s.setSlot i v).byteAt a = s.byteAt a := rfl

@[simp] theorem State.byteAt_modLive (f : Slot → Slot) (s : State) (a : Nat) :
    (s.modLive f).byteAt a = s.byteAt a := rfl

/-- Every change of the live slot alone. -/
theorem State.modLive_liveBecomes (f : Slot → Slot) (s : State) : LiveBecomes s (f s.liveSlot) (s.modLive f) :=
  ⟨rfl, fun _ => rfl⟩

/-! ## Loops over the channels -/

/-- What every pass keeps, the loop keeps. -/
theorem forChannels_keeps {α : Type} (g : State → α) {f : Nat → State → State}
    (h : ∀ c t, g (f c t) = g t) (n : Nat) (s : State) : g (forChannels n f s) = g s := by
  simp only [forChannels]
  induction List.range n generalizing s with
  | nil => rfl
  | cons c cs ih => rw [List.foldl_cons, ih, h]

@[simp] theorem forChannels_zero (f : Nat → State → State) (s : State) : forChannels 0 f s = s := rfl

theorem forChannels_succ (n : Nat) (f : Nat → State → State) (s : State) :
    forChannels (n + 1) f s = f n (forChannels n f s) := by
  simp [forChannels, List.range_succ]

end Sys2Proof.Machine
end

