-- ==== Sys2Proof/Laws/Memory.lean ====
section
/-! SUPPORT. The block sample memory: reads after writes, and every operation keeps the canonical form (spec R54, R72,
R73). -/

namespace Sys2Proof.Machine

/-! ## One byte -/

@[simp] theorem Memory.lookup_nil (a : Nat) : Memory.lookup a [] = none := rfl

/-- A byte reads back what was stored there, and every other byte what it read before. -/
theorem Memory.lookup_store (a b : Nat) (v : Byte) (m : Memory) :
    Memory.lookup b (Memory.store a v m) = if b = a then some v else Memory.lookup b m := by
  induction m with
  | nil => simp [Memory.store, Memory.lookup, eq_comm]
  | cons cell rest ih =>
    obtain ⟨x, w⟩ := cell
    simp only [Memory.store]
    by_cases h1 : a < x
    · rw [if_pos h1]
      simp only [Memory.lookup, eq_comm]
    · rw [if_neg h1]
      by_cases h2 : a = x
      · subst h2
        by_cases hb : b = a
        · simp [Memory.lookup, hb]
        · simp [Memory.lookup, hb, Ne.symm hb]
      · rw [if_neg h2]
        by_cases hb : b = a
        · subst hb
          simp [Memory.lookup, ih, Ne.symm h2]
        · simp [Memory.lookup, ih, hb]

/-- The addresses of a memory after a store. -/
theorem Memory.mem_store {a : Nat} {v : Byte} {m : Memory} {y : Host.Cell} (h : y ∈ Memory.store a v m) :
    y.1 = a ∨ y ∈ m := by
  induction m with
  | nil => simp_all [Memory.store]
  | cons cell rest ih =>
    obtain ⟨x, w⟩ := cell
    simp only [Memory.store] at h
    split_ifs at h with h1 h2
    · rcases List.mem_cons.mp h with rfl | h
      · exact .inl rfl
      · exact .inr h
    · rcases List.mem_cons.mp h with rfl | h
      · exact .inl rfl
      · exact .inr (List.mem_cons_of_mem _ h)
    · rcases List.mem_cons.mp h with rfl | h
      · exact .inr (List.mem_cons_self ..)
      · exact (ih h).imp_right (List.mem_cons_of_mem _)

/-- A store keeps the canonical form. -/
theorem Memory.wf_store (a : Nat) (v : Byte) (m : Memory) (h : Memory.wf m) : Memory.wf (Memory.store a v m) := by
  induction m with
  | nil => simp [Memory.store, Memory.wf]
  | cons cell rest ih =>
    obtain ⟨x, w⟩ := cell
    have hc := List.pairwise_cons.mp h
    simp only [Memory.store]
    split_ifs with h1 h2
    · refine List.pairwise_cons.mpr ⟨?_, h⟩
      intro y hy
      rcases List.mem_cons.mp hy with rfl | hy
      · exact h1
      · exact lt_trans h1 (hc.1 y hy)
    · subst h2; exact List.pairwise_cons.mpr ⟨hc.1, hc.2⟩
    · refine List.pairwise_cons.mpr ⟨?_, ih hc.2⟩
      intro y hy
      rcases Memory.mem_store hy with hy | hy
      · simp only [hy]; omega
      · exact hc.1 y hy

/-! ## One word -/

theorem Memory.wf_storeWord (a : Nat) (v : Word) (m : Memory) (h : Memory.wf m) :
    Memory.wf (Memory.storeWord a v m) :=
  Memory.wf_store _ _ _ (Memory.wf_store _ _ _ (Memory.wf_store _ _ _ (Memory.wf_store _ _ _ h)))

/-- What a byte reads as after a word is stored: the word's bytes at its four addresses, little-endian (R73). -/
theorem Memory.lookup_storeWord (a b : Nat) (v : Word) (m : Memory) :
    Memory.lookup b (Memory.storeWord a v m) =
      if b = a + 3 then some (v.extractLsb' 24 8)
      else if b = a + 2 then some (v.extractLsb' 16 8)
      else if b = a + 1 then some (v.extractLsb' 8 8)
      else if b = a then some (v.extractLsb' 0 8)
      else Memory.lookup b m := by
  simp only [Memory.storeWord, Memory.lookup_store]

/-- A byte outside the word's four reads as before. -/
theorem Memory.lookup_storeWord_of_outside (a b : Nat) (v : Word) (m : Memory) (hb : b < a ∨ a + 4 ≤ b) :
    Memory.lookup b (Memory.storeWord a v m) = Memory.lookup b m := by
  rw [Memory.lookup_storeWord, if_neg (by omega), if_neg (by omega), if_neg (by omega), if_neg (by omega)]

/-- The four bytes of a word put together again. -/
theorem word_of_bytes (v : Word) :
    v.extractLsb' 24 8 ++ v.extractLsb' 16 8 ++ v.extractLsb' 8 8 ++ v.extractLsb' 0 8 = v := by
  rw [BitVec.extractLsb'_append_extractLsb'_eq_extractLsb' (by rfl),
    BitVec.extractLsb'_append_extractLsb'_eq_extractLsb' (by rfl),
    BitVec.extractLsb'_append_extractLsb'_eq_extractLsb' (by rfl)]
  exact BitVec.extractLsb'_eq_self

/-! ## Bytes, words and samples of a state -/

/-- The bytes of a state after a word is stored. -/
theorem State.byteAt_storeWord (s : State) (a b : Nat) (v : Word) :
    ({ s with mem := Memory.storeWord a v s.mem } : State).byteAt b =
      if b = a + 3 then v.extractLsb' 24 8
      else if b = a + 2 then v.extractLsb' 16 8
      else if b = a + 1 then v.extractLsb' 8 8
      else if b = a then v.extractLsb' 0 8
      else s.byteAt b := by
  simp only [State.byteAt, Memory.lookup_storeWord]
  split_ifs <;> rfl

/-- A word reads back what was stored (R54: "the value last written"). -/
theorem State.wordAt_storeWord_same (s : State) (a : Nat) (v : Word) :
    ({ s with mem := Memory.storeWord a v s.mem } : State).wordAt a = v := by
  simp only [State.wordAt, State.byteAt_storeWord]
  simpa using word_of_bytes v

/-- A word that does not overlap reads as before. -/
theorem State.wordAt_storeWord_of_disjoint (s : State) (a b : Nat) (v : Word) (h : b + 4 ≤ a ∨ a + 4 ≤ b) :
    ({ s with mem := Memory.storeWord a v s.mem } : State).wordAt b = s.wordAt b := by
  have out (x : Nat) (hx : x < a ∨ a + 4 ≤ x) :
      ({ s with mem := Memory.storeWord a v s.mem } : State).byteAt x = s.byteAt x := by
    simp only [State.byteAt, Memory.lookup_storeWord_of_outside a x v s.mem hx]
  simp only [State.wordAt]
  rw [out (b + 3) (by omega), out (b + 2) (by omega), out (b + 1) (by omega), out b (by omega)]

/-- Two samples of the block sample memory that differ in region, channel or index do not overlap (R72). -/
theorem sampleAddr_disjoint (p : Params) {r r' : Region} {c c' i i' : Nat}
    (h : sampleExists p c i = true) (h' : sampleExists p c' i' = true) (hne : ¬ (r = r' ∧ c = c' ∧ i = i')) :
    sampleAddr p r' c' i' + 4 ≤ sampleAddr p r c i ∨ sampleAddr p r c i + 4 ≤ sampleAddr p r' c' i' := by
  simp only [sampleExists, Bool.and_eq_true, decide_eq_true_eq] at h h'
  obtain ⟨hc, hi⟩ := h
  obtain ⟨hc', hi'⟩ := h'
  have b1 : c * p.maxBlock + i < p.maxCh * p.maxBlock := by
    calc c * p.maxBlock + i < c * p.maxBlock + p.maxBlock := by omega
      _ = (c + 1) * p.maxBlock := by ring
      _ ≤ p.maxCh * p.maxBlock := Nat.mul_le_mul_right _ hc
  have b2 : c' * p.maxBlock + i' < p.maxCh * p.maxBlock := by
    calc c' * p.maxBlock + i' < c' * p.maxBlock + p.maxBlock := by omega
      _ = (c' + 1) * p.maxBlock := by ring
      _ ≤ p.maxCh * p.maxBlock := Nat.mul_le_mul_right _ hc'
  have inj : c * p.maxBlock + i = c' * p.maxBlock + i' → c = c' ∧ i = i' := by
    intro e
    have hd : c = c' := by
      have e1 : (c * p.maxBlock + i) / p.maxBlock = c := by
        rw [Nat.mul_comm, Nat.mul_add_div (by omega), Nat.div_eq_of_lt hi, Nat.add_zero]
      have e2 : (c' * p.maxBlock + i') / p.maxBlock = c' := by
        rw [Nat.mul_comm, Nat.mul_add_div (by omega), Nat.div_eq_of_lt hi', Nat.add_zero]
      rw [← e1, ← e2, e]
    subst hd
    exact ⟨rfl, by omega⟩
  have rs : regionSize p = 4 * (p.maxCh * p.maxBlock) := by simp [regionSize, Nat.mul_assoc]
  cases r <;> cases r' <;> simp only [sampleAddr, regionBase, rs] <;>
    first
    | omega
    | (have : c * p.maxBlock + i ≠ c' * p.maxBlock + i' := fun e => hne ⟨rfl, inj e⟩
       omega)

/-- Storing samples keeps the canonical form. -/
theorem wf_storeSample (p : Params) (r : Region) (c i : Nat) (v : F32) (m : Memory) (h : Memory.wf m) :
    Memory.wf (storeSample p r c i v m) := by
  unfold storeSample
  split_ifs
  · exact Memory.wf_storeWord _ _ _ h
  · exact h

theorem wf_storeSamples (p : Params) (r : Region) (c off : Nat) (vals : List F32) (m : Memory) (h : Memory.wf m) :
    Memory.wf (storeSamples p r c off vals m) := by
  induction vals generalizing off m with
  | nil => exact h
  | cons v vs ih => exact ih _ _ (wf_storeSample p r c off v m h)

/-- The writes RT has not seen keep the canonical form when they are done. -/
theorem wf_flushDeferred (d : List (Nat × Word)) (m : Memory) (h : Memory.wf m) : Memory.wf (flushDeferred d m) := by
  unfold flushDeferred
  induction d generalizing m with
  | nil => exact h
  | cons w ws ih => exact ih _ (Memory.wf_storeWord _ _ _ h)

/-- A HOST write that is seen keeps the canonical form. -/
theorem State.wf_storeHostWord (a : Nat) (v : Word) {s : State} (h : Memory.wf s.mem) :
    Memory.wf (s.storeHostWord a v).mem := Memory.wf_storeWord a v s.mem h

/-- Writing samples keeps the canonical form. -/
theorem State.wf_setSamples (r : Region) (c off : Nat) (vals : List F32) {s : State} (h : Memory.wf s.mem) :
    Memory.wf (s.setSamples r c off vals).mem := wf_storeSamples s.params r c off vals s.mem h

/-- The end of a block keeps the canonical form. -/
theorem State.wf_endBlock {s : State} (h : Memory.wf s.mem) : Memory.wf s.endBlock.mem :=
  wf_flushDeferred s.deferred s.mem h

/-- The memory after reset, with nothing listed, is in canonical form. -/
theorem State.reset_mem_wf : Memory.wf State.reset.mem := List.Pairwise.nil

/-- A byte that is in none of the samples written reads as before. -/
theorem lookup_storeSamples_of_outside (p : Params) (r : Region) (c off : Nat) (vals : List F32) (m : Memory) (a : Nat)
    (h : ∀ j < vals.length, sampleExists p c (off + j) = true →
      a < sampleAddr p r c (off + j) ∨ sampleAddr p r c (off + j) + 4 ≤ a) :
    Memory.lookup a (storeSamples p r c off vals m) = Memory.lookup a m := by
  induction vals generalizing off m with
  | nil => rfl
  | cons v vs ih =>
    rw [storeSamples, ih]
    · unfold storeSample
      split_ifs with he
      · exact Memory.lookup_storeWord_of_outside _ _ _ _ (h 0 (by simp) he)
      · rfl
    · intro j hj hex
      have := h (j + 1) (by simpa using hj)
      rw [show off + (j + 1) = off + 1 + j from by omega] at this
      exact this hex

/-- A sample that is not among those written reads as before (R54). -/
theorem State.sample_setSamples_of_other (s : State) (r r' : Region) (c c' off i : Nat) (vals : List F32)
    (h : ¬ (r = r' ∧ c = c' ∧ off ≤ i ∧ i < off + vals.length)) :
    (s.setSamples r c off vals).sample r' c' i = s.sample r' c' i := by
  unfold State.sample
  by_cases he : sampleExists s.params c' i = true
  · have he' : sampleExists (s.setSamples r c off vals).params c' i = true := he
    rw [if_pos he, if_pos he']
    have key (k : Nat) (hk : k < 4) : (s.setSamples r c off vals).byteAt (sampleAddr s.params r' c' i + k)
        = s.byteAt (sampleAddr s.params r' c' i + k) := by
      simp only [State.byteAt, State.setSamples]
      rw [lookup_storeSamples_of_outside]
      intro j hj hex
      have := sampleAddr_disjoint s.params (r := r) (r' := r') hex he (by
        rintro ⟨rfl, rfl, rfl⟩; exact h ⟨rfl, rfl, by omega, by omega⟩)
      omega
    have k0 := key 0 (by omega)
    simp only [Nat.add_zero] at k0
    simp only [State.wordAt, State.setSamples_params, key 3 (by omega), key 2 (by omega), key 1 (by omega), k0]
  · have he' : ¬ sampleExists (s.setSamples r c off vals).params c' i = true := he
    rw [if_neg he, if_neg he']

/-- A sample that was written reads back (R54: "the value last written"). -/
theorem State.sample_setSamples_same (s : State) (r : Region) (c off : Nat) (vals : List F32) (j : Nat)
    (hj : j < vals.length) (he : sampleExists s.params c (off + j) = true) :
    (s.setSamples r c off vals).sample r c (off + j) = vals[j] := by
  induction vals generalizing off s j with
  | nil => simp at hj
  | cons v vs ih =>
    have step : s.setSamples r c off (v :: vs) =
        (({ s with mem := storeSample s.params r c off v s.mem } : State).setSamples r c (off + 1) vs) := rfl
    rw [step]
    cases j with
    | zero =>
      rw [State.sample_setSamples_of_other _ _ _ _ _ _ _ _ (by rintro ⟨-, -, h, -⟩; omega)]
      simp only [Nat.add_zero] at he ⊢
      unfold State.sample
      simp only [he, if_true, storeSample, List.getElem_cons_zero]
      exact State.wordAt_storeWord_same s _ v
    | succ k =>
      have := ih ({ s with mem := storeSample s.params r c off v s.mem } : State) (off + 1) k (by simpa using hj)
        (by rw [show off + 1 + k = off + (k + 1) from by omega]; exact he)
      rw [show off + (k + 1) = off + 1 + k from by omega, this, List.getElem_cons_succ]

end Sys2Proof.Machine
end

