-- ==== Sys2Proof/Laws/Ring.lean ====
section
/-! SUPPORT. What each ring operation can do, said once: the elements by their distance from a cursor, the cursors, the sizes
(spec R121 to R124). -/

namespace Sys2Proof.Machine

/-! ## Array elements -/

theorem elemAt_of_lt {x : List F32} {i : Nat} (h : i < x.length) : elemAt x i = x[i] := by
  simp [elemAt, h]

theorem elemAt_set {x : List F32} {i j : Nat} {v : F32} (h : i < x.length) :
    elemAt (x.set i v) j = if j = i then v else elemAt x j := by
  unfold elemAt
  rw [List.getElem?_set]
  by_cases hj : j = i
  · subst hj; simp [h]
  · simp [hj, Ne.symm hj]

@[simp] theorem length_mapFirst (n : Nat) (f : Nat → F32 → F32) (x : List F32) :
    (mapFirst n f x).length = x.length := by simp [mapFirst]

theorem elemAt_mapFirst {n : Nat} {f : Nat → F32 → F32} {x : List F32} {j : Nat} (h : j < x.length) :
    elemAt (mapFirst n f x) j = if j < n then f j (elemAt x j) else elemAt x j := by
  simp [elemAt, mapFirst, h]

@[simp] theorem length_overwrite (x src : List F32) : (overwrite x src).length = x.length := by simp [overwrite]

theorem elemAt_overwrite {x src : List F32} {j : Nat} (h : j < x.length) :
    elemAt (overwrite x src) j = if j < src.length then elemAt src j else elemAt x j := by
  by_cases hs : j < src.length <;> simp [elemAt, overwrite, h, hs]

theorem elemAt_cons_succ {x : F32} {xs : List F32} {i : Nat} (h : i < xs.length) :
    elemAt (x :: xs) (i + 1) = elemAt xs i := by
  simp [elemAt, h]

theorem elemAt_replicate {n j : Nat} {v : F32} (h : j < n) : elemAt (List.replicate n v) j = v := by
  simp [elemAt, h]

theorem elemAt_map_range {n j : Nat} {f : Nat → F32} (h : j < n) : elemAt ((List.range n).map f) j = f j := by
  simp [elemAt, h]

/-- Two arrays of one length with the same elements are equal. -/
theorem eq_of_elemAt {x y : List F32} (hl : x.length = y.length) (h : ∀ j < x.length, elemAt x j = elemAt y j) :
    x = y := by
  apply List.ext_getElem hl
  intro j h1 h2
  have := h j h1
  rwa [elemAt_of_lt h1, elemAt_of_lt h2] at this

/-! ## Positions around a ring -/

/-- Two positions less than a turn apart are different. -/
theorem ring_pos_inj {p cap i j : Nat} (hi : i < cap) (hj : j < cap) (h : (p + i) % cap = (p + j) % cap) : i = j := by
  have h' : i % cap = j % cap := by
    have : (p + i) ≡ (p + j) [MOD cap] := h
    exact Nat.ModEq.add_left_cancel' p this
  rwa [Nat.mod_eq_of_lt hi, Nat.mod_eq_of_lt hj] at h'

/-- Every position is some distance less than a turn from a cursor. -/
theorem ring_pos_surj {p cap j : Nat} (hj : j < cap) : ∃ i < cap, (p + i) % cap = j := by
  have hc : 0 < cap := by omega
  refine ⟨(j + cap - p % cap) % cap, Nat.mod_lt _ hc, ?_⟩
  have hp : p % cap < cap := Nat.mod_lt _ hc
  rw [Nat.add_mod, Nat.mod_mod, ← Nat.add_mod, Nat.add_mod,
    show p % cap + (j + cap - p % cap) % cap = p % cap + (j + cap - p % cap) % cap from rfl]
  by_cases hle : p % cap ≤ j
  · have : (j + cap - p % cap) % cap = j - p % cap := by
      rw [show j + cap - p % cap = j - p % cap + cap from by omega, Nat.add_mod_right,
        Nat.mod_eq_of_lt (by omega)]
    rw [this, show p % cap + (j - p % cap) = j from by omega, Nat.mod_eq_of_lt hj]
  · have : (j + cap - p % cap) % cap = j + cap - p % cap := Nat.mod_eq_of_lt (by omega)
    rw [this, show p % cap + (j + cap - p % cap) = j + cap from by omega, Nat.add_mod_right,
      Nat.mod_eq_of_lt hj]

/-- A loop that changes the elements at distances 0 to n - 1 from a cursor, each once, by itself. -/
theorem foldl_ring (cap p : Nat) (g : Nat → F32 → F32) (n : Nat) (d : List F32) (hl : d.length = cap) (hn : n ≤ cap) :
    let r := (List.range n).foldl (fun d i => d.set ((p + i) % cap) (g i (elemAt d ((p + i) % cap)))) d
    r.length = cap ∧ ∀ i < cap, elemAt r ((p + i) % cap) =
      if i < n then g i (elemAt d ((p + i) % cap)) else elemAt d ((p + i) % cap) := by
  induction n with
  | zero => simp [hl]
  | succ n ih =>
    obtain ⟨il, ie⟩ := ih (by omega)
    simp only [List.range_succ, List.foldl_append, List.foldl_cons, List.foldl_nil]
    refine ⟨by rw [List.length_set]; exact il, ?_⟩
    intro i hi
    have hpos : (p + n) % cap < cap := Nat.mod_lt _ (by omega)
    rw [elemAt_set (by rw [il]; exact hpos)]
    by_cases hin : i = n
    · subst hin
      rw [if_pos rfl, if_pos (by omega), ie i hi, if_neg (by omega)]
    · rw [if_neg (fun h => hin (ring_pos_inj hi (by omega) h)), ie i hi]
      by_cases h1 : i < n
      · rw [if_pos h1, if_pos (by omega)]
      · rw [if_neg h1, if_neg (by omega)]

/-! ## RB.WRITE -/

@[simp] theorem Ring.write_cap (r : Ring) (src : List F32) (n : Nat) : (r.write src n).cap = r.cap := rfl

@[simp] theorem Ring.write_pos (r : Ring) (src : List F32) (n : Nat) :
    (r.write src n).pos = (r.pos + n) % r.cap := rfl

@[simp] theorem Ring.write_rpos (r : Ring) (src : List F32) (n : Nat) : (r.write src n).rpos = r.rpos := rfl

@[simp] theorem Ring.write_length (r : Ring) (src : List F32) (n : Nat) :
    (r.write src n).data.length = r.data.length := by
  simp only [Ring.write]
  induction List.range n generalizing r with
  | nil => rfl
  | cons i is ih => simpa using ih { r with data := r.data.set ((r.pos + i) % r.cap) (elemAt src i) }

/-- RB.WRITE puts `src[i]` at distance `i` from the write cursor and leaves the rest (R121). -/
theorem Ring.write_elem (r : Ring) (src : List F32) (n : Nat) (hl : r.data.length = r.cap) (hn : n ≤ r.cap)
    {i : Nat} (hi : i < r.cap) :
    elemAt (r.write src n).data ((r.pos + i) % r.cap) =
      if i < n then elemAt src i else elemAt r.data ((r.pos + i) % r.cap) :=
  (foldl_ring r.cap r.pos (fun i _ => elemAt src i) n r.data hl hn).2 i hi

/-- One more sample written. -/
theorem Ring.write_succ_data (r : Ring) (src : List F32) (n : Nat) :
    (r.write src (n + 1)).data = (r.write src n).data.set ((r.pos + n) % r.cap) (elemAt src n) := by
  simp [Ring.write, List.range_succ]

/-- RB.WRITE of any count: "the last `cap` elements of `src` survive" (R121). -/
theorem Ring.write_elem_newest (r : Ring) (src : List F32) (n : Nat) (hl : r.data.length = r.cap) (hc : 0 < r.cap)
    {i : Nat} (hi : i < n) (hn : n ≤ i + r.cap) :
    elemAt (r.write src n).data ((r.pos + i) % r.cap) = elemAt src i := by
  induction n with
  | zero => omega
  | succ n ih =>
    have hpos : (r.pos + n) % r.cap < (r.write src n).data.length := by
      rw [Ring.write_length, hl]; exact Nat.mod_lt _ hc
    rw [Ring.write_succ_data, elemAt_set hpos]
    by_cases hin : i = n
    · rw [hin, if_pos rfl]
    · have hne : (r.pos + i) % r.cap ≠ (r.pos + n) % r.cap := by
        intro h
        have hd : n - i < r.cap := by omega
        have := ring_pos_inj (p := r.pos + i) (i := 0) (j := n - i) hc hd
          (by rw [show r.pos + i + (n - i) = r.pos + n from by omega]; simpa using h)
        omega
      rw [if_neg hne]
      exact ih (by omega) (by omega)

/-- RB.WRITE of any count leaves every element it does not meet (R121). -/
theorem Ring.write_elem_kept (r : Ring) (src : List F32) (n : Nat) (hl : r.data.length = r.cap) (hc : 0 < r.cap)
    {j : Nat} (h : ∀ i < n, (r.pos + i) % r.cap ≠ j) : elemAt (r.write src n).data j = elemAt r.data j := by
  induction n with
  | zero => rfl
  | succ n ih =>
    have hpos : (r.pos + n) % r.cap < (r.write src n).data.length := by
      rw [Ring.write_length, hl]; exact Nat.mod_lt _ hc
    rw [Ring.write_succ_data, elemAt_set hpos, if_neg (Ne.symm (h n (by omega)))]
    exact ih fun i hi => h i (by omega)

/-- A write of nothing changes nothing (R121: "`n = 0` changes nothing"). -/
theorem Ring.write_zero (r : Ring) (src : List F32) (hp : r.pos < r.cap) : r.write src 0 = r := by
  simp [Ring.write, Nat.mod_eq_of_lt hp]

/-! ## RB.LAST -/

@[simp] theorem Ring.last_length (r : Ring) (n : Nat) : (r.last n).length = n := by simp [Ring.last]

/-- RB.LAST answers the elements at distances `cap - n` on from the write cursor, oldest first (R122). -/
theorem Ring.last_elem (r : Ring) {n i : Nat} (hi : i < n) (hn : n ≤ r.cap) :
    elemAt (r.last n) i = elemAt r.data ((r.pos + r.cap - n + i) % r.cap) := by
  rw [Ring.last, elemAt_map_range hi]
  congr 1
  have : ((r.pos : Int) + r.cap - n + i) = ((r.pos + r.cap - n + i : Nat) : Int) := by omega
  rw [this]
  exact_mod_cast Int.toNat_natCast _

/-! ## RB.DRAIN -/

@[simp] theorem drainLoop_fst_length (cap : Nat) (consume : Bool) (n j : Nat) (data : List F32) :
    (drainLoop cap consume n j data).1.length = n := by
  induction n generalizing j data with
  | zero => rfl
  | succ n ih => simp [drainLoop, ih]

@[simp] theorem drainLoop_snd_length (cap : Nat) (consume : Bool) (n j : Nat) (data : List F32) :
    (drainLoop cap consume n j data).2.length = data.length := by
  induction n generalizing j data with
  | zero => rfl
  | succ n ih => simp only [drainLoop, ih]; split_ifs <;> simp

/-- Without `consume` the data stays. -/
@[simp] theorem drainLoop_snd_keep (cap n j : Nat) (data : List F32) : (drainLoop cap false n j data).2 = data := by
  induction n generalizing j with
  | zero => rfl
  | succ n ih => simp [drainLoop, ih]

/-- What the loop of RB.DRAIN reads, and what it leaves with `consume`. -/
theorem drainLoop_spec (cap : Nat) (consume : Bool) (n j : Nat) (data : List F32) (hl : data.length = cap)
    (hn : n ≤ cap) :
    (∀ i < n, elemAt (drainLoop cap consume n j data).1 i = elemAt data ((j + i) % cap)) ∧
      ∀ i < cap, elemAt (drainLoop cap consume n j data).2 ((j + i) % cap) =
        if consume = true ∧ i < n then fZero else elemAt data ((j + i) % cap) := by
  induction n generalizing j data with
  | zero => simp [drainLoop]
  | succ n ih =>
    have hpos : j % cap < cap := Nat.mod_lt _ (by omega)
    set data' := if consume then data.set (j % cap) fZero else data with hd
    have hl' : data'.length = cap := by rw [hd]; split_ifs <;> simp [hl]
    have hel (x : Nat) : elemAt data' x = if consume = true ∧ x = j % cap then fZero else elemAt data x := by
      rw [hd]
      cases consume
      · simp
      · rw [if_pos rfl, elemAt_set (by omega)]; simp
    obtain ⟨ih1, ih2⟩ := ih (j + 1) data' hl' (by omega)
    have hne (i : Nat) (hi : i + 1 < cap) : (j + (i + 1)) % cap ≠ j % cap := by
      intro h
      have := ring_pos_inj (p := j) (i := i + 1) (j := 0) hi (by omega) (by simpa using h)
      omega
    refine ⟨?_, ?_⟩
    · intro i hi
      cases i with
      | zero => simp [drainLoop, elemAt]
      | succ i =>
        have := ih1 i (by omega)
        rw [hel, if_neg (by rintro ⟨-, h⟩; exact hne i (by omega) (by rw [← h]; congr 1; omega)),
          show j + 1 + i = j + (i + 1) from by omega] at this
        have hstep : (drainLoop cap consume (n + 1) j data).1 =
            elemAt data (j % cap) :: (drainLoop cap consume n (j + 1) data').1 := rfl
        rw [hstep, elemAt_cons_succ (by rw [drainLoop_fst_length]; omega)]
        exact this
    · intro i hi
      have hstep : (drainLoop cap consume (n + 1) j data).2 = (drainLoop cap consume n (j + 1) data').2 := rfl
      rw [hstep]
      cases i with
      | zero =>
        have h0 := ih2 (cap - 1) (by omega)
        rw [show j + 1 + (cap - 1) = j + cap from by omega, Nat.add_mod_right] at h0
        simp only [Nat.add_zero]
        rw [h0, if_neg (by omega), hel]
        by_cases hc : consume = true <;> simp [hc]
      | succ i =>
        have h1 := ih2 i (by omega)
        rw [show j + 1 + i = j + (i + 1) from by omega] at h1
        rw [h1, hel]
        have := hne i hi
        by_cases hc : consume = true <;> by_cases h : i < n <;> simp [hc, h, this]

/-- What the loop of RB.DRAIN reads, for any count: an element consumed a turn ago reads 0.0. -/
theorem drainLoop_read (cap : Nat) (consume : Bool) (n j : Nat) (data : List F32) (hl : data.length = cap) (hc : 0 < cap)
    {i : Nat} (hi : i < n) : elemAt (drainLoop cap consume n j data).1 i =
      if consume = true ∧ cap ≤ i then fZero else elemAt data ((j + i) % cap) := by
  induction n generalizing j data i with
  | zero => omega
  | succ n ih =>
    have hpos : j % cap < cap := Nat.mod_lt _ hc
    set data' := if consume then data.set (j % cap) fZero else data with hd
    have hl' : data'.length = cap := by rw [hd]; split_ifs <;> simp [hl]
    have hel (x : Nat) : elemAt data' x = if consume = true ∧ x = j % cap then fZero else elemAt data x := by
      rw [hd]
      cases consume
      · simp
      · rw [if_pos rfl, elemAt_set (by omega)]; simp
    cases i with
    | zero => rw [if_neg (by omega)]; simp [drainLoop, elemAt]
    | succ i =>
      have hstep : (drainLoop cap consume (n + 1) j data).1 =
          elemAt data (j % cap) :: (drainLoop cap consume n (j + 1) data').1 := rfl
      rw [hstep, elemAt_cons_succ (by rw [drainLoop_fst_length]; omega), ih (j + 1) data' hl' (by omega), hel,
        show j + 1 + i = j + (i + 1) from by omega]
      by_cases hcons : consume = true
      · by_cases h1 : cap ≤ i
        · rw [if_pos ⟨hcons, h1⟩, if_pos ⟨hcons, by omega⟩]
        · rw [if_neg (by tauto)]
          by_cases h2 : cap ≤ i + 1
          · have : i + 1 = cap := by omega
            rw [if_pos ⟨hcons, by rw [this, Nat.add_mod_right]⟩, if_pos ⟨hcons, h2⟩]
          · have hne : (j + (i + 1)) % cap ≠ j % cap := by
              intro h
              have := ring_pos_inj (p := j) (i := i + 1) (j := 0) (by omega) hc (by simpa using h)
              omega
            rw [if_neg (by tauto), if_neg (by tauto)]
      · rw [if_neg (by tauto), if_neg (by tauto), if_neg (by tauto)]

/-- What the loop of RB.DRAIN leaves, for any count: 0.0 at every element it meets with `consume`. -/
theorem drainLoop_left (cap : Nat) (consume : Bool) (n j : Nat) (data : List F32) (hl : data.length = cap) (hc : 0 < cap)
    (x : Nat) :
    ((∃ i < n, (j + i) % cap = x) → consume = true → elemAt (drainLoop cap consume n j data).2 x = fZero) ∧
      ((∀ i < n, (j + i) % cap ≠ x) → elemAt (drainLoop cap consume n j data).2 x = elemAt data x) := by
  induction n generalizing j data with
  | zero => exact ⟨fun ⟨i, hi, _⟩ => absurd hi (by omega), fun _ => rfl⟩
  | succ n ih =>
    have hpos : j % cap < cap := Nat.mod_lt _ hc
    set data' := if consume then data.set (j % cap) fZero else data with hd
    have hl' : data'.length = cap := by rw [hd]; split_ifs <;> simp [hl]
    have hel (x : Nat) : elemAt data' x = if consume = true ∧ x = j % cap then fZero else elemAt data x := by
      rw [hd]
      cases consume
      · simp
      · rw [if_pos rfl, elemAt_set (by omega)]; simp
    have hstep : (drainLoop cap consume (n + 1) j data).2 = (drainLoop cap consume n (j + 1) data').2 := rfl
    obtain ⟨ih1, ih2⟩ := ih (j + 1) data' hl'
    rw [hstep]
    constructor
    · rintro ⟨i, hi, hx⟩ hcons
      by_cases hlater : ∃ i' < n, (j + 1 + i') % cap = x
      · exact ih1 hlater hcons
      · have h0 : i = 0 := by
          by_contra hne
          exact hlater ⟨i - 1, by omega, by rw [show j + 1 + (i - 1) = j + i from by omega]; exact hx⟩
        rw [ih2 (fun i' hi' h => hlater ⟨i', hi', h⟩), hel, if_pos ⟨hcons, by rw [← hx, h0, Nat.add_zero]⟩]
    · intro h
      rw [ih2 (fun i hi hx => h (i + 1) (by omega) (by rw [← hx]; congr 1; omega)), hel,
        if_neg (by rintro ⟨-, hx⟩; exact h 0 (by omega) (by rw [Nat.add_zero]; exact hx.symm))]

@[simp] theorem Ring.drained_length (r : Ring) (n : Nat) (consume : Bool) : (r.drained n consume).length = n := by
  simp [Ring.drained]

/-- RB.DRAIN reads the elements from the read cursor on (R123). -/
theorem Ring.drained_elem (r : Ring) (n : Nat) (consume : Bool) (hl : r.data.length = r.cap) (hn : n ≤ r.cap)
    {i : Nat} (hi : i < n) : elemAt (r.drained n consume) i = elemAt r.data ((r.rpos + i) % r.cap) :=
  (drainLoop_spec r.cap consume n r.rpos r.data hl hn).1 i hi

@[simp] theorem Ring.drain_cap (r : Ring) (n : Nat) (consume : Bool) : (r.drain n consume).cap = r.cap := rfl

@[simp] theorem Ring.drain_pos (r : Ring) (n : Nat) (consume : Bool) : (r.drain n consume).pos = r.pos := rfl

@[simp] theorem Ring.drain_rpos (r : Ring) (n : Nat) (consume : Bool) :
    (r.drain n consume).rpos = if consume then (r.rpos + n) % r.cap else r.rpos := rfl

@[simp] theorem Ring.drain_length (r : Ring) (n : Nat) (consume : Bool) :
    (r.drain n consume).data.length = r.data.length := by
  simp [Ring.drain]

/-- RB.DRAIN with consume leaves 0.0 where it read (R123); without, nothing changes. -/
theorem Ring.drain_elem (r : Ring) (n : Nat) (consume : Bool) (hl : r.data.length = r.cap) (hn : n ≤ r.cap)
    {i : Nat} (hi : i < r.cap) :
    elemAt (r.drain n consume).data ((r.rpos + i) % r.cap) =
      if consume = true ∧ i < n then fZero else elemAt r.data ((r.rpos + i) % r.cap) :=
  (drainLoop_spec r.cap consume n r.rpos r.data hl hn).2 i hi

/-- "With `consume` false nothing in the ring changes" (R123). -/
theorem Ring.drain_keep (r : Ring) (n : Nat) : r.drain n false = r := by
  simp [Ring.drain]

/-! ## RB.ACC -/

@[simp] theorem Ring.accumulate_cap (r : Ring) (src : List F32) (n : Nat) (g : F32) :
    (r.accumulate src n g).cap = r.cap := rfl

@[simp] theorem Ring.accumulate_pos (r : Ring) (src : List F32) (n : Nat) (g : F32) :
    (r.accumulate src n g).pos = r.pos := rfl

@[simp] theorem Ring.accumulate_rpos (r : Ring) (src : List F32) (n : Nat) (g : F32) :
    (r.accumulate src n g).rpos = r.rpos := rfl

@[simp] theorem Ring.accumulate_length (r : Ring) (src : List F32) (n : Nat) (g : F32) :
    (r.accumulate src n g).data.length = r.data.length := by
  simp only [Ring.accumulate]
  generalize r.data = d
  induction List.range n generalizing d with
  | nil => rfl
  | cons i is ih => rw [List.foldl_cons, ih, List.length_set]

/-- RB.ACC adds `gain *f src[i]` to the element at distance `i` from the read cursor (R124). -/
theorem Ring.accumulate_elem (r : Ring) (src : List F32) (n : Nat) (g : F32) (hl : r.data.length = r.cap)
    (hn : n ≤ r.cap) {i : Nat} (hi : i < r.cap) :
    elemAt (r.accumulate src n g).data ((r.rpos + i) % r.cap) =
      if i < n then fAdd (elemAt r.data ((r.rpos + i) % r.cap)) (fMul g (elemAt src i))
      else elemAt r.data ((r.rpos + i) % r.cap) :=
  (foldl_ring r.cap r.rpos (fun i v => fAdd v (fMul g (elemAt src i))) n r.data hl hn).2 i hi

/-! ## One ring of a slot -/

@[simp] theorem Slot.modRing_rings_same (kind : RingKind) (c : Nat) (f : Ring → Ring) (S : Slot) :
    (S.modRing kind c f).rings kind = (S.rings kind).modify c f := by
  cases kind <;> rfl

theorem Slot.modRing_rings_other (kind kind' : RingKind) (c : Nat) (f : Ring → Ring) (S : Slot) (h : kind' ≠ kind) :
    (S.modRing kind c f).rings kind' = S.rings kind' := by
  cases kind <;> cases kind' <;> first | rfl | exact absurd rfl h

/-- The changed ring, where the slot has it. -/
theorem Slot.ring_modRing_same (kind : RingKind) (c : Nat) (f : Ring → Ring) (S : Slot)
    (h : c < (S.rings kind).length) : (S.modRing kind c f).ring kind c = f (S.ring kind c) := by
  simp [Slot.ring, h]

/-- Every other ring stays. -/
theorem Slot.ring_modRing_other (kind kind' : RingKind) (c c' : Nat) (f : Ring → Ring) (S : Slot)
    (h : ¬ (kind' = kind ∧ c' = c)) : (S.modRing kind c f).ring kind' c' = S.ring kind' c' := by
  by_cases hk : kind' = kind
  · subst hk
    have hc : c ≠ c' := fun e => h ⟨rfl, e.symm⟩
    simp [Slot.ring, hc]
  · simp [Slot.ring, Slot.modRing_rings_other kind kind' c f S hk]

/-- The ring of a channel, where the slot has it. -/
theorem Slot.ring_of_getElem? {S : Slot} {kind : RingKind} {c : Nat} {r : Ring} (h : (S.rings kind)[c]? = some r) :
    S.ring kind c = r := by
  simp [Slot.ring, h]

/-- A change of one ring as the ring it gives. -/
theorem Slot.modRing_const {S : Slot} {kind : RingKind} {c : Nat} {r : Ring} (h : (S.rings kind)[c]? = some r)
    (f : Ring → Ring) : S.modRing kind c f = S.modRing kind c fun _ => f r := by
  have key (l : List Ring) (hl : l[c]? = some r) : l.modify c f = l.modify c fun _ => f r := by
    apply List.ext_getElem?
    intro i
    rw [List.getElem?_modify, List.getElem?_modify]
    by_cases hi : c = i
    · subst hi; simp [hl]
    · simp [hi]
  cases kind <;> simp only [Slot.modRing, if_true, reduceCtorEq, if_false] <;> congr 1 <;> exact key _ h

/-- A ring operation on one ring leaves every other field of the slot. -/
theorem Slot.modRing_frame (kind : RingKind) (c : Nat) (f : Ring → Ring) (S : Slot) :
    S.modRing kind c f =
      { S with
        inr := (S.modRing kind c f).inr
        sidr := (S.modRing kind c f).sidr
        outr := (S.modRing kind c f).outr } := rfl

end Sys2Proof.Machine
end

