-- ==== Sys2Proof/Laws/Slot.lean ====
section
/-! SUPPORT. What the operations on the live slot keep: the shape of a built slot, and everything but the live slot (spec R45,
R49, R57, R195, R215). -/

namespace Sys2Proof.Machine

/-! ## The shape of a built slot -/

@[simp] theorem winTable_length (p : Params) (W : Nat) : (winTable p W).length = W := by simp [winTable]

@[simp] theorem fftForward_length (W d : Nat) (x : List F32) : (fftForward W d x).length = 2 * W := by
  simp [fftForward]

@[simp] theorem fftInverse_length (W d : Nat) (x : List F32) : (fftInverse W d x).length = 2 * W := by
  simp [fftInverse]

/-- The rings of a slot just built. -/
theorem Ring.fresh_sized (W : Nat) : (Ring.fresh W).Sized W := ⟨rfl, by simp [Ring.fresh]⟩

/-- A slot just built has its cursors at 0 (R233). -/
theorem Slot.cursor_build (p : Params) (W K nch : Nat) : (Slot.build p W K nch).cursor = 0 := by
  simp only [Slot.cursor, Slot.ring, Slot.rings, Slot.build, List.getElem?_replicate]
  split_ifs <;> rfl

/-- BUILD gives a built slot (R233). -/
theorem Slot.built_build {p : Params} {W nch : Nat} (K : Nat) (hW : 0 < W) (hn : 0 < nch) : (Slot.build p W K nch).Built nch where
  status_eq := rfl
  window_pos := hW
  nch_eq := rfl
  nch_pos := hn
  win_length := winTable_length p W
  scratch_length := List.length_replicate
  inr_length := List.length_replicate
  sidr_length := List.length_replicate
  outr_length := List.length_replicate
  thr_length := List.length_replicate
  ratio_length := List.length_replicate
  cteA_length := List.length_replicate
  cteR_length := List.length_replicate
  acc_length := List.length_replicate
  env_length := List.length_replicate
  env_rows := by
    intro row h
    rw [List.eq_of_mem_replicate h, List.length_replicate]
  cursor_lt := by rw [Slot.cursor_build]; exact hW
  input_rings := by
    intro r h
    rw [Slot.cursor_build, List.eq_of_mem_replicate h]
    exact ⟨Ring.fresh_sized W, rfl, rfl⟩
  sidechain_rings := by
    intro r h
    rw [List.eq_of_mem_replicate h]
    exact ⟨Ring.fresh_sized W, hW, rfl⟩
  output_rings := by
    intro r h
    rw [Slot.cursor_build, List.eq_of_mem_replicate h]
    exact ⟨Ring.fresh_sized W, rfl, rfl⟩

variable {S : Slot} {nch : Nat}

theorem Slot.Built.setK (h : S.Built nch) (K : Nat) : ({ S with K := K } : Slot).Built nch := { h with }

theorem Slot.Built.setCount (h : S.Built nch) (n : Word) : ({ S with count := n } : Slot).Built nch := { h with }

theorem Slot.Built.setScratch (h : S.Built nch) {x : List F32} (hx : x.length = 2 * S.W) :
    ({ S with scratch := x } : Slot).Built nch :=
  { h with scratch_length := hx }

theorem Slot.Built.setThr (h : S.Built nch) {x : List F32} (hx : x.length = S.W / 2) :
    ({ S with thr := x } : Slot).Built nch :=
  { h with thr_length := hx }

theorem Slot.Built.setAcc (h : S.Built nch) {x : List F32} (hx : x.length = S.W / 2) :
    ({ S with acc := x } : Slot).Built nch :=
  { h with acc_length := hx }

theorem Slot.Built.setRatio (h : S.Built nch) {x : List F32} (hx : x.length = S.W / 2) :
    ({ S with ratio := x } : Slot).Built nch :=
  { h with ratio_length := hx }

theorem Slot.Built.setTimes (h : S.Built nch) {x y : List F32} (hx : x.length = S.W / 2) (hy : y.length = S.W / 2) :
    ({ S with cteA := x, cteR := y } : Slot).Built nch :=
  { h with cteA_length := hx, cteR_length := hy }

theorem Slot.Built.setEnvs (h : S.Built nch) {x : List (List F32)} (hx : x.length = S.W / 2)
    (hr : ∀ row ∈ x, row.length = nch) : ({ S with env := x } : Slot).Built nch :=
  { h with env_length := hx, env_rows := hr }

/-- The ring of a channel the slot has is one of its rings. -/
theorem Slot.ring_mem (S : Slot) (kind : RingKind) {c : Nat} (h : c < (S.rings kind).length) :
    S.ring kind c ∈ S.rings kind := by
  simp [Slot.ring, h]

theorem mem_modify {l : List Ring} {c : Nat} {f : Ring → Ring} {r : Ring} (h : r ∈ l.modify c f) :
    r ∈ l ∨ ∃ r' ∈ l, r = f r' := by
  obtain ⟨i, hi⟩ := List.mem_iff_getElem?.mp h
  rw [List.getElem?_modify] at hi
  cases hl : l[i]? with
  | none => rw [hl] at hi; simp at hi
  | some x =>
    rw [hl] at hi
    have hx := List.mem_of_getElem? hl
    by_cases hc : c = i
    · exact .inr ⟨x, hx, by simpa [hc] using hi.symm⟩
    · exact .inl (by simp [hc] at hi; rwa [← hi])

/-- A change of output rings that keeps their size and cursors keeps the shape. -/
theorem Slot.Built.modOutput (h : S.Built nch) (c : Nat) {f : Ring → Ring}
    (hf : ∀ r, (f r).cap = r.cap ∧ (f r).data.length = r.data.length ∧ (f r).pos = r.pos ∧ (f r).rpos = r.rpos) :
    (S.modRing .output c f).Built nch :=
  { h with
    inr_length := h.inr_length
    sidr_length := h.sidr_length
    outr_length := by simpa [Slot.modRing] using h.outr_length
    input_rings := h.input_rings
    sidechain_rings := h.sidechain_rings
    output_rings := by
      intro r hr
      have hr' : r ∈ S.outr.modify c f := hr
      rcases mem_modify hr' with hm | ⟨r', hm, rfl⟩
      · exact h.output_rings r hm
      · obtain ⟨⟨h1, h2⟩, h3, h4⟩ := h.output_rings r' hm
        obtain ⟨f1, f2, f3, f4⟩ := hf r'
        exact ⟨⟨f1.trans h1, f2.trans h2⟩, f4.trans h3, f3.trans h4⟩ }

/-! ## The operations on the live slot -/

/-- What an operation on the live slot keeps: everything but the live slot, the counter of free values and RT's working
registers `b`, `m`, `m2` and `s`, and of the live slot its size, status and channel count (R57, R215). -/
structure EngineKeeps (s t : State) : Prop where
  state_eq : t = { s.setSlot s.live t.liveSlot with fresh := t.fresh, rt := t.rt }
  regs : t.rt = { s.rt with b := t.rt.b, m := t.rt.m, m2 := t.rt.m2, s := t.rt.s }
  shape : ∀ nch, s.liveSlot.Built nch → t.liveSlot.Built nch
  window : t.liveSlot.W = s.liveSlot.W
  channels : t.liveSlot.nch = s.liveSlot.nch
  overlap : t.liveSlot.K = s.liveSlot.K

/-- RT's block counters stand through an operation on the live slot. -/
theorem EngineKeeps.counters {s t : State} (h : EngineKeeps s t) :
    t.rt.pc = s.rt.pc ∧ t.rt.M = s.rt.M ∧ t.rt.a = s.rt.a ∧ t.rt.off = s.rt.off ∧ t.rt.nwin = s.rt.nwin ∧
      t.rt.k = s.rt.k := by
  rw [h.regs]
  exact ⟨rfl, rfl, rfl, rfl, rfl, rfl⟩

theorem EngineKeeps.refl (s : State) : EngineKeeps s s := ⟨by simp, rfl, fun _ h => h, rfl, rfl, rfl⟩

theorem EngineKeeps.trans {s t u : State} (h : EngineKeeps s t) (k : EngineKeeps t u) : EngineKeeps s u where
  state_eq := by
    have ht := h.state_eq
    have hu := k.state_eq
    generalize t.liveSlot = v, t.fresh = m, t.rt = r at ht
    generalize u.liveSlot = w, u.fresh = n, u.rt = q at hu ⊢
    subst ht
    rw [hu]
    show ({ ({ s.setSlot s.live v with fresh := m, rt := r } : State).setSlot s.live w with fresh := n, rt := q } : State) = _
    cases s.live <;> rfl
  regs := by
    have ht := h.regs
    have hu := k.regs
    rw [ht] at hu
    exact hu
  shape := fun n b => k.shape n (h.shape n b)
  window := k.window.trans h.window
  channels := k.channels.trans h.channels
  overlap := k.overlap.trans h.overlap

/-- A change of the live slot that keeps its shape. -/
theorem EngineKeeps.of_modLive {f : Slot → Slot} (s : State) (hs : ∀ nch, s.liveSlot.Built nch → (f s.liveSlot).Built nch)
    (hw : (f s.liveSlot).W = s.liveSlot.W) (hc : (f s.liveSlot).nch = s.liveSlot.nch)
    (hk : (f s.liveSlot).K = s.liveSlot.K) : EngineKeeps s (s.modLive f) where
  state_eq := by rw [State.liveSlot_modLive]; rfl
  regs := rfl
  shape := by rw [State.liveSlot_modLive]; exact hs
  window := by rw [State.liveSlot_modLive]; exact hw
  channels := by rw [State.liveSlot_modLive]; exact hc
  overlap := by rw [State.liveSlot_modLive]; exact hk

theorem EngineKeeps.fresh {s t : State} (h : EngineKeeps s t) (n : Nat) : EngineKeeps s { t with fresh := n } where
  state_eq := by
    have := h.state_eq
    show ({ t with fresh := n } : State) = _
    conv_lhs => rw [this]
    rfl
  regs := h.regs
  shape := h.shape
  window := h.window
  channels := h.channels
  overlap := h.overlap

theorem State.extract_keeps (kind : RingKind) (c : Nat) (s : State) : EngineKeeps s (s.extract kind c) :=
  EngineKeeps.of_modLive s (fun _ h => h.setScratch (by rw [length_overwrite]; exact h.scratch_length)) rfl rfl rfl

theorem State.applyWindow_keeps (s : State) : EngineKeeps s s.applyWindow :=
  EngineKeeps.of_modLive s (fun _ h => h.setScratch (by rw [length_mapFirst]; exact h.scratch_length)) rfl rfl rfl

theorem State.forward_keeps (s : State) : EngineKeeps s s.forward :=
  EngineKeeps.fresh (EngineKeeps.of_modLive s (fun _ h => h.setScratch (by simp)) rfl rfl rfl) _

theorem State.inverse_keeps (s : State) : EngineKeeps s s.inverse :=
  EngineKeeps.fresh (EngineKeeps.of_modLive s (fun _ h => h.setScratch (by simp)) rfl rfl rfl) _

theorem Slot.Built.scaleBins (h : S.Built nch) (p : Params) (c : Nat) : (S.scaleBins p c).Built nch :=
  { h with
    scratch_length := by simpa [Slot.scaleBins] using h.scratch_length
    env_length := by simpa [Slot.scaleBins] using h.env_length
    env_rows := by
      intro row hr
      obtain ⟨j, hj, rfl⟩ := List.mem_iff_getElem.mp hr
      simp only [Slot.scaleBins, List.length_mapIdx] at hj
      simp only [Slot.scaleBins, List.getElem_mapIdx]
      have hrow := h.env_rows _ (List.getElem_mem hj)
      split_ifs
      · simpa using hrow
      · exact hrow }

/-- BIN.SCALE writes of RT's registers `b`, `m`, `m2` and `s` alone (R176). -/
theorem RtRegs.afterBins_eq (p : Params) (S : Slot) (c : Nat) (r : RtRegs) :
    r.afterBins p S c =
      { r with
        b := (r.afterBins p S c).b, m := (r.afterBins p S c).m, m2 := (r.afterBins p S c).m2
        s := (r.afterBins p S c).s } := by
  unfold RtRegs.afterBins
  split_ifs <;> rfl

theorem State.binScale_keeps (c : Nat) (s : State) : EngineKeeps s (s.binScale c) :=
  have k := EngineKeeps.of_modLive (f := Slot.scaleBins s.params c) s (fun _ h => h.scaleBins s.params c) rfl rfl rfl
  { state_eq := by
      have := k.state_eq
      show ({ s.modLive (Slot.scaleBins s.params c) with rt := s.rt.afterBins s.params s.liveSlot c } : State) = _
      conv_lhs => rw [this]
      rfl
    regs := RtRegs.afterBins_eq _ _ _ _
    shape := k.shape
    window := k.window
    channels := k.channels
    overlap := k.overlap }

theorem State.overlapAdd_keeps (c n : Nat) (g : F32) (s : State) : EngineKeeps s (s.overlapAdd c n g) :=
  EngineKeeps.of_modLive s (fun _ h => h.modOutput c fun r => ⟨rfl, by simp, rfl, rfl⟩) rfl rfl rfl

theorem State.addFrame_keeps (c : Nat) (s : State) : EngineKeeps s (s.addFrame c) :=
  State.overlapAdd_keeps c _ _ s

theorem State.countWindow_keeps (s : State) : EngineKeeps s s.countWindow :=
  EngineKeeps.of_modLive s (fun _ h => h.setCount _) rfl rfl rfl

theorem State.analyze_keeps (c : Nat) (s : State) : EngineKeeps s (s.analyze c) :=
  ((State.extract_keeps .sidechain c s).trans (State.forward_keeps _)).trans
    (EngineKeeps.of_modLive _ (fun _ h => h.setAcc (by rw [length_mapFirst]; exact h.acc_length)) rfl rfl rfl)

theorem State.commit_keeps (s : State) : EngineKeeps s (s.modLive Slot.commit) :=
  EngineKeeps.of_modLive (f := Slot.commit) s
    (fun _ h => { h with
      thr_length := by simpa [Slot.commit] using h.thr_length
      acc_length := by simpa [Slot.commit] using h.acc_length }) rfl rfl rfl

theorem forChannels_engineKeeps {f : Nat → State → State} (hf : ∀ c t, EngineKeeps t (f c t)) (n : Nat) (s : State) :
    EngineKeeps s (forChannels n f s) := by
  induction n with
  | zero => exact EngineKeeps.refl s
  | succ n ih => rw [forChannels_succ]; exact ih.trans (hf n _)

theorem State.channelPass_keeps (c : Nat) (s : State) : EngineKeeps s (s.channelPass c) :=
  ((((((State.extract_keeps .input c s).trans (State.applyWindow_keeps _)).trans (State.forward_keeps _)).trans
    (State.binScale_keeps c _)).trans (State.inverse_keeps _)).trans (State.applyWindow_keeps _)).trans
    (State.addFrame_keeps c _)

theorem State.sidechainPhase_keeps (s : State) : EngineKeeps s s.sidechainPhase := by
  unfold State.sidechainPhase
  split_ifs
  · exact (forChannels_engineKeeps State.analyze_keeps _ s).trans (State.commit_keeps _)
  · exact EngineKeeps.refl s

/-- A processing cycle works on the live slot alone and keeps its shape (R170, R57). -/
theorem State.stftCycle_keeps (s : State) : EngineKeeps s s.stftCycle :=
  ((State.sidechainPhase_keeps s).trans (forChannels_engineKeeps State.channelPass_keeps _ _)).trans
    (State.countWindow_keeps _)

theorem State.bypassPass_keeps (c : Nat) (s : State) : EngineKeeps s (s.bypassPass c) :=
  (State.extract_keeps .input c s).trans (State.overlapAdd_keeps c _ _ _)

/-- A bypass cycle works on the live slot alone and keeps its shape (R182, R57). -/
theorem State.bypassCycle_keeps (s : State) : EngineKeeps s s.bypassCycle :=
  (forChannels_engineKeeps State.bypassPass_keeps _ s).trans (State.countWindow_keeps _)

theorem State.setRatio_keeps (r : F32) (s : State) : EngineKeeps s (s.setRatio r) :=
  EngineKeeps.of_modLive s (fun _ h => h.setRatio (by rw [length_mapFirst]; exact h.ratio_length)) rfl rfl rfl

theorem State.setTimes_keeps (a r : F32) (s : State) : EngineKeeps s (s.setTimes a r) :=
  EngineKeeps.of_modLive (f := fun S => { S with
      cteA := mapFirst (S.W / 2) (fun _ _ => cmpCte s.params a s.effectiveRate) S.cteA
      cteR := mapFirst (S.W / 2) (fun _ _ => cmpCte s.params r s.effectiveRate) S.cteR }) s
    (fun _ h => { h with
      cteA_length := by simpa using h.cteA_length
      cteR_length := by simpa using h.cteR_length }) rfl rfl rfl

theorem State.thresholdCurve_keeps (s : State) : EngineKeeps s s.thresholdCurve :=
  EngineKeeps.of_modLive (f := fun S => { S with
      thr := mapFirst (S.W / 2) (fun j _ => db2lin s.params (curveDecibels s.csr.baseThreshold
        (fDiv s.latch.sampleRate (fOfNat s.liveSlot.W)) (j + 1))) S.thr }) s
    (fun _ h => { h with thr_length := by simpa using h.thr_length }) rfl rfl rfl

theorem State.curveIfFixed_keeps (forced : Bool) (s : State) : EngineKeeps s (s.curveIfFixed forced) := by
  unfold State.curveIfFixed
  split_ifs
  · exact State.thresholdCurve_keeps s
  · exact EngineKeeps.refl s

/-- The copy of the overlap factor changes K alone (R213). -/
theorem State.copyOverlap_liveSlot (s : State) :
    s.copyOverlap.liveSlot = { s.liveSlot with K := s.csr.overlapFactor.toNat } :=
  State.liveSlot_modLive _ s

end Sys2Proof.Machine
end

