-- ==== Sys2Proof/Laws/Operands.lean ====
section
/-! SUPPORT. The operand forms of the ring operations: what a source reads and what a destination receives (spec R120). -/

namespace Sys2Proof.Machine

@[simp] theorem State.samples_length (s : State) (r : Region) (c off n : Nat) : (s.samples r c off n).length = n := by
  simp [State.samples]

theorem State.samples_elem (s : State) (r : Region) (c off n : Nat) {i : Nat} (hi : i < n) :
    elemAt (s.samples r c off n) i = s.sample r c (off + i) :=
  elemAt_map_range hi

/-- Element `i` of the source span. -/
theorem State.operandSource_elem (s : State) {i : Nat} (hi : i < s.rt.n.toNat) :
    elemAt s.operandSource i = s.sourceElem i := by
  unfold State.operandSource State.readSpan State.sourceElem
  cases s.op.src with
  | block r => exact State.samples_elem s r _ _ _ hi
  | scratch => exact elemAt_map_range hi

/-- A byte outside the samples written reads as before. -/
theorem State.byteAt_setSamples_of_outside (s : State) (r : Region) (c off : Nat) (vals : List F32) (a : Nat)
    (h : ¬ InSamples s.params r c off vals.length a) : (s.setSamples r c off vals).byteAt a = s.byteAt a := by
  simp only [State.byteAt, State.setSamples_mem, State.setSamples_epoch]
  rw [lookup_storeSamples_of_outside]
  intro j hj he
  by_contra hc
  exact h ⟨j, hj, he, by omega, by omega⟩

/-- Writing samples does what it says and nothing else. -/
theorem State.setSamples_become (s : State) (r : Region) (c off n : Nat) (vals : List F32) (f : Nat → F32)
    (hl : vals.length = n) (hv : ∀ i < n, elemAt vals i = f i) :
    SamplesBecome s r c off n f (s.setSamples r c off vals) where
  state_eq := rfl
  written := by
    intro i hi he
    rw [State.sample_setSamples_same s r c off vals i (by omega) he, ← hv i hi, elemAt_of_lt (by omega)]
  kept := fun a ha => State.byteAt_setSamples_of_outside s r c off vals a (by rw [hl]; exact ha)

/-- Writing the destination the operand registers select does what it says and nothing else (R120). -/
theorem State.writeDest_becomes (s : State) (vals : List F32) (f : Nat → F32) (hl : vals.length = s.rt.n.toNat)
    (hv : ∀ i < s.rt.n.toNat, elemAt vals i = f i) :
    DestBecomes s f (s.writeDest s.op.dst s.rt.c.toNat s.rt.off.toNat vals) := by
  unfold DestBecomes State.writeDest
  cases hd : s.op.dst with
  | none => rfl
  | some sp =>
    cases sp with
    | block r => exact State.setSamples_become s r _ _ _ vals f hl hv
    | scratch =>
      refine ⟨overwrite s.liveSlot.scratch vals, ⟨rfl, fun _ => rfl⟩, length_overwrite _ _, ?_⟩
      intro i hi
      rw [length_overwrite] at hi
      rw [elemAt_overwrite hi, hl]
      by_cases h : i < s.rt.n.toNat
      · rw [if_pos h, if_pos h, hv i h]
      · rw [if_neg h, if_neg h]

end Sys2Proof.Machine
end

