-- ==== Sys2Proof/Laws/Settings.lean ====
section
/-! SUPPORT. The settings update as one change of the live slot and GAIN (spec R210 to R215). -/

namespace Sys2Proof.Machine

theorem mapFirst_const {n : Nat} {x : List F32} (v : F32) (h : x.length = n) :
    mapFirst n (fun _ _ => v) x = List.replicate n v := by
  apply List.ext_getElem
  · simp [h]
  · intro i _ h2
    simp only [List.length_replicate] at h2
    simp [mapFirst, h2]

theorem mapFirst_eq_map_range {n : Nat} {x : List F32} (f : Nat → F32) (h : x.length = n) :
    mapFirst n (fun j _ => f j) x = (List.range n).map f := by
  apply List.ext_getElem
  · simp [h]
  · intro i _ h2
    simp only [List.length_map, List.length_range] at h2
    simp [mapFirst, h2]

/-- The live slot after a settings update (R210): K, ratio, coefficients and, unless sidechain-driven and not forced, the
thresholds. -/
def State.updatedSlot (s : State) (forced : Bool) : Slot :=
  let K := s.csr.overlapFactor.toNat
  let rate := fDiv s.latch.sampleRate (fOfNat (interval s.liveSlot.W K))
  let binHz := fDiv s.latch.sampleRate (fOfNat s.liveSlot.W)
  let B := s.liveSlot.W / 2
  { s.liveSlot with
    K := K
    ratio := mapFirst B (fun _ _ => s.csr.ratio) s.liveSlot.ratio
    cteA := mapFirst B (fun _ _ => cmpCte s.params s.csr.attackMs rate) s.liveSlot.cteA
    cteR := mapFirst B (fun _ _ => cmpCte s.params s.csr.releaseMs rate) s.liveSlot.cteR
    thr :=
      if !s.scEff || forced then
        mapFirst B (fun j _ => db2lin s.params (curveDecibels s.csr.baseThreshold binHz (j + 1))) s.liveSlot.thr
      else s.liveSlot.thr }

/-- Everything a settings update does (R210, R215). -/
theorem State.settingsUpdate_eq (forced : Bool) (s : State) :
    s.settingsUpdate forced =
      { s.setSlot s.live (s.updatedSlot forced) with
        gain := makeupGain s.csr.overlapFactor.toNat s.csr.ratio (s.csr.autoMakeup.getLsbD 0) s.scEff } := by
  simp only [State.settingsUpdate, State.curveIfFixed, State.thresholdCurve, State.setTimes, State.setRatio,
    State.copyOverlap, State.effectiveRate, State.updateGain, State.modLive_modLive, State.liveSlot_modLive,
    State.modLive_params, State.modLive_csr, State.modLive_latch, State.modLive_scEff, Slot.interval]
  by_cases h : (!s.scEff || forced) = true
  · rw [if_pos h]
    simp only [State.liveSlot_modLive, State.modLive_csr, State.modLive_scEff]
    simp only [State.updatedSlot, if_pos h]
    rfl
  · rw [if_neg h]
    simp only [State.liveSlot_modLive, State.modLive_csr, State.modLive_scEff]
    simp only [State.updatedSlot, if_neg h]
    rfl

end Sys2Proof.Machine
end

