-- ==== Sys2Proof/Laws/Stft.lean ====
section
/-! SUPPORT. The steps of a cycle, each as one change of the live slot (spec R161, R170 to R182). -/

namespace Sys2Proof.Machine

/-- A zero of either sign is a zero. -/
theorem fIsZero_fZeroLike (x : F32) : fIsZero (fZeroLike x) = true := by
  have h : fMagnitude (fZeroLike x) = 0 := by
    simp only [fMagnitude, fZeroLike, BitVec.toNat_and]
    have h2 : (0x80000000#32).toNat = 2 ^ 31 := rfl
    rw [h2]
    apply Nat.eq_of_testBit_eq
    intro i
    rw [Nat.testBit_mod_two_pow, Nat.testBit_and, Nat.testBit_two_pow]
    by_cases h : i < 31
    · simp [h, show (31 = i) = False from by simp; omega]
    · simp [h]
  simp [fIsZero, h]

/-- FFT_ZERO: zeros for zeros (R175, R177). -/
theorem zeroPreserving_of_zeros {x : List F32} (h : ∀ v ∈ x, fIsZero v = true) (y : F32) :
    fIsZero (zeroPreserving x y) = true := by
  have : x.all fIsZero = true := List.all_eq_true.mpr h
  simp only [zeroPreserving, this, if_true]
  exact fIsZero_fZeroLike y

/-- The bins the inverse transform reads are zeros when the buffer's are. -/
theorem inverseInput_zeros {W : Nat} {x : List F32} (h : ∀ v ∈ x, fIsZero v = true) :
    ∀ v ∈ inverseInput W x, fIsZero v = true := by
  intro v hv
  simp only [inverseInput] at hv
  rcases List.mem_or_eq_of_mem_set hv with hv | rfl
  · rcases List.mem_or_eq_of_mem_set hv with hv | rfl
    · exact h v (List.mem_of_mem_take hv)
    · rfl
  · rfl

/-- The frame of a window is its ring from the write cursor on. -/
theorem frameOf_elem (r : Ring) {W : Nat} (scratch : List F32) {j : Nat} (h : j < W) :
    elemAt (frameOf r W scratch) j = elemAt r.data ((r.pos + j) % W) := by
  unfold frameOf
  conv_lhs => unfold elemAt
  rw [List.getElem?_append_left (by simpa using h)]
  simp [h, elemAt]

theorem frameOf_length (r : Ring) {W : Nat} {scratch : List F32} (h : scratch.length = 2 * W) :
    (frameOf r W scratch).length = 2 * W := by
  simp [frameOf, h]
  omega

theorem overwrite_last (r : Ring) {W : Nat} {scratch : List F32} (hc : r.cap = W) (hs : scratch.length = 2 * W) :
    overwrite scratch (r.last W) = frameOf r W scratch := by
  apply eq_of_elemAt
  · rw [length_overwrite, frameOf_length r hs, hs]
  · intro j hj
    rw [length_overwrite] at hj
    rw [elemAt_overwrite hj, Ring.last_length]
    by_cases h : j < W
    · rw [if_pos h, Ring.last_elem r h (by omega), hc, frameOf_elem r scratch h,
        show r.pos + W - W + j = r.pos + j from by omega]
    · rw [if_neg h]
      unfold frameOf
      conv_rhs => unfold elemAt
      rw [List.getElem?_append_right (by simpa using h), List.getElem?_drop]
      simp only [List.length_map, List.length_range]
      rw [show W + (j - W) = j from by omega]
      rfl

/-- An extraction fills the scratch buffer with the ring's frame (R161, R172, R182). -/
theorem State.extract_eq {s : State} {nch : Nat} (hb : s.liveSlot.Built nch) {kind : RingKind} {c : Nat} {r : Ring}
    (hr : (s.liveSlot.rings kind)[c]? = some r) (hc : r.cap = s.liveSlot.W) :
    s.extract kind c =
      s.setSlot s.live { s.liveSlot with scratch := frameOf r s.liveSlot.W s.liveSlot.scratch } := by
  simp only [State.extract, State.modLive, Slot.ring_of_getElem? hr, overwrite_last r hc hb.scratch_length]

/-- The rings of a built slot in the channels it has. -/
theorem Slot.Built.ring_input {S : Slot} {nch : Nat} (h : S.Built nch) {c : Nat} (hc : c < nch) :
    ∃ r, S.inr[c]? = some r ∧ r.Sized S.W ∧ r.pos = S.cursor ∧ r.rpos = 0 := by
  have hl : c < S.inr.length := by rw [h.inr_length]; exact hc
  exact ⟨S.inr[c], List.getElem?_eq_getElem hl, h.input_rings _ (List.getElem_mem hl)⟩

theorem Slot.Built.ring_sidechain {S : Slot} {nch : Nat} (h : S.Built nch) {c : Nat} (hc : c < nch) :
    ∃ r, S.sidr[c]? = some r ∧ r.Sized S.W ∧ r.pos < S.W ∧ r.rpos = 0 := by
  have hl : c < S.sidr.length := by rw [h.sidr_length]; exact hc
  exact ⟨S.sidr[c], List.getElem?_eq_getElem hl, h.sidechain_rings _ (List.getElem_mem hl)⟩

theorem Slot.Built.ring_output {S : Slot} {nch : Nat} (h : S.Built nch) {c : Nat} (hc : c < nch) :
    ∃ r, S.outr[c]? = some r ∧ r.Sized S.W ∧ r.rpos = S.cursor ∧ r.pos = 0 := by
  have hl : c < S.outr.length := by rw [h.outr_length]; exact hc
  exact ⟨S.outr[c], List.getElem?_eq_getElem hl, h.output_rings _ (List.getElem_mem hl)⟩

/-- The counter after one more window (R52, R180). -/
theorem countAfter_toNat (n : Word) : (countAfter n).toNat = min (n.toNat + 1) (2 ^ 32 - 1) := by
  have := n.isLt
  unfold countAfter
  split_ifs with h
  · rw [BitVec.toNat_add]
    simp only [BitVec.toNat_ofNat]
    omega
  · omega

/-- The parts of bin `b` after BIN.SCALE, and the envelopes (R176). -/
theorem Slot.scaleBins_elem {S : Slot} {nch : Nat} (h : S.Built nch) (p : Params) (c : Nat) {b : Nat} (h1 : 1 ≤ b)
    (h2 : b ≤ S.W / 2) :
    elemAt (S.scaleBins p c).scratch (2 * b) = fMul (elemAt S.scratch (2 * b)) (S.binFactor p c b) ∧
      elemAt (S.scaleBins p c).scratch (2 * b + 1) = fMul (elemAt S.scratch (2 * b + 1)) (S.binFactor p c b) ∧
      (S.scaleBins p c).env[b - 1]? = (S.env[b - 1]?).map fun row => row.set c (S.binCompressed p c b).1 := by
  have hs := h.scratch_length
  have hd : (2 * b + 1) / 2 = b := by omega
  have hd' : 2 * b / 2 = b := by omega
  have hj : b - 1 < S.W / 2 := by omega
  have l0 : 2 * b < S.scratch.length := by omega
  have l1 : 2 * b + 1 < S.scratch.length := by omega
  refine ⟨?_, ?_, ?_⟩
  · simp [Slot.scaleBins, elemAt, l0, hd', h1, h2]
  · simp [Slot.scaleBins, elemAt, l1, hd, h1, h2]
  · simp only [Slot.scaleBins, List.getElem?_mapIdx]
    cases S.env[b - 1]? with
    | none => rfl
    | some row => simp [hj, show b - 1 + 1 = b from by omega]

/-- The elements BIN.SCALE does not touch: bin 0 and all above bin W/2 (R176). -/
theorem Slot.scaleBins_kept (S : Slot) (p : Params) (c : Nat) {i : Nat} (h : i < 2 ∨ 2 * (S.W / 2) + 2 ≤ i) :
    (S.scaleBins p c).scratch[i]? = S.scratch[i]? := by
  simp only [Slot.scaleBins, List.getElem?_mapIdx]
  have : ¬ (1 ≤ i / 2 ∧ i / 2 ≤ S.W / 2) := by omega
  simp [this]

end Sys2Proof.Machine
end

