-- ==== Sys2Proof/Laws/Cycle.lean ====
section
/-! SUPPORT. A processing cycle as the micro-operations it issues, and what it changes of the live slot (spec R160, R170,
R171, R182). -/

namespace Sys2Proof.Machine

/-! ## Micro-operations one after another -/

theorem issueAll_append {l1 l2 : List (Nat × Instr)} {s t : State} (h : issueAll l1 s = .next t) :
    issueAll (l1 ++ l2) s = issueAll l2 t := by
  induction l1 generalizing s with
  | nil => cases h; rfl
  | cons x xs ih =>
    obtain ⟨c, i⟩ := x
    simp only [issueAll, List.cons_append] at h ⊢
    split at h <;> rename_i hx
    · exact ih h
    · cases h
    · cases h

/-- RT's channel register set. -/
def State.setChannel (c : Word) (s : State) : State := { s with rt := { s.rt with c := c } }

/-- A list of micro-operations has the effect `f` on the state, but for the channel register, which `f` neither reads nor
writes. -/
structure Runs (l : List (Nat × Instr)) (f : State → State) : Prop where
  run : ∀ t, ∃ c, issueAll l t = .next ((f t).setChannel c)
  reads_no_channel : ∀ t c, f (t.setChannel c) = (f t).setChannel c
  writes_no_channel : ∀ t, (f t).rt.c = t.rt.c

theorem Runs.nil : Runs [] (fun t => t) := ⟨fun t => ⟨t.rt.c, rfl⟩, fun _ _ => rfl, fun _ => rfl⟩

theorem Runs.append {l1 l2 : List (Nat × Instr)} {f g : State → State} (h1 : Runs l1 f) (h2 : Runs l2 g) :
    Runs (l1 ++ l2) (fun t => g (f t)) where
  run t := by
    obtain ⟨c, hc⟩ := h1.run t
    obtain ⟨c', hc'⟩ := h2.run ((f t).setChannel c)
    exact ⟨c', by rw [issueAll_append hc, hc', h2.reads_no_channel]; rfl⟩
  reads_no_channel t c := by rw [h1.reads_no_channel, h2.reads_no_channel]
  writes_no_channel t := by rw [h2.writes_no_channel, h1.writes_no_channel]

theorem Runs.one {c : Nat} {i : Instr} {f : State → State}
    (h : ∀ t : State, exec i (t.setChannel (BitVec.ofNat 32 c)) = .next (f (t.setChannel (BitVec.ofNat 32 c))))
    (hr : ∀ t c, f (t.setChannel c) = (f t).setChannel c) (hw : ∀ t, (f t).rt.c = t.rt.c) : Runs [(c, i)] f where
  run t := ⟨BitVec.ofNat 32 c, by
    have e : issueAll [(c, i)] t =
        match exec i (t.setChannel (BitVec.ofNat 32 c)) with
        | .next u => .next u
        | .fault f => .fault f
        | .refused r => .refused r := rfl
    rw [e, h t, hr]⟩
  reads_no_channel := hr
  writes_no_channel := hw

/-- The operations of the channels 0 to n - 1 one after another. -/
theorem Runs.loop {p : Nat → List (Nat × Instr)} {f : Nat → State → State} (n : Nat) (h : ∀ c < n, Runs (p c) (f c)) :
    Runs ((List.range n).flatMap p) (forChannels n f) := by
  induction n with
  | zero => exact Runs.nil
  | succ n ih =>
    have e1 : (List.range (n + 1)).flatMap p = (List.range n).flatMap p ++ p n := by simp [List.range_succ]
    have e2 : forChannels (n + 1) f = fun t => f n (forChannels n f t) := funext fun t => forChannels_succ n f t
    rw [e1, e2]
    exact (ih fun c hc => h c (by omega)).append (h n (by omega))

/-- The channel register holds a channel number below 2^32. -/
theorem State.setChannel_channel {c : Nat} (h : c < 2 ^ 32) (s : State) :
    (s.setChannel (BitVec.ofNat 32 c)).rt.c.toNat = c := by
  show (BitVec.ofNat 32 c).toNat = c
  rw [BitVec.toNat_ofNat, Nat.mod_eq_of_lt h]

/-- A micro-operation of one channel. -/
theorem Runs.channel {c : Nat} (hc : c < 2 ^ 32) {i : Instr} {f : Nat → State → State}
    (h : ∀ t : State, exec i t = .next (f t.rt.c.toNat t)) (hr : ∀ t x, f c (t.setChannel x) = (f c t).setChannel x)
    (hw : ∀ t, (f c t).rt.c = t.rt.c) : Runs [(c, i)] (f c) :=
  Runs.one (fun t => by rw [h, State.setChannel_channel hc]) hr hw

theorem runs_stftExtract {c : Nat} (hc : c < 2 ^ 32) : Runs [(c, .stftExtract)] (State.extract .input c) :=
  Runs.channel hc (f := State.extract .input) (fun _ => rfl) (fun _ _ => rfl) (fun _ => rfl)

theorem runs_stftWinA (c : Nat) : Runs [(c, .stftWinA)] State.applyWindow :=
  Runs.one (fun _ => rfl) (fun _ _ => rfl) (fun _ => rfl)

theorem runs_fftFwd (c : Nat) : Runs [(c, .fftFwd)] State.forward :=
  Runs.one (fun _ => rfl) (fun _ _ => rfl) (fun _ => rfl)

theorem State.binScale_setChannel (c : Nat) (x : Word) (t : State) :
    State.binScale c (t.setChannel x) = (State.binScale c t).setChannel x := by
  show ({ t.modLive (Slot.scaleBins t.params c) with
      rt := RtRegs.afterBins t.params t.liveSlot c { t.rt with c := x } } : State) =
    { t.modLive (Slot.scaleBins t.params c) with rt := { t.rt.afterBins t.params t.liveSlot c with c := x } }
  unfold RtRegs.afterBins
  split_ifs <;> rfl

theorem runs_binScale {c : Nat} (hc : c < 2 ^ 32) : Runs [(c, .binScale)] (State.binScale c) :=
  Runs.channel hc (fun _ => rfl) (fun t x => State.binScale_setChannel c x t)
    (fun t => by
      show (t.rt.afterBins t.params t.liveSlot c).c = t.rt.c
      rw [RtRegs.afterBins_eq])

theorem runs_fftInv (c : Nat) : Runs [(c, .fftInv)] State.inverse :=
  Runs.one (fun _ => rfl) (fun _ _ => rfl) (fun _ => rfl)

theorem runs_stftWinS (c : Nat) : Runs [(c, .stftWinS)] State.applyWindow :=
  Runs.one (fun _ => rfl) (fun _ _ => rfl) (fun _ => rfl)

theorem runs_stftOla {c : Nat} (hc : c < 2 ^ 32) : Runs [(c, .stftOla)] (State.addFrame c) :=
  Runs.channel hc (fun _ => rfl) (fun _ _ => rfl) (fun _ => rfl)

theorem runs_stftCount (c : Nat) : Runs [(c, .stftCount)] State.countWindow :=
  Runs.one (fun _ => rfl) (fun _ _ => rfl) (fun _ => rfl)

theorem runs_scAnalyze {c : Nat} (hc : c < 2 ^ 32) : Runs [(c, .scAnalyze)] (State.analyze c) :=
  Runs.channel hc (fun _ => rfl) (fun _ _ => rfl) (fun _ => rfl)

theorem runs_aggCommit (c : Nat) : Runs [(c, .aggCommit)] (State.modLive Slot.commit) :=
  Runs.one (fun _ => rfl) (fun _ _ => rfl) (fun _ => rfl)

/-! ## What a cycle changes of a slot -/

/-- The cursors of a list of rings. -/
def ringCursors (l : List Ring) : List (Nat × Nat × Nat) := l.map fun r => (r.cap, r.pos, r.rpos)

/-- `T` is `S` but for what a cycle of one channel writes: the scratch buffer, the envelopes and the samples of the output
rings, whose cursors stand (R171). -/
structure Slot.ChannelShape (S T : Slot) : Prop where
  slot_eq : T = { S with scratch := T.scratch, env := T.env, outr := T.outr }
  cursors : ringCursors T.outr = ringCursors S.outr

/-- As `ChannelShape`, with the thresholds and accumulators of the sidechain phase (R160). -/
structure Slot.PhaseShape (S T : Slot) : Prop where
  slot_eq : T = { S with scratch := T.scratch, env := T.env, outr := T.outr, thr := T.thr, acc := T.acc }
  cursors : ringCursors T.outr = ringCursors S.outr

theorem Slot.ChannelShape.refl (S : Slot) : S.ChannelShape S := ⟨rfl, rfl⟩

theorem Slot.PhaseShape.refl (S : Slot) : S.PhaseShape S := ⟨rfl, rfl⟩

theorem Slot.ChannelShape.trans {S T U : Slot} (h : S.ChannelShape T) (k : T.ChannelShape U) : S.ChannelShape U :=
  ⟨by have e := k.slot_eq
      rw [h.slot_eq] at e
      exact e, k.cursors.trans h.cursors⟩

theorem Slot.PhaseShape.trans {S T U : Slot} (h : S.PhaseShape T) (k : T.PhaseShape U) : S.PhaseShape U :=
  ⟨by have e := k.slot_eq
      rw [h.slot_eq] at e
      exact e, k.cursors.trans h.cursors⟩

theorem Slot.ChannelShape.phase {S T : Slot} (h : S.ChannelShape T) : S.PhaseShape T :=
  ⟨by have e := h.slot_eq
      rw [e], h.cursors⟩

theorem ringCursors_modify {l : List Ring} {c : Nat} {f : Ring → Ring}
    (hf : ∀ r, ((f r).cap, (f r).pos, (f r).rpos) = (r.cap, r.pos, r.rpos)) : ringCursors (l.modify c f) = ringCursors l := by
  apply List.ext_getElem?
  intro i
  simp only [ringCursors, List.getElem?_map, List.getElem?_modify]
  cases l[i]? with
  | none => rfl
  | some r =>
    by_cases hc : c = i
    · simp [hc, hf]
    · simp [hc]

/-- The live slot after an operation that keeps it within a shape. -/
theorem State.modLive_channelShape (f : Slot → Slot) (s : State) (h : s.liveSlot.ChannelShape (f s.liveSlot)) :
    s.liveSlot.ChannelShape (s.modLive f).liveSlot := by
  rw [State.liveSlot_modLive]; exact h

theorem State.extract_channelShape (kind : RingKind) (c : Nat) (s : State) :
    s.liveSlot.ChannelShape (s.extract kind c).liveSlot :=
  State.modLive_channelShape _ s ⟨rfl, rfl⟩

theorem State.applyWindow_channelShape (s : State) : s.liveSlot.ChannelShape s.applyWindow.liveSlot :=
  State.modLive_channelShape _ s ⟨rfl, rfl⟩

theorem State.forward_channelShape (s : State) : s.liveSlot.ChannelShape s.forward.liveSlot :=
  State.modLive_channelShape (fun S => { S with scratch := fftForward S.W s.fresh S.scratch }) s ⟨rfl, rfl⟩

theorem State.inverse_channelShape (s : State) : s.liveSlot.ChannelShape s.inverse.liveSlot :=
  State.modLive_channelShape (fun S => { S with scratch := fftInverse S.W s.fresh S.scratch }) s ⟨rfl, rfl⟩

theorem State.binScale_channelShape (c : Nat) (s : State) : s.liveSlot.ChannelShape (s.binScale c).liveSlot :=
  State.modLive_channelShape (Slot.scaleBins s.params c) s ⟨rfl, rfl⟩

theorem State.overlapAdd_channelShape (c n : Nat) (g : F32) (s : State) :
    s.liveSlot.ChannelShape (s.overlapAdd c n g).liveSlot :=
  State.modLive_channelShape _ s ⟨rfl, ringCursors_modify fun _ => rfl⟩

/-- One channel of a cycle (R170). -/
theorem State.channelPass_channelShape (c : Nat) (s : State) : s.liveSlot.ChannelShape (s.channelPass c).liveSlot :=
  ((((((State.extract_channelShape .input c s).trans (State.applyWindow_channelShape _)).trans
    (State.forward_channelShape _)).trans (State.binScale_channelShape c _)).trans (State.inverse_channelShape _)).trans
    (State.applyWindow_channelShape _)).trans (State.overlapAdd_channelShape c _ _ _)

/-- One channel of a bypass cycle (R182). -/
theorem State.bypassPass_channelShape (c : Nat) (s : State) : s.liveSlot.ChannelShape (s.bypassPass c).liveSlot :=
  (State.extract_channelShape .input c s).trans (State.overlapAdd_channelShape c _ _ _)

theorem forChannels_channelShape {f : Nat → State → State}
    (h : ∀ c t, (t : State).liveSlot.ChannelShape (f c t).liveSlot) (n : Nat) (s : State) :
    s.liveSlot.ChannelShape (forChannels n f s).liveSlot := by
  induction n with
  | zero => exact Slot.ChannelShape.refl _
  | succ n ih => rw [forChannels_succ]; exact ih.trans (h n _)

theorem forChannels_phaseShape {f : Nat → State → State}
    (h : ∀ c t, (t : State).liveSlot.PhaseShape (f c t).liveSlot) (n : Nat) (s : State) :
    s.liveSlot.PhaseShape (forChannels n f s).liveSlot := by
  induction n with
  | zero => exact Slot.PhaseShape.refl _
  | succ n ih => rw [forChannels_succ]; exact ih.trans (h n _)

/-- The analysis of one sidechain channel (R161). -/
theorem State.analyze_phaseShape (c : Nat) (s : State) : s.liveSlot.PhaseShape (s.analyze c).liveSlot := by
  have h := ((State.extract_channelShape .sidechain c s).trans (State.forward_channelShape _)).phase
  refine h.trans ?_
  unfold State.analyze
  rw [State.liveSlot_modLive]
  exact ⟨rfl, rfl⟩

/-- The sidechain phase of a cycle (R160). -/
theorem State.sidechainPhase_phaseShape (s : State) : s.liveSlot.PhaseShape s.sidechainPhase.liveSlot := by
  unfold State.sidechainPhase
  split_ifs
  · refine (forChannels_phaseShape State.analyze_phaseShape s.liveSlot.nch s).trans ?_
    rw [State.liveSlot_modLive]
    exact ⟨rfl, rfl⟩
  · exact Slot.PhaseShape.refl _

/-! ## The window counter and the input rings over a whole cycle (R52, R171, R182) -/

theorem State.stftCycle_liveSlot (s : State) :
    s.stftCycle.liveSlot.count = countAfter s.liveSlot.count ∧ s.stftCycle.liveSlot.inr = s.liveSlot.inr := by
  have hl : s.stftCycle.liveSlot =
      { (forChannels s.liveSlot.nch State.channelPass s.sidechainPhase).liveSlot with
        count := countAfter (forChannels s.liveSlot.nch State.channelPass s.sidechainPhase).liveSlot.count } :=
    State.liveSlot_modLive _ _
  have h := (State.sidechainPhase_phaseShape s).trans
    (forChannels_channelShape State.channelPass_channelShape s.liveSlot.nch s.sidechainPhase).phase
  rw [hl]
  generalize (forChannels s.liveSlot.nch State.channelPass s.sidechainPhase) = t at h
  constructor
  · show countAfter t.liveSlot.count = _
    rw [h.slot_eq]
  · show t.liveSlot.inr = _
    rw [h.slot_eq]

theorem State.bypassCycle_liveSlot (s : State) :
    s.bypassCycle.liveSlot.count = countAfter s.liveSlot.count ∧ s.bypassCycle.liveSlot.inr = s.liveSlot.inr := by
  have hl : s.bypassCycle.liveSlot =
      { (forChannels s.liveSlot.nch State.bypassPass s).liveSlot with
        count := countAfter (forChannels s.liveSlot.nch State.bypassPass s).liveSlot.count } :=
    State.liveSlot_modLive _ _
  have h := forChannels_channelShape State.bypassPass_channelShape s.liveSlot.nch s
  rw [hl]
  generalize (forChannels s.liveSlot.nch State.bypassPass s) = t at h
  constructor
  · show countAfter t.liveSlot.count = _
    rw [h.slot_eq]
  · show t.liveSlot.inr = _
    rw [h.slot_eq]

end Sys2Proof.Machine
end

