-- ==== Sys2Proof/Laws/Decode.lean ====
section
/-! SUPPORT. Words as OPC and ARG, and which row of the opcode table a word selects (spec R100 to R106). -/

namespace Sys2Proof

/-- A word is its OPC and its ARG. -/
theorem word_eq_opc_arg (w : Word) : opcOf w ++ w.extractLsb' 0 24 = w := by
  simp only [opcOf]
  rw [BitVec.extractLsb'_append_extractLsb'_eq_extractLsb' (by rfl)]
  exact BitVec.extractLsb'_eq_self

@[simp] theorem opcOf_append (o : Byte) (a : BitVec 24) : opcOf (o ++ a) = o := by
  apply BitVec.eq_of_toNat_eq
  have ho := o.isLt
  have ha := a.isLt
  simp only [opcOf, BitVec.extractLsb'_toNat, BitVec.toNat_append, Nat.shiftLeft_eq]
  rw [Nat.mul_comm, ← Nat.two_pow_add_eq_or_of_lt ha, Nat.shiftRight_eq_div_pow]
  omega

@[simp] theorem argOf_append (o : Byte) (a : BitVec 24) : argOf (o ++ a) = a.toNat := by
  have ha := a.isLt
  simp only [argOf, BitVec.extractLsb'_toNat, BitVec.toNat_append, Nat.shiftLeft_eq]
  rw [Nat.mul_comm, ← Nat.two_pow_add_eq_or_of_lt ha, Nat.shiftRight_zero]
  omega

theorem argOf_toNat (w : Word) : (w.extractLsb' 0 24).toNat = argOf w := rfl

theorem argOf_lt (w : Word) : argOf w < 2 ^ 24 := (w.extractLsb' 0 24).isLt

@[simp] theorem opcOf_encode (i : Instr) : opcOf (encode i) = BitVec.ofNat 8 i.opcode := by
  simp only [encode, opcOf_append]

theorem argOf_encode (i : Instr) (h : i.arg < 2 ^ 24) : argOf (encode i) = i.arg := by
  simp only [encode, argOf_append, BitVec.toNat_ofNat]
  omega

/-- A fixed row matches its one word. -/
theorem match_fixed (o : Byte) (a : BitVec 24) (opc : Byte) :
    ((o ++ a) &&& 0xFFFFFFFF#32 == opc ++ 0#24) = (o == opc && a == 0#24) := by
  have e : (o ++ a) &&& 0xFFFFFFFF#32 = o ++ a := by
    have := BitVec.and_allOnes (x := o ++ a)
    simpa using this
  rw [e]
  by_cases h : o = opc ∧ a = 0#24
  · obtain ⟨rfl, rfl⟩ := h; simp
  · have h1 : (o == opc && a == 0#24) = false := by
      rw [Bool.and_eq_false_iff]
      by_cases ho : o = opc
      · right; simpa using fun ha => h ⟨ho, ha⟩
      · left; simpa using ho
    have h2 : o ++ a ≠ opc ++ 0#24 := by
      intro hc
      refine h ⟨?_, ?_⟩
      · have := congrArg opcOf hc; simpa using this
      · have := congrArg argOf hc
        simp only [argOf_append] at this
        exact BitVec.eq_of_toNat_eq this
    rw [h1]
    simpa using h2

/-- A row with a free ARG matches every word of its OPC. -/
theorem match_arg (o : Byte) (a : BitVec 24) (opc : Byte) :
    ((o ++ a) &&& 0xFF000000#32 == opc ++ 0#24) = (o == opc) := by
  have e : (o ++ a) &&& 0xFF000000#32 = o ++ 0#24 := by
    have h : (0xFF000000#32 : Word) = 0xFF#8 ++ 0#24 := by decide
    rw [h, BitVec.and_append, BitVec.and_zero]
    have := BitVec.and_allOnes (x := o)
    congr 1
  rw [e]
  by_cases h : o = opc
  · subst h; simp
  · have h2 : o ++ 0#24 ≠ opc ++ 0#24 := by
      intro hc
      have := congrArg opcOf hc
      exact h (by simpa using this)
    simp [h, h2]

/-- Rows whose one word has ARG 0 match no word with another ARG. -/
theorem find_fixed_eq_none {l : List OpcodeRow}
    (hl : ∀ r ∈ l, r.mask = 0xFFFFFFFF#32 ∧ opcOf r.pattern ++ 0#24 = r.pattern) (o : Byte) {a : BitVec 24}
    (ha : a ≠ 0#24) : l.find? (fun r => (o ++ a) &&& r.mask == r.pattern) = none := by
  rw [List.find?_eq_none]
  intro r hr
  obtain ⟨h1, h2⟩ := hl r hr
  rw [h1, ← h2, match_fixed]
  simp [ha]

/-- A word with a non-zero ARG selects PROCESS, PROCESS_BYPASSED or nothing (R102, R104). -/
theorem rowOf_of_arg_ne_zero (o : Byte) {a : BitVec 24} (ha : a ≠ 0#24) :
    rowOf (o ++ a) =
      if o = 3#8 then some (argRow "PROCESS" 0x03 .process)
      else if o = 4#8 then some (argRow "PROCESS_BYPASSED" 0x04 .processBypassed)
      else none := by
  have split : opcodeTable =
      [fixedRow "NOP" 0x00 .nop, fixedRow "PREPARE" 0x01 .prepare, fixedRow "RELEASE" 0x02 .release] ++
      ([argRow "PROCESS" 0x03 .process, argRow "PROCESS_BYPASSED" 0x04 .processBypassed] ++
      ([fixedRow "NOTIFY_SETTINGS" 0x05 .notifySettings, fixedRow "NOTIFY_WINDOW" 0x06 .notifyWindow] ++
        (microRowsLow ++ microRowsStft ++ microRowsHigh))) := rfl
  have p3 : (argRow "PROCESS" 0x03 .process).pattern = 3#8 ++ 0#24 := by decide
  have p4 : (argRow "PROCESS_BYPASSED" 0x04 .processBypassed).pattern = 4#8 ++ 0#24 := by decide
  simp only [rowOf, split, List.find?_append]
  rw [find_fixed_eq_none (by decide) o ha,
    find_fixed_eq_none (l := microRowsLow) (by decide) o ha,
    find_fixed_eq_none (l := microRowsStft) (by decide) o ha,
    find_fixed_eq_none (l := microRowsHigh) (by decide) o ha,
    find_fixed_eq_none
      (l := [fixedRow "NOTIFY_SETTINGS" 0x05 .notifySettings, fixedRow "NOTIFY_WINDOW" 0x06 .notifyWindow])
      (by decide) o ha]
  have m3 : ((o ++ a) &&& (argRow "PROCESS" 0x03 .process).mask
      == (argRow "PROCESS" 0x03 .process).pattern) = (o == 3#8) := by rw [p3]; exact match_arg o a 3#8
  have m4 : ((o ++ a) &&& (argRow "PROCESS_BYPASSED" 0x04 .processBypassed).mask
      == (argRow "PROCESS_BYPASSED" 0x04 .processBypassed).pattern) = (o == 4#8) := by
    rw [p4]; exact match_arg o a 4#8
  simp only [List.find?_cons, m3, m4, List.find?_nil]
  by_cases h3 : o = 3#8
  · simp [h3]
  · by_cases h4 : o = 4#8
    · simp [h4]
    · rw [beq_eq_false_iff_ne.mpr h3, beq_eq_false_iff_ne.mpr h4]
      simp [h3, h4]

/-- What a word with a non-zero ARG decodes to. -/
theorem decode_of_arg_ne_zero (o : Byte) {a : BitVec 24} (ha : a ≠ 0#24) {i : Instr} :
    decode (o ++ a) = .ok i ↔ (o = 3#8 ∧ i = .process a.toNat) ∨ (o = 4#8 ∧ i = .processBypassed a.toNat) := by
  simp only [decode, rowOf_of_arg_ne_zero o ha, argOf_append]
  by_cases h3 : o = 3#8
  · subst h3
    simp [argRow, eq_comm]
  · by_cases h4 : o = 4#8
    · subst h4
      simp [argRow, eq_comm]
    · simp only [h3, h4, if_false, false_and, or_self, iff_false]
      split_ifs <;> simp

end Sys2Proof
end

