-- ==== Sys2Proof/Laws/Float.lean ====
section
/-! SUPPORT. Exact cases of the binary32 arithmetic: 1.0 is neutral, a value divided by itself is 1.0 (spec R18, R141,
R176); the reference core's corner cases (R146) and the window table's first coefficient (R46). -/

namespace Sys2Proof.Machine

/-- A bit pattern is its sign and its magnitude. -/
theorem fWithSign_fSign (a : F32) : fWithSign (fSign a) (fMagnitude a) = a := by
  have ha := a.isLt
  have hs : fSign a = decide (2 ^ 31 ≤ a.toNat) := by
    unfold fSign
    rw [← BitVec.msb_eq_getLsbD_last a, BitVec.msb_eq_decide]
  apply BitVec.eq_of_toNat_eq
  simp only [fWithSign, fMagnitude, BitVec.toNat_ofNat, hs, decide_eq_true_eq]
  split_ifs <;> omega

theorem fMagnitude_fields (a : F32) : fMagnitude a = fExpField a * 2 ^ 23 + fFracField a := by
  have ha := a.isLt
  simp only [fMagnitude, fExpField, fFracField]
  omega

theorem fFracField_lt (a : F32) : fFracField a < 2 ^ 23 := Nat.mod_lt _ (by decide)

/-- Zeros below a number move its top bit up. -/
theorem log2_two_pow_mul (k : Nat) {n : Nat} (h : n ≠ 0) : (2 ^ k * n).log2 = k + n.log2 := by
  have hp : 2 ^ k * n ≠ 0 := Nat.mul_ne_zero (by positivity) h
  have h1 := Nat.log2_self_le h
  have h2 := Nat.lt_log2_self (n := n)
  apply (Nat.log2_eq_iff hp).mpr
  constructor
  · rw [Nat.pow_add]; exact Nat.mul_le_mul_left _ h1
  · rw [Nat.add_assoc, Nat.pow_add]
    exact Nat.mul_lt_mul_of_pos_left h2 (by positivity)

/-- The significand and the exponent of a subnormal value and of a normal one. -/
theorem fSig_cases (a : F32) :
    (fExpField a = 0 ∧ fSig a = fFracField a ∧ fExp a = -149) ∨
      (0 < fExpField a ∧ fSig a = fFracField a + 2 ^ 23 ∧ fExp a = (fExpField a : Int) - 150) := by
  by_cases he : fExpField a = 0
  · left; exact ⟨he, by simp [fSig, he], by simp [fExp, he]⟩
  · right
    have : Nat.max (fExpField a) 1 = fExpField a := Nat.max_eq_left (by omega)
    exact ⟨by omega, by simp [fSig, he], by simp only [fExp, this]⟩

/-- Rounding drops zero bits below the last place exactly. -/
theorem fRoundMagnitude_exact {k m : Nat} {e q : Int} (hm : m ≠ 0) (hk : (k : Int) = q - e) (h0 : 0 < k)
    (hq : max (e + ((k + m.log2 : Nat) : Int) - 23) (-149) = q) :
    fRoundMagnitude (2 ^ k * m) e = min ((q + 149).toNat * 2 ^ 23 + m) 0x7F800000 := by
  have hp : 2 ^ k * m ≠ 0 := Nat.mul_ne_zero (by positivity) hm
  have hd : (q - e).toNat = k := by omega
  have hpos : 0 < 2 ^ k := by positivity
  unfold fRoundMagnitude
  rw [if_neg hp]
  simp only [log2_two_pow_mul k hm, hq]
  have hqe : ¬ q ≤ e := by omega
  rw [if_neg hqe, hd, Nat.mul_mod_right, Nat.mul_div_cancel_left _ hpos]
  have hc : ¬ (2 * 0 > 2 ^ k ∨ (2 * 0 = 2 ^ k ∧ m % 2 = 1)) := by
    rintro (h | ⟨h, -⟩) <;> omega
  rw [if_neg hc]

/-- The significand of a finite value with 23 zero bits below it rounds to the value. -/
theorem fRoundMagnitude_self {a : F32} (h : fIsFinite a = true) :
    fRoundMagnitude (2 ^ 23 * fSig a) (fExp a - 23) = fMagnitude a := by
  have hm := fMagnitude_fields a
  have hf := fFracField_lt a
  have hfin : fMagnitude a < 0x7F800000 := by simpa [fIsFinite] using h
  by_cases h0 : fSig a = 0
  · have hz : fMagnitude a = 0 := by
      rcases fSig_cases a with ⟨he, hs, -⟩ | ⟨he, hs, -⟩ <;> omega
    rw [h0, hz]
    simp [fRoundMagnitude]
  · have hq : max (fExp a - 23 + ((23 + (fSig a).log2 : Nat) : Int) - 23) (-149) = fExp a := by
      rcases fSig_cases a with ⟨he, hs, hx⟩ | ⟨he, hs, hx⟩
      · have hlt : (fSig a).log2 < 23 := by
          rw [Nat.log2_lt h0, hs]; exact hf
        omega
      · have hl : (fSig a).log2 = 23 := by
          apply (Nat.log2_eq_iff h0).mpr
          rw [hs]
          constructor <;> omega
        omega
    rw [fRoundMagnitude_exact h0 (by omega) (by omega) hq]
    rcases fSig_cases a with ⟨he, hs, hx⟩ | ⟨he, hs, hx⟩ <;> omega

theorem not_nan_of_finite {a : F32} (h : fIsFinite a = true) : fIsNaN a = false := by
  simp only [fIsFinite, fIsNaN, decide_eq_true_eq, decide_eq_false_iff_not] at *
  omega

theorem not_inf_of_finite {a : F32} (h : fIsFinite a = true) : fIsInf a = false := by
  simp only [fIsFinite, fIsInf, decide_eq_true_eq, beq_eq_false_iff_ne] at *
  omega

/-- A value that is neither a NaN nor an infinity is finite. -/
theorem finite_of_not {a : F32} (h1 : fIsNaN a = false) (h2 : fIsInf a = false) : fIsFinite a = true := by
  simp only [fIsFinite, fIsNaN, fIsInf, decide_eq_true_eq, decide_eq_false_iff_not, beq_eq_false_iff_ne] at *
  omega

theorem fMagnitude_of_inf {a : F32} (h : fIsInf a = true) : fMagnitude a = 0x7F800000 := by simpa [fIsInf] using h

/-- `1.0 *f m` is `m` but for a NaN. -/
theorem fMul_one_left {m : F32} (h : fIsNaN m = false) : fMul fOne m = m := by
  have n1 : fIsNaN fOne = false := by decide
  have i1 : fIsInf fOne = false := by decide
  have z1 : fIsZero fOne = false := by decide
  have s1 : fSign fOne = false := by decide
  have g1 : fSig fOne = 2 ^ 23 := by decide
  have e1 : fExp fOne = -23 := by decide
  simp only [fMul, n1, h, i1, z1, s1, Bool.or_self, Bool.false_eq_true, if_false, Bool.false_bne, g1, e1]
  by_cases hi : fIsInf m = true
  · rw [if_pos hi, ← fMagnitude_of_inf hi]; exact fWithSign_fSign m
  · rw [if_neg hi, fRound, show (-23 : Int) + fExp m = fExp m - 23 from by omega,
      fRoundMagnitude_self (finite_of_not h (by simpa using hi))]
    exact fWithSign_fSign m

/-- `m *f 1.0` is `m` but for a NaN. -/
theorem fMul_one_right {m : F32} (h : fIsNaN m = false) : fMul m fOne = m := by
  have n1 : fIsNaN fOne = false := by decide
  have i1 : fIsInf fOne = false := by decide
  have z1 : fIsZero fOne = false := by decide
  have s1 : fSign fOne = false := by decide
  have g1 : fSig fOne = 2 ^ 23 := by decide
  have e1 : fExp fOne = -23 := by decide
  simp only [fMul, n1, h, i1, z1, s1, Bool.or_self, Bool.false_eq_true, if_false, Bool.bne_false, g1, e1]
  by_cases hi : fIsInf m = true
  · rw [if_pos hi, ← fMagnitude_of_inf hi]; exact fWithSign_fSign m
  · rw [if_neg hi, fRound, Nat.mul_comm, show fExp m + (-23 : Int) = fExp m - 23 from by omega,
      fRoundMagnitude_self (finite_of_not h (by simpa using hi))]
    exact fWithSign_fSign m

theorem fSig_ne_zero {m : F32} (h : fIsZero m = false) : fSig m ≠ 0 := by
  have hm := fMagnitude_fields m
  have hz : fMagnitude m ≠ 0 := by simpa [fIsZero] using h
  simp only [fSig]
  split_ifs with he
  · rw [he] at hm; omega
  · omega

/-- `m /f m` is 1.0 for every finite value but zero. -/
theorem fDiv_self {m : F32} (h : fIsFinite m = true) (hz : fIsZero m = false) : fDiv m m = fOne := by
  have hs := fSig_ne_zero hz
  have hq : stickyQuotient (fSig m * 2 ^ 64) (fSig m) = 2 * 2 ^ 64 := by
    simp only [stickyQuotient]
    rw [Nat.mul_div_cancel_left _ (Nat.pos_of_ne_zero hs), Nat.mul_mod_right, if_pos rfl]
    omega
  simp only [fDiv, not_nan_of_finite h, not_inf_of_finite h, hz, Bool.or_self, Bool.false_eq_true, if_false, hq,
    bne_self_eq_false, Int.sub_self]
  decide

theorem fOrder_fZero : fOrder fZero = 0 := by decide

/-- A value equal to 0.0 is a zero of either sign. -/
theorem fEq_zero_iff (m : F32) : fEq m fZero = true ↔ fIsZero m = true := by
  have z1 : fIsNaN fZero = false := by decide
  have ho : fOrder m = 0 ↔ fMagnitude m = 0 := by
    unfold fOrder
    split_ifs <;> omega
  unfold fEq
  rw [z1, fOrder_fZero]
  simp only [Bool.not_false, Bool.and_true, Bool.and_eq_true, Bool.not_eq_true', decide_eq_true_iff, fIsZero,
    beq_iff_eq]
  constructor
  · rintro ⟨-, h⟩; exact ho.mp h
  · intro h
    refine ⟨?_, ho.mpr h⟩
    unfold fIsNaN
    rw [h]
    rfl

/-- A propagated NaN is a NaN, whatever its free bits (D3). -/
theorem fIsNaN_fPropagate (a b : F32) : fIsNaN (fPropagate a b) = true := by
  have key (x : Word) : 0x7F800000 < fMagnitude (fDefaultNaN ||| x) := by
    have h1 : (0x7FC00000 : Nat) ≤ 0x7FC00000 ||| (x.toNat % 2 ^ 31) := Nat.left_le_or
    have h2 : (0x7FC00000 ||| x.toNat) % 2 ^ 31 = 0x7FC00000 ||| (x.toNat % 2 ^ 31) := Nat.or_mod_two_pow
    unfold fMagnitude
    rw [BitVec.toNat_or]
    have h3 : fDefaultNaN.toNat = 0x7FC00000 := rfl
    rw [h3, h2]
    omega
  unfold fIsNaN
  exact decide_eq_true (key _)

/-- A rounded magnitude without a sign is not negative. -/
theorem fSign_fRound_false (m : Nat) (e : Int) : fSign (fRound false m e) = false := by
  have hle : fRoundMagnitude m e ≤ 0x7F800000 := by
    unfold fRoundMagnitude
    split_ifs
    · omega
    · exact Nat.min_le_right _ _
  unfold fSign
  rw [← BitVec.msb_eq_getLsbD_last, BitVec.msb_eq_decide]
  simp only [fRound, fWithSign, Bool.false_eq_true, if_false, BitVec.toNat_ofNat]
  rw [Nat.mod_eq_of_lt (by omega)]
  simp only [decide_eq_false_iff_not]
  omega

/-- A finite square root is zero or not negative. -/
theorem fSqrt_nonneg {a : F32} (h : fIsFinite (fSqrt a) = true) : fIsZero (fSqrt a) = true ∨ fSign (fSqrt a) = false := by
  unfold fSqrt at *
  split_ifs at * with h1 h2 h3 h4
  · exfalso
    have hn := fIsNaN_fPropagate a a
    rw [not_nan_of_finite h] at hn
    exact absurd hn (by decide)
  · exact .inl h2
  · exact absurd h (by decide)
  · rw [not_inf_of_finite h] at h4
    exact absurd h4 (by decide)
  · exact .inr (fSign_fRound_false _ _)

/-- A finite magnitude has parts that are no NaN (R183). -/
theorem fMag_finite {re im : F32} (h : fIsFinite (fMag re im) = true) : fIsNaN re = false ∧ fIsNaN im = false := by
  have sq (a : F32) (ha : fIsNaN a = true) : fIsNaN (fMul a a) = true := by
    simp only [fMul, ha, Bool.or_self, if_true]; exact fIsNaN_fPropagate _ _
  have hsum : fIsNaN (fAdd (fMul re re) (fMul im im)) = false := by
    by_contra hc
    have hn : fIsNaN (fAdd (fMul re re) (fMul im im)) = true := by simpa using hc
    have : fIsNaN (fMag re im) = true := by
      simp only [fMag, fSqrt, hn, if_true]; exact fIsNaN_fPropagate _ _
    rw [not_nan_of_finite h] at this
    exact absurd this (by decide)
  constructor
  · by_contra hc
    have hn := sq re (by simpa using hc)
    simp only [fAdd, hn, Bool.true_or, if_true, fIsNaN_fPropagate] at hsum
    exact absurd hsum (by decide)
  · by_contra hc
    have hn := sq im (by simpa using hc)
    simp only [fAdd, hn, Bool.or_true, if_true, fIsNaN_fPropagate] at hsum
    exact absurd hsum (by decide)

/-! ## The reference core's corner cases (R146) and the window table (R46) -/

/-- POW_ZERO_EXP: a power with exponent 0.0 is 1.0, of infinity and NaN too. -/
@[simp] theorem numPow_zero_exponent (x : F32) : numPow x fZero = fOne := by simp [numPow]

/-- A NaN to a power that is not zero is a NaN (R146). -/
theorem numPow_nan {x y : F32} (hx : fIsNaN x = true) (hy : fIsZero y = false) : fIsNaN (numPow x y) = true := by
  have h0 : y ≠ fZero := by rintro rfl; exact absurd hy (by decide)
  simp [numPow, h0, hx, hy, fIsNaN_fPropagate]

/-- Infinity to a negative power is +0 (R146). -/
theorem numPow_inf_negative {y : F32} (hy : fLt y fZero = true) : numPow fInfinity y = fZero := by
  have h0 : y ≠ fZero := by rintro rfl; exact absurd hy (by decide)
  have hn : fIsNaN fInfinity = false := by decide
  simp [numPow, h0, hn, hy]

theorem not_nan_of_lt_right {a b : F32} (h : fLt a b = true) : fIsNaN b = false := by
  simp only [fLt, Bool.and_eq_true, Bool.not_eq_true'] at h
  exact h.1.2

/-- What is above 0.0 has no sign and is no zero. -/
theorem positive_of_zero_lt {e : F32} (h : fLt fZero e = true) : fSign e = false ∧ fIsZero e = false := by
  simp only [fLt, Bool.and_eq_true, decide_eq_true_iff, fOrder_fZero] at h
  have h2 := h.2
  unfold fOrder at h2
  split_ifs at h2 with hs
  · omega
  · exact ⟨by simpa using hs, by simp only [fIsZero, beq_eq_false_iff_ne]; omega⟩

/-- `e /f 0.0` is plus infinity for every `e` above 0.0 (R146, R274). -/
theorem fDiv_zero_of_positive {e : F32} (h : fLt fZero e = true) : fDiv e fZero = fInfinity := by
  obtain ⟨hs, hz⟩ := positive_of_zero_lt h
  have hn := not_nan_of_lt_right h
  have z1 : fIsNaN fZero = false := by decide
  have z2 : fIsInf fZero = false := by decide
  have z3 : fIsZero fZero = true := by decide
  have z4 : fSign fZero = false := by decide
  simp only [fDiv, hn, hs, hz, z1, z2, z3, z4, Bool.or_self, Bool.false_eq_true, if_false, bne_self_eq_false, if_true]
  split_ifs <;> decide

/-- A zero over 0.0 is the default NaN (R274). -/
theorem fDiv_zero_zero {e : F32} (h : fIsZero e = true) : fDiv e fZero = fDefaultNaN := by
  have hm : fMagnitude e = 0 := by simpa [fIsZero] using h
  have h1 : fIsNaN e = false := by simp [fIsNaN, hm]
  have h2 : fIsInf e = false := by simp [fIsInf, hm]
  have z1 : fIsNaN fZero = false := by decide
  have z2 : fIsInf fZero = false := by decide
  have z3 : fIsZero fZero = true := by decide
  simp only [fDiv, h, h1, h2, z1, z2, z3, Bool.or_self, Bool.false_eq_true, if_false, if_true]

/-- A product with 0.0 of a finite value is a zero of its sign. -/
theorem fMul_zero_left {m : F32} (h : fIsFinite m = true) : fMul fZero m = fWithSign (fSign m) 0 := by
  have z1 : fIsNaN fZero = false := by decide
  have z2 : fIsInf fZero = false := by decide
  have z4 : fSign fZero = false := by decide
  have z5 : fSig fZero = 0 := by decide
  simp [fMul, not_nan_of_finite h, not_inf_of_finite h, z1, z2, z4, z5, fRound, fRoundMagnitude]

theorem fMul_zero_right {m : F32} (h : fIsFinite m = true) : fMul m fZero = fWithSign (fSign m) 0 := by
  have z1 : fIsNaN fZero = false := by decide
  have z2 : fIsInf fZero = false := by decide
  have z4 : fSign fZero = false := by decide
  have z5 : fSig fZero = 0 := by decide
  simp [fMul, not_nan_of_finite h, not_inf_of_finite h, z1, z2, z4, z5, fRound, fRoundMagnitude]

theorem fIsNaN_fMul_left {a : F32} (b : F32) (h : fIsNaN a = true) : fIsNaN (fMul a b) = true := by
  simp only [fMul, h, Bool.true_or, if_true, fIsNaN_fPropagate]

theorem fIsNaN_fMul_right (a : F32) {b : F32} (h : fIsNaN b = true) : fIsNaN (fMul a b) = true := by
  simp only [fMul, h, Bool.or_true, if_true, fIsNaN_fPropagate]

/-- A NaN magnitude or envelope gives a NaN envelope: "a NaN for that bin and channel from then on" (R146). -/
theorem refEnvelope_nan {env m : F32} (cteA cteR : F32) (h : fIsNaN m = true ∨ fIsNaN env = true) :
    fIsNaN (refEnvelope env cteA cteR m) = true := by
  rcases h with h | h
  · simp only [refEnvelope, fAdd, h, Bool.true_or, if_true, fIsNaN_fPropagate]
  · have hs : fIsNaN (fSub env m) = true := by
      simp only [fSub, h, Bool.true_or, if_true, fIsNaN_fPropagate]
    have hm (c : F32) : fIsNaN (fMul c (fSub env m)) = true := fIsNaN_fMul_right c hs
    simp only [refEnvelope, fAdd, hm, Bool.or_true, if_true, fIsNaN_fPropagate]

/-- The envelope of silence stays 0.0 (R146). -/
theorem refEnvelope_zero {cteA cteR : F32} (ha : fIsFinite cteA = true) (hr : fIsFinite cteR = true) :
    refEnvelope fZero cteA cteR fZero = fZero := by
  have hs : fSub fZero fZero = fZero := by decide
  have hz (b : Bool) : fAdd fZero (fWithSign b 0) = fZero := by cases b <;> decide
  simp only [refEnvelope, hs]
  split_ifs
  · rw [fMul_zero_right ha, hz]
  · rw [fMul_zero_right hr, hz]

/-- A series whose terms are zero. -/
theorem winSeries_zero (x2 : Nat) : ∀ fuel k, winSeries x2 fuel k 0 = 0
  | 0, _ => rfl
  | fuel + 1, k => by simp [winSeries, winSeries_zero x2 fuel]

/-- Coefficient 0 of the reference table is 0.0 (R46). -/
@[simp] theorem refWin_zero (W : Nat) : refWin W 0 = fZero := by
  simp [refWin, winVersine, winSeries_zero, fRound, fRoundMagnitude, fWithSign, fZero]

end Sys2Proof.Machine
end

