-- ==== Sys2Proof/Laws/PerInstr.lean ====
section
/-! SUPPORT. A family of lemmas, one per instruction: its word selects a row of the opcode table, the one of its operation
code (spec R103, R105). -/

namespace Sys2Proof.Laws.EncodeSelectsRow

/-- The word of a well-formed instruction selects a row, and that row has the instruction's operation code. -/
def Statement (i : Instr) : Prop :=
  i.wellFormed = true →
    ∃ r : OpcodeRow, rowOf (encode i) = some r ∧ opcOf (encode i) = opcOf r.pattern
      ∧ opcOf r.pattern = BitVec.ofNat 8 i.opcode

/-- The two rows with a free ARG (R102). -/
theorem of_block (i : Instr) (M : Nat) (r : OpcodeRow)
    (he : encode i = opcOf r.pattern ++ BitVec.ofNat 24 M) (ho : opcOf r.pattern = BitVec.ofNat 8 i.opcode)
    (h0 : rowOf (opcOf r.pattern ++ 0#24) = some r)
    (h1 : ∀ a : BitVec 24, a ≠ 0#24 → rowOf (opcOf r.pattern ++ a) = some r) : Statement i := by
  intro _
  refine ⟨r, ?_, ?_, ho⟩
  · rw [he]
    by_cases hz : BitVec.ofNat 24 M = 0#24
    · rw [hz]; exact h0
    · exact h1 _ hz
  · rw [he, opcOf_append]

theorem nop : Statement .nop := fun _ => ⟨_, rfl, by decide, by decide⟩

theorem prepare : Statement .prepare := fun _ => ⟨_, rfl, by decide, by decide⟩

theorem release : Statement .release := fun _ => ⟨_, rfl, by decide, by decide⟩

theorem process (M : Nat) : Statement (.process M) :=
  have e : opcOf (argRow "PROCESS" 0x03 .process).pattern = 3#8 := by decide
  of_block (.process M) M (argRow "PROCESS" 0x03 .process) (by rw [e]; rfl) e rfl
    (by intro a ha; rw [e, rowOf_of_arg_ne_zero _ ha]; rfl)

theorem processBypassed (M : Nat) : Statement (.processBypassed M) :=
  have e : opcOf (argRow "PROCESS_BYPASSED" 0x04 .processBypassed).pattern = 4#8 := by decide
  of_block (.processBypassed M) M (argRow "PROCESS_BYPASSED" 0x04 .processBypassed) (by rw [e]; rfl) e rfl
    (by intro a ha; rw [e, rowOf_of_arg_ne_zero _ ha]; rfl)

theorem notifySettings : Statement .notifySettings := fun _ => ⟨_, rfl, by decide, by decide⟩

theorem notifyWindow : Statement .notifyWindow := fun _ => ⟨_, rfl, by decide, by decide⟩

theorem rbWrite : Statement .rbWrite := fun _ => ⟨_, rfl, by decide, by decide⟩

theorem rbLast : Statement .rbLast := fun _ => ⟨_, rfl, by decide, by decide⟩

theorem rbDrain : Statement .rbDrain := fun _ => ⟨_, rfl, by decide, by decide⟩

theorem rbAcc : Statement .rbAcc := fun _ => ⟨_, rfl, by decide, by decide⟩

theorem cmpProcess : Statement .cmpProcess := fun _ => ⟨_, rfl, by decide, by decide⟩

theorem cmpSetThr : Statement .cmpSetThr := fun _ => ⟨_, rfl, by decide, by decide⟩

theorem cmpSetTime : Statement .cmpSetTime := fun _ => ⟨_, rfl, by decide, by decide⟩

theorem cmpSetRatio : Statement .cmpSetRatio := fun _ => ⟨_, rfl, by decide, by decide⟩

theorem scAnalyze : Statement .scAnalyze := fun _ => ⟨_, rfl, by decide, by decide⟩

theorem aggAcc : Statement .aggAcc := fun _ => ⟨_, rfl, by decide, by decide⟩

theorem aggCommit : Statement .aggCommit := fun _ => ⟨_, rfl, by decide, by decide⟩

theorem stftExtract : Statement .stftExtract := fun _ => ⟨_, rfl, by decide, by decide⟩

theorem stftWinA : Statement .stftWinA := fun _ => ⟨_, rfl, by decide, by decide⟩

theorem fftFwd : Statement .fftFwd := fun _ => ⟨_, rfl, by decide, by decide⟩

theorem binScale : Statement .binScale := fun _ => ⟨_, rfl, by decide, by decide⟩

theorem fftInv : Statement .fftInv := fun _ => ⟨_, rfl, by decide, by decide⟩

theorem stftWinS : Statement .stftWinS := fun _ => ⟨_, rfl, by decide, by decide⟩

theorem stftOla : Statement .stftOla := fun _ => ⟨_, rfl, by decide, by decide⟩

theorem stftCount : Statement .stftCount := fun _ => ⟨_, rfl, by decide, by decide⟩

theorem stftCycle : Statement .stftCycle := fun _ => ⟨_, rfl, by decide, by decide⟩

theorem bypCycle : Statement .bypCycle := fun _ => ⟨_, rfl, by decide, by decide⟩

theorem schedAlign : Statement .schedAlign := fun _ => ⟨_, rfl, by decide, by decide⟩

theorem schedIoStep : Statement .schedIoStep := fun _ => ⟨_, rfl, by decide, by decide⟩

theorem schedZfill : Statement .schedZfill := fun _ => ⟨_, rfl, by decide, by decide⟩

theorem schedCheck : Statement .schedCheck := fun _ => ⟨_, rfl, by decide, by decide⟩

theorem setFlagCas : Statement .setFlagCas := fun _ => ⟨_, rfl, by decide, by decide⟩

theorem setUpdate : Statement .setUpdate := fun _ => ⟨_, rfl, by decide, by decide⟩

theorem thrCurve : Statement .thrCurve := fun _ => ⟨_, rfl, by decide, by decide⟩

theorem gainUpdate : Statement .gainUpdate := fun _ => ⟨_, rfl, by decide, by decide⟩

theorem cfgClaim : Statement .cfgClaim := fun _ => ⟨_, rfl, by decide, by decide⟩

theorem cfgStage : Statement .cfgStage := fun _ => ⟨_, rfl, by decide, by decide⟩

theorem cfgPublish : Statement .cfgPublish := fun _ => ⟨_, rfl, by decide, by decide⟩

theorem cfgFetch : Statement .cfgFetch := fun _ => ⟨_, rfl, by decide, by decide⟩

theorem cfgRetire : Statement .cfgRetire := fun _ => ⟨_, rfl, by decide, by decide⟩

end Sys2Proof.Laws.EncodeSelectsRow
end

