-- ==== Sys2Proof/Laws/Scheduler.lean ====
section
/-! SUPPORT. What the loops over the channels do: the I/O step, the zero fill and the bypass cycle (spec R182, R193,
R194). -/

namespace Sys2Proof.Machine

/-- `f c` of the rings of the first `m` channels. -/
def firstRings (m : Nat) (f : Nat → Ring → Ring) (l : List Ring) : List Ring :=
  l.mapIdx fun c r => if c < m then f c r else r

@[simp] theorem firstRings_length (m : Nat) (f : Nat → Ring → Ring) (l : List Ring) :
    (firstRings m f l).length = l.length := by simp [firstRings]

@[simp] theorem firstRings_zero (f : Nat → Ring → Ring) (l : List Ring) : firstRings 0 f l = l := by
  apply List.ext_getElem?
  intro i
  simp [firstRings]

theorem firstRings_getElem? (m : Nat) (f : Nat → Ring → Ring) (l : List Ring) (c : Nat) :
    (firstRings m f l)[c]? = (l[c]?).map fun r => if c < m then f c r else r := by
  simp [firstRings]

/-- One more channel. -/
theorem firstRings_succ (m : Nat) (f : Nat → Ring → Ring) (l : List Ring) :
    (firstRings m f l).modify m (f m) = firstRings (m + 1) f l := by
  apply List.ext_getElem?
  intro i
  rw [List.getElem?_modify, firstRings_getElem?, firstRings_getElem?]
  cases l[i]? with
  | none => rfl
  | some r =>
    rcases Nat.lt_trichotomy i m with h | h | h
    · simp [h, Nat.lt_succ_of_lt h, show ¬ m = i from by omega]
    · subst h; simp
    · simp [show ¬ i < m from by omega, show ¬ i < m + 1 from by omega, show ¬ m = i from by omega]

/-! ## The I/O step (R194) -/

/-- The live slot after the I/O step of the first `m` channels. -/
def State.ioSlot (s : State) (off n m : Nat) : Slot :=
  { s.liveSlot with
    inr := firstRings m (fun c r => r.write (s.samples .input c off n) n) s.liveSlot.inr
    sidr :=
      if s.scEff then firstRings m (fun c r => r.write (s.samples .sidechain c off n) n) s.liveSlot.sidr
      else s.liveSlot.sidr
    outr := firstRings m (fun _ r => r.drain n true) s.liveSlot.outr }

/-- What the I/O step of the first `m` channels has done. -/
structure IoDone (s : State) (off n m : Nat) (t : State) : Prop where
  state_eq : t = { s.setSlot s.live (s.ioSlot off n m) with mem := t.mem }
  written : ∀ c < m, ∀ i < n, sampleExists s.params c (off + i) = true →
    t.sample .output c (off + i) = elemAt (s.ioOutput n c) i
  other : ∀ r c i, r ≠ .output → t.sample r c i = s.sample r c i
  kept : ∀ a, (∀ c < m, ¬ InSamples s.params .output c off n a) → t.byteAt a = s.byteAt a

theorem State.ioOutput_length (s : State) (n c : Nat) : (s.ioOutput n c).length = n := by
  unfold State.ioOutput
  split_ifs <;> simp

/-- A state that differs in the live slot alone has the same samples. -/
theorem State.sample_of_mem {s t : State} (hp : t.params = s.params) (hm : t.mem = s.mem) (he : t.epoch = s.epoch)
    (r : Region) (c i : Nat) : t.sample r c i = s.sample r c i := by
  simp only [State.sample, State.wordAt, State.byteAt, hp, hm, he]

/-- The writing half changes the live slot alone. -/
theorem State.ioWrite_eq (off n c : Nat) (t : State) :
    t.ioWrite off n c =
      t.setSlot t.live
        { t.liveSlot with
          inr := t.liveSlot.inr.modify c fun r => r.write (t.samples .input c off n) n
          sidr :=
            if t.scEff then t.liveSlot.sidr.modify c fun r => r.write (t.samples .sidechain c off n) n
            else t.liveSlot.sidr } := by
  unfold State.ioWrite
  cases h : t.scEff with
  | false =>
    simp only [Bool.false_eq_true, if_false]
    rfl
  | true =>
    simp only [if_true]
    show (t.modLive _).modLive _ = _
    rw [State.modLive_modLive]
    rfl

/-- The second of two changes of a slot stands, whatever happens to the memory between them. -/
theorem State.setSlot_setSlot_mem (i : SlotIx) (v w : Slot) (mem : Memory) (s : State) :
    State.setSlot i w { s.setSlot i v with mem := mem } = { s.setSlot i w with mem := mem } := by
  cases i <;> rfl

/-- One channel of the I/O step. -/
theorem IoDone.next {s t : State} {off n m : Nat} (h : IoDone s off n m t) :
    IoDone s off n (m + 1) (State.ioRead off n m (State.ioWrite off n m t)) := by
  have hlive : t.liveSlot = s.ioSlot off n m := by rw [h.state_eq]; exact State.liveSlot_setSlot_live (s.ioSlot off n m) s
  have hl : t.live = s.live := by rw [h.state_eq]; rfl
  have hp : t.params = s.params := by rw [h.state_eq]; rfl
  have hsc : t.scEff = s.scEff := by rw [h.state_eq]; rfl
  have hin (r : Region) (hr : r ≠ .output) : t.samples r m off n = s.samples r m off n := by
    simp only [State.samples, h.other _ _ _ hr]
  have hW := State.ioWrite_eq off n m t
  have hWlive : (t.ioWrite off n m).liveSlot =
      { s.ioSlot off n (m + 1) with outr := (s.ioSlot off n m).outr } := by
    rw [hW, State.liveSlot_setSlot_live, hlive, hsc, hin _ (by decide), hin _ (by decide)]
    cases hx : s.scEff with
    | true => simp only [State.ioSlot, firstRings_succ, if_true, hx]
    | false => simp only [State.ioSlot, firstRings_succ, hx, Bool.false_eq_true, if_false]
  have hring : (s.ioSlot off n m).ring .output m = s.liveSlot.ring .output m := by
    simp only [Slot.ring, Slot.rings, State.ioSlot, firstRings_getElem?]
    cases s.liveSlot.outr[m]? <;> simp
  have hout : (t.ioWrite off n m).ioOutput n m = s.ioOutput n m := by
    simp only [State.ioOutput, hWlive]
    have hr : ({ s.ioSlot off n (m + 1) with outr := (s.ioSlot off n m).outr } : Slot).ring .output m
        = s.liveSlot.ring .output m := hring
    rw [hr]
    rfl
  have hR : State.ioRead off n m (t.ioWrite off n m) =
      { s.setSlot s.live (s.ioSlot off n (m + 1)) with
        mem := storeSamples s.params .output m off (s.ioOutput n m) t.mem } := by
    unfold State.ioRead
    rw [hout]
    have e1 : (t.ioWrite off n m).modRing .output m (fun r => r.drain n true) =
        { s.setSlot s.live (s.ioSlot off n (m + 1)) with mem := t.mem } := by
      show (t.ioWrite off n m).modLive _ = _
      rw [State.modLive_eq, hWlive]
      have hs : ({ s.ioSlot off n (m + 1) with outr := (s.ioSlot off n m).outr } : Slot).modRing .output m
          (fun r => r.drain n true) = s.ioSlot off n (m + 1) := by
        simp only [Slot.modRing, if_true, reduceCtorEq, if_false, State.ioSlot]
        rw [firstRings_succ m (fun _ r => r.drain n true)]
      rw [hs, hW]
      simp only [State.setSlot_live, hl, State.setSlot_setSlot]
      have ht := h.state_eq
      generalize t.mem = mem at ht ⊢
      rw [ht, State.setSlot_setSlot_mem]
      rfl
    rw [e1]
    rfl
  have hset (r : Region) (c i : Nat) :
      (State.ioRead off n m (t.ioWrite off n m)).sample r c i =
        (t.setSamples .output m off (s.ioOutput n m)).sample r c i := by
    apply State.sample_of_mem
    · rw [hR]; exact hp.symm
    · rw [hR]; simp only [State.setSamples_mem, hp]
    · rw [hR, State.setSamples_epoch, h.state_eq]; rfl
  have hlen := State.ioOutput_length s n m
  constructor
  · rw [hR]
  · intro c hc i hi he
    rw [hset]
    by_cases hcm : c = m
    · subst hcm
      rw [State.sample_setSamples_same t .output c off _ i (by omega) (by rw [hp]; exact he),
        elemAt_of_lt (by omega)]
    · rw [State.sample_setSamples_of_other _ _ _ _ _ _ _ _ (by rintro ⟨-, h1, -⟩; exact hcm h1.symm)]
      exact h.written c (by omega) i hi he
  · intro r c i hr
    rw [hset, State.sample_setSamples_of_other _ _ _ _ _ _ _ _ (by rintro ⟨h1, -⟩; exact hr h1.symm)]
    exact h.other r c i hr
  · intro a ha
    have e : (State.ioRead off n m (t.ioWrite off n m)).byteAt a =
        (t.setSamples .output m off (s.ioOutput n m)).byteAt a := by
      apply State.byteAt_congr
      · rw [hR]; simp only [State.setSamples_mem, hp]
      · rw [hR, State.setSamples_epoch, h.state_eq]; rfl
    rw [e, State.byteAt_setSamples_of_outside t _ _ _ _ _ (by
      rw [hp, hlen]; exact ha m (by omega))]
    exact h.kept a fun c hc => ha c (by omega)

/-- What an I/O step does (R194). -/
theorem State.ioStep_done (off n : Nat) (s : State) : IoDone s off n s.liveSlot.nch (s.ioStep off n) := by
  unfold State.ioStep
  generalize s.liveSlot.nch = m
  induction m with
  | zero =>
    refine ⟨?_, fun c hc => absurd hc (by omega), fun _ _ _ _ => rfl, fun _ _ => rfl⟩
    have : s.ioSlot off n 0 = s.liveSlot := by
      simp only [State.ioSlot, firstRings_zero, ite_self]
    rw [this, State.setSlot_liveSlot]
    rfl
  | succ m ih =>
    rw [forChannels_succ]
    exact ih.next

/-! ## The zero fill (R193) -/

/-- What the zero fill of the first `m` surplus channels has done. -/
structure FillDone (s : State) (nch M m : Nat) (t : State) : Prop where
  state_eq : t = { s with mem := t.mem }
  written : ∀ c i, nch ≤ c → c < nch + m → i < M → sampleExists s.params c i = true → t.sample .output c i = fZero
  kept : ∀ a, (∀ c, nch ≤ c → ¬ InSamples s.params .output c 0 M a) → t.byteAt a = s.byteAt a

/-- One more surplus channel. -/
theorem FillDone.next {s t : State} {nch M m : Nat} (h : FillDone s nch M m t) :
    FillDone s nch M (m + 1) (t.setSamples .output (nch + m) 0 (List.replicate M fZero)) := by
  have hp : t.params = s.params := by rw [h.state_eq]
  refine ⟨?_, ?_, ?_⟩
  · simp only [State.setSamples_mem]
    conv_lhs => rw [h.state_eq]
    rw [State.setSamples, hp]
  · intro c i h1 h2 hi he
    by_cases hc : c = nch + m
    · subst hc
      have := State.sample_setSamples_same t .output (nch + m) 0 (List.replicate M fZero) i (by simpa using hi)
        (by rw [hp, Nat.zero_add]; exact he)
      rw [Nat.zero_add] at this
      rw [this, List.getElem_replicate]
    · rw [State.sample_setSamples_of_other _ _ _ _ _ _ _ _ (by rintro ⟨-, h3, -⟩; exact hc h3.symm)]
      exact h.written c i h1 (by omega) hi he
  · intro a ha
    rw [State.byteAt_setSamples_of_outside t _ _ _ _ _ (by
      rw [hp, List.length_replicate]; exact ha _ (by omega))]
    exact h.kept a ha

/-- What SCHED.ZFILL does (R193). -/
theorem State.zeroFill_done (M : Nat) (s : State) :
    FillDone s s.liveSlot.nch M (s.params.maxCh - s.liveSlot.nch) (s.zeroFill M) := by
  unfold State.zeroFill
  simp only
  generalize s.liveSlot.nch = nch
  generalize s.params.maxCh - nch = m
  induction m with
  | zero => exact ⟨rfl, fun _ _ _ _ _ _ => by omega, fun _ _ => rfl⟩
  | succ m ih =>
    rw [List.range_succ, List.foldl_append]
    exact ih.next

/-! ## The bypass cycle (R182) -/

/-- Accumulation reads the first `n` elements of its source. -/
theorem Ring.accumulate_congr (r : Ring) {src src' : List F32} {n : Nat} (g : F32)
    (h : ∀ i < n, elemAt src i = elemAt src' i) : r.accumulate src n g = r.accumulate src' n g := by
  unfold Ring.accumulate
  congr 1
  refine List.foldl_ext _ _ _ fun d i hi => ?_
  rw [h i (List.mem_range.mp hi)]

/-- The live slot after the bypass pass of the first `m` channels, but for the scratch buffer. -/
def Slot.bypassed (S : Slot) (I m : Nat) : List Ring :=
  firstRings m (fun c r => r.accumulate ((S.ring .input c).last S.W) I fOne) S.outr

/-- The frame of a ring over a scratch buffer leaves what stands from element W on. -/
theorem frameOf_drop (r : Ring) (W : Nat) (x : List F32) : (frameOf r W x).drop W = x.drop W := by
  unfold frameOf
  rw [List.drop_append_of_le_length (by simp), List.drop_eq_nil_of_le (by simp), List.nil_append]

/-- A frame depends on what stands from element W on only. -/
theorem frameOf_congr (r : Ring) {W : Nat} {x y : List F32} (h : x.drop W = y.drop W) :
    frameOf r W x = frameOf r W y := by
  unfold frameOf; rw [h]

/-- The bypass passes of the first `m` channels (R182): the scratch buffer holds the frame of the last of them. -/
theorem State.bypassPasses_eq {s : State} {nch : Nat} (hb : s.liveSlot.Built nch)
    (hI : s.liveSlot.interval ≤ s.liveSlot.W) {m : Nat} (hm : m ≤ nch) :
    ∃ x : List F32, x.length = 2 * s.liveSlot.W ∧ x.drop s.liveSlot.W = s.liveSlot.scratch.drop s.liveSlot.W ∧
      (∀ k r, m = k + 1 → s.liveSlot.inr[k]? = some r → x = frameOf r s.liveSlot.W s.liveSlot.scratch) ∧
      forChannels m State.bypassPass s =
        s.setSlot s.live
          { s.liveSlot with scratch := x, outr := s.liveSlot.bypassed s.liveSlot.interval m } := by
  induction m with
  | zero =>
    refine ⟨s.liveSlot.scratch, hb.scratch_length, rfl, fun _ _ h => absurd h (by omega), ?_⟩
    rw [forChannels_zero, Slot.bypassed, firstRings_zero]
    exact (State.setSlot_liveSlot s).symm
  | succ m ih =>
    obtain ⟨x, hx, hd, -, ih⟩ := ih (by omega)
    obtain ⟨r, hr, ⟨hcap, -⟩, -, -⟩ := hb.ring_input (c := m) (by omega)
    have hring : s.liveSlot.ring .input m = r := Slot.ring_of_getElem? (kind := .input) hr
    refine ⟨frameOf r s.liveSlot.W x, frameOf_length r hx, (frameOf_drop r _ x).trans hd, fun k r' hk hr' => ?_, ?_⟩
    · obtain rfl : m = k := by omega
      rw [show s.liveSlot.inr[m]? = some r from hr, Option.some.injEq] at hr'
      rw [← hr']; exact frameOf_congr r hd
    rw [forChannels_succ, ih]
    have hov := overwrite_last r hcap hx
    unfold State.bypassPass State.overlapAdd State.extract
    rw [State.modLive_modLive]
    simp only [State.modLive, State.setSlot_live, State.liveSlot_setSlot_live, State.setSlot_setSlot]
    congr 1
    simp only [Slot.modRing, reduceCtorEq, if_false, if_true]
    have hgoal : (s.liveSlot.bypassed s.liveSlot.interval m).modify m
          (fun r' => r'.accumulate (frameOf r s.liveSlot.W x) s.liveSlot.interval fOne) =
        s.liveSlot.bypassed s.liveSlot.interval (m + 1) := by
      unfold Slot.bypassed
      rw [← firstRings_succ]
      congr 1
      funext r'
      refine Ring.accumulate_congr r' fOne fun i hi => ?_
      rw [hring, frameOf_elem r x (by omega), Ring.last_elem r (by omega) (by omega), hcap,
        show r.pos + s.liveSlot.W - s.liveSlot.W + i = r.pos + i from by omega]
    have e1 : ({ s.liveSlot with scratch := x, outr := s.liveSlot.bypassed s.liveSlot.interval m } : Slot).ring
        .input m = r := hring
    simp only [e1, hov]
    congr 1

/-! ## RT's working registers (R21) -/

/-- A loop over the channels whose body neither reads nor writes RT's working registers does not either. -/
theorem forChannels_rt {f : Nat → State → State} (hf : ∀ c s r, f c { s with rt := r } = { f c s with rt := r })
    (n : Nat) (s : State) (r : RtRegs) : forChannels n f { s with rt := r } = { forChannels n f s with rt := r } := by
  induction n with
  | zero => rfl
  | succ n ih => rw [forChannels_succ, forChannels_succ, ih, hf]

theorem State.ioWrite_rt (off n c : Nat) (s : State) (r : RtRegs) :
    State.ioWrite off n c { s with rt := r } = { State.ioWrite off n c s with rt := r } := by
  unfold State.ioWrite
  by_cases h : s.scEff = true
  · rw [if_pos h, if_pos h]; rfl
  · rw [if_neg h, if_neg h]; rfl

theorem State.ioRead_rt (off n c : Nat) (s : State) (r : RtRegs) :
    State.ioRead off n c { s with rt := r } = { State.ioRead off n c s with rt := r } := rfl

/-- An I/O step neither reads nor writes RT's working registers (R194). -/
theorem State.ioStep_rt (off n : Nat) (s : State) (r : RtRegs) :
    State.ioStep off n { s with rt := r } = { s.ioStep off n with rt := r } := by
  unfold State.ioStep
  refine forChannels_rt (fun c t r => ?_) _ s r
  rw [State.ioWrite_rt, State.ioRead_rt]

end Sys2Proof.Machine
end

