-- ==== Sys2Proof/Laws/Sequencer.lean ====
section
/-! SUPPORT. What each line of RT's program keeps, and what keeps a state sound (spec R57, R190, R195, R238). -/

namespace Sys2Proof.Machine

/-! ## The I/O step and the shape of a slot -/

theorem mem_firstRings {m : Nat} {f : Nat → Ring → Ring} {l : List Ring} {r : Ring} (h : r ∈ firstRings m f l) :
    ∃ c r', l[c]? = some r' ∧ r = if c < m then f c r' else r' := by
  obtain ⟨c, hc⟩ := List.mem_iff_getElem?.mp h
  rw [firstRings_getElem?] at hc
  cases hl : l[c]? with
  | none => rw [hl] at hc; simp at hc
  | some x => rw [hl] at hc; exact ⟨c, x, hl, by simpa using hc.symm⟩

/-- An I/O step moves the write cursor of the input rings and the read cursor of the output rings by `n` (R194, R195). -/
theorem State.cursor_ioSlot {s : State} {nch : Nat} (h : s.liveSlot.Built nch) (off n : Nat) :
    (s.ioSlot off n nch).cursor = (s.liveSlot.cursor + n) % s.liveSlot.W := by
  obtain ⟨r, hr, ⟨hcap, -⟩, hpos, -⟩ := h.ring_input h.nch_pos
  have h0 : (s.ioSlot off n nch).inr[0]? = some (r.write (s.samples .input 0 off n) n) := by
    simp only [State.ioSlot, firstRings_getElem?, hr, Option.map_some, h.nch_pos, if_true]
  have : (s.ioSlot off n nch).ring .input 0 = r.write (s.samples .input 0 off n) n :=
    Slot.ring_of_getElem? (kind := .input) h0
  unfold Slot.cursor
  rw [this, Ring.write_pos, hcap, hpos]
  rfl

/-- An I/O step of all channels keeps the shape of the live slot (R195). -/
theorem State.built_ioSlot {s : State} {nch : Nat} (h : s.liveSlot.Built nch) (off n : Nat) :
    (s.ioSlot off n nch).Built nch := by
  have hcur := State.cursor_ioSlot h off n
  have hW := h.window_pos
  have all {l : List Ring} {c : Nat} {r : Ring} (hl : l.length = nch) (hr : l[c]? = some r) : c < nch := by
    rw [← hl]; exact (List.getElem?_eq_some_iff.mp hr).1
  refine { h with
    inr_length := by simpa [State.ioSlot] using h.inr_length
    sidr_length := by
      simp only [State.ioSlot]
      split_ifs
      · simpa using h.sidr_length
      · exact h.sidr_length
    outr_length := by simpa [State.ioSlot] using h.outr_length
    cursor_lt := by rw [hcur]; exact Nat.mod_lt _ hW
    input_rings := ?_
    sidechain_rings := ?_
    output_rings := ?_ }
  · intro r hr
    obtain ⟨c, r', hl, rfl⟩ := mem_firstRings hr
    obtain ⟨⟨h1, h2⟩, h3, h4⟩ := h.input_rings r' (List.mem_of_getElem? hl)
    rw [if_pos (all h.inr_length hl), hcur]
    exact ⟨⟨h1, by rw [Ring.write_length]; exact h2⟩, by rw [Ring.write_pos, h1, h3], h4⟩
  · intro r hr
    have key : ∀ r' ∈ s.liveSlot.sidr, r'.Sized s.liveSlot.W ∧ r'.pos < s.liveSlot.W ∧ r'.rpos = 0 := h.sidechain_rings
    by_cases hs : s.scEff = true
    · simp only [State.ioSlot, hs, if_true] at hr
      obtain ⟨c, r', hl, rfl⟩ := mem_firstRings hr
      obtain ⟨⟨h1, h2⟩, h3, h4⟩ := key r' (List.mem_of_getElem? hl)
      rw [if_pos (all h.sidr_length hl)]
      exact ⟨⟨h1, by rw [Ring.write_length]; exact h2⟩, by
        rw [Ring.write_pos, h1]; exact Nat.mod_lt _ hW, h4⟩
    · simp only [State.ioSlot, hs] at hr
      exact key r hr
  · intro r hr
    obtain ⟨c, r', hl, rfl⟩ := mem_firstRings hr
    obtain ⟨⟨h1, h2⟩, h3, h4⟩ := h.output_rings r' (List.mem_of_getElem? hl)
    rw [if_pos (all h.outr_length hl), hcur]
    exact ⟨⟨h1, by rw [Ring.drain_length]; exact h2⟩, by rw [Ring.drain_rpos, h1, h3]; simp, h4⟩

theorem State.mem_ioWrite (off n c : Nat) (t : State) : (t.ioWrite off n c).mem = t.mem := by
  rw [State.ioWrite_eq]; rfl

/-- An I/O step keeps the canonical form of the memory. -/
theorem State.wf_ioStep (off n : Nat) {s : State} (h : Memory.wf s.mem) : Memory.wf (s.ioStep off n).mem := by
  unfold State.ioStep
  induction s.liveSlot.nch with
  | zero => exact h
  | succ m ih =>
    rw [forChannels_succ]
    unfold State.ioRead
    simp only [State.setSamples_mem]
    apply wf_storeSamples
    show Memory.wf (State.ioWrite off n m _).mem
    rw [State.mem_ioWrite]
    exact ih

/-- The zero fill keeps the canonical form of the memory. -/
theorem State.wf_zeroFill (M : Nat) {s : State} (h : Memory.wf s.mem) : Memory.wf (s.zeroFill M).mem := by
  unfold State.zeroFill
  simp only
  induction (s.params.maxCh - s.liveSlot.nch) with
  | zero => exact h
  | succ m ih =>
    rw [List.range_succ, List.foldl_append]
    exact wf_storeSamples _ _ _ _ _ _ ih

/-! ## What a line of RT's program keeps -/

/-- A line of RT's program, but for the fetch and the end of the block, changes only the live slot, RT's own registers, the
values SET.UPDATE computes, the settings flag and OUT; and it keeps the shape of the live slot (R57, R195, R215). -/
structure RtKeeps (s t : State) : Prop where
  state_eq : t = { s.setSlot s.live t.liveSlot with
    rt := t.rt, op := t.op, mem := t.mem, gain := t.gain, scEff := t.scEff, fresh := t.fresh
    settingsChanged := t.settingsChanged }
  shape : ∀ nch, s.liveSlot.Built nch → t.liveSlot.Built nch
  window : t.liveSlot.W = s.liveSlot.W
  memory : Memory.wf s.mem → Memory.wf t.mem

/-- A change of RT's registers and the values of SET.UPDATE. -/
theorem RtKeeps.of_regs (s : State) (rt : RtRegs) (op : OpRegs) (gain : F32) (scEff settingsChanged : Bool) :
    RtKeeps s { s with rt := rt, op := op, gain := gain, scEff := scEff, settingsChanged := settingsChanged } where
  state_eq := by
    show _ = ({ s.setSlot s.live s.liveSlot with
      rt := rt, op := op, gain := gain, scEff := scEff, settingsChanged := settingsChanged } : State)
    rw [State.setSlot_liveSlot]
  shape := fun _ h => h
  window := rfl
  memory := fun h => h

theorem RtKeeps.refl (s : State) : RtKeeps s s := RtKeeps.of_regs s s.rt s.op s.gain s.scEff s.settingsChanged

theorem RtKeeps.trans {s t u : State} (h : RtKeeps s t) (k : RtKeeps t u) : RtKeeps s u where
  state_eq := by
    have ht := h.state_eq
    have hu := k.state_eq
    generalize t.liveSlot = v, t.rt = a1, t.op = a2, t.mem = a3, t.gain = a4, t.scEff = a5, t.fresh = a6,
      t.settingsChanged = a7 at ht
    generalize u.liveSlot = w, u.rt = b1, u.op = b2, u.mem = b3, u.gain = b4, u.scEff = b5, u.fresh = b6,
      u.settingsChanged = b7 at hu ⊢
    subst ht
    rw [hu]
    have key (i : SlotIx) :
        ({ State.setSlot i w { s.setSlot i v with
            rt := a1, op := a2, mem := a3, gain := a4, scEff := a5, fresh := a6, settingsChanged := a7 } with
          rt := b1, op := b2, mem := b3, gain := b4, scEff := b5, fresh := b6, settingsChanged := b7 } : State) =
        { s.setSlot i w with
          rt := b1, op := b2, mem := b3, gain := b4, scEff := b5, fresh := b6, settingsChanged := b7 } := by
      cases i <;> rfl
    exact key s.live
  shape := fun n b => k.shape n (h.shape n b)
  window := k.window.trans h.window
  memory := fun m => k.memory (h.memory m)

theorem EngineKeeps.rt {s t : State} (h : EngineKeeps s t) : RtKeeps s t := by
  have ht := h.state_eq
  have e2 : t.op = s.op := by rw [ht]; rfl
  have e3 : t.mem = s.mem := by rw [ht]; rfl
  have e4 : t.gain = s.gain := by rw [ht]; rfl
  have e5 : t.scEff = s.scEff := by rw [ht]; rfl
  have e6 : t.settingsChanged = s.settingsChanged := by rw [ht]; rfl
  exact ⟨by rw [e2, e3, e4, e5, e6]; exact ht, h.shape, h.window, by rw [e3]; exact fun m => m⟩

theorem RtKeeps.goto {s t : State} (h : RtKeeps s t) (pc : RtPc) : RtKeeps s (t.goto pc) :=
  h.trans (RtKeeps.of_regs t { t.rt with pc := pc } t.op t.gain t.scEff t.settingsChanged)

theorem State.copyOverlap_rtKeeps (s : State) : RtKeeps s s.copyOverlap where
  state_eq := by
    rw [State.copyOverlap_liveSlot]
    rfl
  shape n h := by rw [State.copyOverlap_liveSlot]; exact h.setK _
  window := by rw [State.copyOverlap_liveSlot]
  memory := fun m => m

theorem State.updateGain_rtKeeps (r : F32) (s : State) : RtKeeps s (s.updateGain r) :=
  RtKeeps.of_regs s s.rt s.op (s.updateGain r).gain s.scEff s.settingsChanged

theorem State.zeroFill_rtKeeps (M : Nat) (s : State) : RtKeeps s (s.zeroFill M) := by
  have ht := (State.zeroFill_done M s).state_eq
  have hw := @State.wf_zeroFill M s
  generalize s.zeroFill M = t at ht hw ⊢
  generalize t.mem = mem at ht hw
  subst ht
  exact ⟨by
    show _ = ({ s.setSlot s.live s.liveSlot with mem := mem } : State)
    rw [State.setSlot_liveSlot], fun _ h => h, rfl, hw⟩

theorem State.liveSlot_ioStep {s : State} {nch : Nat} (hn : s.liveSlot.nch = nch) (off n : Nat) :
    (s.ioStep off n).liveSlot = s.ioSlot off n nch := by
  rw [(State.ioStep_done off n s).state_eq, hn]
  exact State.liveSlot_setSlot_live (s.ioSlot off n nch) s

theorem State.ioStep_rtKeeps (off n : Nat) (s : State) : RtKeeps s (s.ioStep off n) := by
  have ht := (State.ioStep_done off n s).state_eq
  have hl := State.liveSlot_ioStep (s := s) rfl off n
  have hw := @State.wf_ioStep off n s
  generalize s.ioStep off n = t at ht hw hl ⊢
  generalize t.mem = mem at ht hw
  refine ⟨?_, ?_, ?_, ?_⟩
  · rw [hl]
    subst ht
    rfl
  · intro nch h
    rw [hl, h.nch_eq]
    exact State.built_ioSlot h off n
  · rw [hl]; rfl
  · subst ht; exact hw

theorem State.rtIo_rtKeeps (off n : Nat) (s : State) : RtKeeps s (s.rtIo off n) :=
  (State.ioStep_rtKeeps off n s).trans (RtKeeps.of_regs _ _ _ _ _ _)

/-- Every line but the fetch, the end of the block and rest (R190). -/
theorem State.rtStep_rtKeeps (s : State) (h1 : s.rt.pc ≠ .fetch) (h2 : s.rt.pc ≠ .check) : RtKeeps s s.rtStep := by
  unfold State.rtStep
  cases h : s.rt.pc with
  | idle => exact RtKeeps.refl s
  | fetch => exact absurd h h1
  | sampleSc => exact RtKeeps.of_regs s _ s.op s.gain s.sampleSidechain.scEff s.settingsChanged
  | flagCas => exact RtKeeps.of_regs s _ s.op s.gain s.scEff false
  | updOverlap =>
    simp only [State.rtUpdOverlap]
    split_ifs
    · exact (State.copyOverlap_rtKeeps s).goto _
    · exact (RtKeeps.refl s).goto _
  | updRatio =>
    exact (State.setRatio_keeps s.csr.ratio s).rt.trans
      (RtKeeps.of_regs _ _ { s.op with ratio := s.csr.ratio } _ _ _)
  | updAttack => exact RtKeeps.of_regs s _ _ s.gain s.scEff s.settingsChanged
  | updRelease =>
    exact (State.setTimes_keeps s.op.attackMs s.csr.releaseMs s).rt.trans
      (RtKeeps.of_regs _ _ { s.op with releaseMs := s.csr.releaseMs } _ _ _)
  | updCurve => exact (State.curveIfFixed_keeps s.rt.swapped s).rt.goto _
  | updGain => exact (State.updateGain_rtKeeps s.op.ratio s).goto _
  | zfill => exact (State.zeroFill_rtKeeps s.rt.M.toNat s).goto _
  | align => exact RtKeeps.of_regs s _ s.op s.gain s.scEff s.settingsChanged
  | firstIo => exact (State.rtIo_rtKeeps 0 s.rt.a.toNat s).goto _
  | windows => exact RtKeeps.of_regs s _ s.op s.gain s.scEff s.settingsChanged
  | cycle =>
    simp only [State.rtCycle]
    split_ifs
    · exact (State.bypassCycle_keeps s).rt.goto _
    · exact (State.stftCycle_keeps s).rt.goto _
    · exact (RtKeeps.refl s).goto _
  | loopIo =>
    exact (State.rtIo_rtKeeps _ _ s).trans (RtKeeps.of_regs _ _ _ _ _ _)
  | check => exact absurd h h2

/-- The settings update as one step (R210, R215). -/
theorem State.settingsUpdate_rtKeeps (forced : Bool) (s : State) : RtKeeps s (s.settingsUpdate forced) :=
  ((((State.copyOverlap_rtKeeps s).trans (State.setRatio_keeps _ _).rt).trans (State.setTimes_keeps _ _ _).rt).trans
    (State.curveIfFixed_keeps forced _).rt).trans (State.updateGain_rtKeeps _ _)

/-- In the declared ranges the windowing interval is not 0 (R10, R13). -/
theorem InRange.interval_pos {W K : Nat} (h : InRange W K) : 0 < interval W K := by
  have h1 := h.window_ge
  have h2 := h.overlap_ge
  have h3 := h.overlap_le
  unfold interval
  rw [if_neg (by omega)]
  exact Nat.div_pos (by omega) (by omega)

theorem State.ioStep_overlap (off n : Nat) (s : State) : (s.ioStep off n).liveSlot.K = s.liveSlot.K := by
  rw [State.liveSlot_ioStep rfl]; rfl

theorem State.zeroFill_overlap (M : Nat) (s : State) : (s.zeroFill M).liveSlot.K = s.liveSlot.K := by
  rw [(State.zeroFill_done M s).state_eq]; rfl

/-- Only the fetch and the settings update change the overlap factor in force (R213). -/
theorem State.rtStep_overlap (s : State) (h1 : s.rt.pc ≠ .fetch) :
    s.rtStep.liveSlot.K = s.liveSlot.K ∨
      (s.rt.pc = .updOverlap ∧ s.rtStep.liveSlot.K = s.csr.overlapFactor.toNat) := by
  unfold State.rtStep
  cases h : s.rt.pc with
  | idle => exact .inl rfl
  | fetch => exact absurd h h1
  | sampleSc => exact .inl rfl
  | flagCas => exact .inl rfl
  | updOverlap =>
    simp only [State.rtUpdOverlap]
    split_ifs
    · exact .inr ⟨trivial, by rw [State.liveSlot_goto, State.copyOverlap_liveSlot]⟩
    · exact .inl rfl
  | updRatio => exact .inl (State.setRatio_keeps s.csr.ratio s).overlap
  | updAttack => exact .inl rfl
  | updRelease => exact .inl (State.setTimes_keeps s.op.attackMs s.csr.releaseMs s).overlap
  | updCurve => exact .inl (State.curveIfFixed_keeps s.rt.swapped s).overlap
  | updGain => exact .inl rfl
  | zfill => exact .inl (State.zeroFill_overlap _ _)
  | align => exact .inl rfl
  | firstIo => exact .inl (State.ioStep_overlap _ _ _)
  | windows => exact .inl rfl
  | cycle =>
    left
    simp only [State.rtCycle]
    split_ifs
    · exact (State.bypassCycle_keeps s).overlap
    · exact (State.stftCycle_keeps s).overlap
    · rfl
  | loopIo => exact .inl (State.ioStep_overlap _ _ _)
  | check =>
    left
    show s.rtCheck.liveSlot.K = _
    simp only [State.rtCheck, State.checkConsumed]
    split_ifs <;> rfl

/-- RT's steps, the last one apart. -/
theorem State.rtSteps_succ (k : Nat) (s : State) : s.rtSteps (k + 1) = (s.rtSteps k).rtStep := by
  induction k generalizing s with
  | zero => rfl
  | succ k ih => exact ih s.rtStep

/-- RT leaves rest only by a command, and reaches it only at the end of its program (R22, R190). -/
theorem State.rtStep_pc (s : State) (h1 : s.rt.pc ≠ .idle) (h2 : s.rt.pc ≠ .check) : s.rtStep.rt.pc ≠ .idle := by
  unfold State.rtStep
  cases h : s.rt.pc with
  | idle => exact absurd h h1
  | fetch => simp [State.rtFetch, State.goto]
  | sampleSc => simp [State.rtSampleSc, State.goto]
  | flagCas => simp [State.rtFlagCas, State.goto]
  | updOverlap => simp only [State.rtUpdOverlap]; split_ifs <;> simp [State.goto]
  | updRatio => simp [State.rtUpdRatio, State.goto]
  | updAttack => simp [State.rtUpdAttack, State.goto]
  | updRelease => simp [State.rtUpdRelease, State.goto]
  | updCurve => simp [State.rtUpdCurve, State.goto]
  | updGain => simp [State.rtUpdGain, State.goto]
  | zfill => simp [State.rtZfill, State.goto]
  | align => simp [State.rtAlign, State.goto]
  | firstIo => simp [State.rtFirstIo, State.goto]
  | windows => simp [State.rtWindows, State.goto]
  | cycle => simp only [State.rtCycle]; split_ifs <;> simp [State.goto]
  | loopIo => simp [State.rtLoopIo, State.goto]
  | check => exact absurd h h2

/-- The swap point takes a published slot (R235). -/
theorem State.fetch_published (s : State) (h : s.ready = true) :
    s.fetch.live = s.live.other ∧ s.fetch.liveSlot = s.spareSlot ∧
      s.fetch.spareSlot = { s.liveSlot with status := .retired } ∧ s.fetch.ready = false := by
  have hf : s.fetch = { s.setSlot s.live { s.liveSlot with status := .retired } with
      live := s.live.other, ready := false, rt := { s.rt with swapped := true } } := by
    unfold State.fetch; rw [if_pos h]
  rw [hf]
  refine ⟨rfl, State.slot_setSlot_other s.live _ s, ?_, rfl⟩
  simp only [State.spareSlot, State.slot, State.setSlot]
  cases s.live <;> rfl

/-- With nothing published the swap point only clears RT's result (R235). -/
theorem State.fetch_unpublished (s : State) (h : s.ready = false) :
    s.fetch = { s with rt := { s.rt with swapped := false } } := by
  unfold State.fetch
  rw [if_neg (by rw [h]; decide)]

/-! ## Soundness, one kind of change at a time -/

variable {s t : State}

/-- A line of RT's program keeps a sound state sound, where RT is as busy after it as before. -/
theorem State.Sound.of_rtKeeps (h : s.Sound) (k : RtKeeps s t) (hpc : t.rt.pc ≠ .idle ↔ s.rt.pc ≠ .idle)
    (hr : s.runState ≠ .unprepared) : t.Sound := by
  have ht := k.state_eq
  have hspare : t.spareSlot = s.spareSlot := by
    rw [ht]; exact State.spareSlot_setSlot_live t.liveSlot s
  have e1 : t.runState = s.runState := by rw [ht]; rfl
  have e2 : t.latch = s.latch := by rw [ht]; rfl
  have e3 : t.ready = s.ready := by rw [ht]; rfl
  have e4 : t.bg = s.bg := by rw [ht]; rfl
  have e5 : t.live = s.live := by rw [ht]; rfl
  have e6 : t.rtBusy = s.rtBusy := by rw [ht]; rfl
  have e7 : t.deferred = s.deferred := by rw [ht]; rfl
  have e8 : t.agenda = s.agenda := by rw [ht]; rfl
  refine ⟨?_, ?_, ?_, ?_, ?_, ?_, ?_, ?_, ?_, ?_, ?_, ?_⟩
  · rw [e1, e2]; exact fun hp => k.shape _ (h.live_built hp)
  · rw [e3, e2, hspare]; exact h.ready_built
  · rw [e3, e4, e1]; exact h.ready_idle
  · rw [e4, e5, e1]; exact h.target_spare
  · rw [e4, e2, hspare]; exact h.staged_built
  · rw [e1]; exact fun hp => absurd hp hr
  · rw [e1]; exact fun hp => absurd hp hr
  · rw [e6, h.busy_iff, hpc]
  · rw [e6, e1]; exact h.busy_prepared
  · exact k.memory h.mem_wf
  · rw [e6, e7]; exact h.deferred_idle
  · rw [e8]; exact h.schedule

/-- RT's program runs only in a prepared engine (R255). -/
theorem State.Sound.rt_prepared (h : s.Sound) (hpc : s.rt.pc ≠ .idle) : s.rtBusy = true ∧ s.runState = .prepared :=
  have hb := h.busy_iff.mpr hpc
  ⟨hb, h.busy_prepared hb⟩

/-- The end of a block keeps a sound state sound (R190 line 13). -/
theorem State.Sound.endBlock (h : s.Sound) : s.endBlock.Sound :=
  { live_built := h.live_built
    ready_built := h.ready_built
    ready_idle := h.ready_idle
    target_spare := h.target_spare
    staged_built := h.staged_built
    unprepared_empty := h.unprepared_empty
    unprepared_flags := h.unprepared_flags
    busy_iff := by simp [State.endBlock]
    busy_prepared := by simp [State.endBlock]
    mem_wf := wf_flushDeferred _ _ h.mem_wf
    deferred_idle := fun _ => rfl
    schedule := h.schedule }

/-- An error recorded in ERR keeps a sound state sound; the assertion stops the block of a prepared engine (R271, R273). -/
theorem State.Sound.raise (h : s.Sound) (e : BlockError) (hp : e = .assert → s.runState ≠ .unprepared) :
    (s.raise e).Sound := by
  cases e with
  | assert =>
    have he := h.endBlock
    have hr := hp rfl
    exact
      { live_built := fun _ => h.live_built hr
        ready_built := h.ready_built
        ready_idle := fun hx => ⟨(h.ready_idle hx).1, by simp [State.raise]⟩
        target_spare := fun hx => ⟨(h.target_spare hx).1, by simp [State.raise]⟩
        staged_built := h.staged_built
        unprepared_empty := by simp [State.raise]
        unprepared_flags := by simp [State.raise]
        busy_iff := he.busy_iff
        busy_prepared := by simp [State.raise, State.endBlock]
        mem_wf := he.mem_wf
        deferred_idle := he.deferred_idle
        schedule := h.schedule }
  | layout => exact { h with }
  | illegalCmd => exact { h with }
  | notPrepared => exact { h with }
  | blockLen => exact { h with }
  | busy => exact { h with }
  | prepareArg => exact { h with }
  | bus => exact { h with }

/-- The swap point keeps a sound state sound (R235, R238). -/
theorem State.Sound.fetch (h : s.Sound) : s.fetch.Sound := by
  unfold State.fetch
  split_ifs with hr
  · obtain ⟨hbg, hrs⟩ := h.ready_idle hr
    have hb := h.ready_built hr
    have hl : ({ s.setSlot s.live { s.liveSlot with status := .retired } with
          live := s.live.other, ready := false, rt := { s.rt with swapped := true } } : State).liveSlot =
        s.spareSlot := by
      simp only [State.liveSlot, State.spareSlot, State.slot, State.setSlot]
      cases s.live <;> rfl
    exact
      { live_built := fun _ => by rw [hl]; exact hb
        ready_built := fun hx => by cases hx
        ready_idle := fun hx => by cases hx
        target_spare := fun hx => absurd hbg hx
        staged_built := fun hx => by rw [show s.bg.pc = .publish from hx] at hbg; cases hbg
        unprepared_empty := fun hx => absurd hx hrs
        unprepared_flags := fun hx => absurd hx hrs
        busy_iff := h.busy_iff
        busy_prepared := h.busy_prepared
        mem_wf := h.mem_wf
        deferred_idle := h.deferred_idle
        schedule := h.schedule }
  · exact { h with }

/-- One step of RT keeps a sound state sound. -/
theorem State.Sound.rtStep (h : s.Sound) : s.rtStep.Sound := by
  by_cases hi : s.rt.pc = .idle
  · have : s.rtStep = s := by unfold State.rtStep; rw [hi]
    rw [this]; exact h
  obtain ⟨hb, hp⟩ := h.rt_prepared hi
  have hu : s.runState ≠ .unprepared := by rw [hp]; decide
  by_cases hf : s.rt.pc = .fetch
  · have : s.rtStep = s.rtFetch := by unfold State.rtStep; rw [hf]
    rw [this]
    have hs := h.fetch
    have hbusy : s.fetch.rtBusy = true := by unfold State.fetch; split_ifs <;> exact hb
    exact { hs with
      busy_iff := by simp [State.rtFetch, State.goto, hbusy] }
  by_cases hc : s.rt.pc = .check
  · have : s.rtStep = s.rtCheck := by unfold State.rtStep; rw [hc]
    rw [this]
    unfold State.rtCheck State.checkConsumed
    split_ifs
    · exact (h.raise .assert fun _ => hu).endBlock
    · exact h.endBlock
  · exact h.of_rtKeeps (State.rtStep_rtKeeps s hf hc)
      ⟨fun _ => hi, fun _ => State.rtStep_pc s hi hc⟩ hu

/-- A change of the spare slot of a prepared engine that nothing has published keeps a sound state sound, given what BG's
state asks of it. -/
theorem State.Sound.bgStep (h : s.Sound) : s.bgStep.Sound := by
  unfold State.bgStep
  cases hpc : s.bg.pc with
  | idle =>
    simp only
    split_ifs with hc
    · have hr : s.runState = .prepared := by simp [State.claimEnabled] at hc; exact hc.2
      have hu : s.runState ≠ .unprepared := by rw [hr]; decide
      exact
        { live_built := h.live_built
          ready_built := fun hx => by cases hx
          ready_idle := fun hx => by cases hx
          target_spare := fun _ => ⟨rfl, hu⟩
          staged_built := fun hx => by cases hx
          unprepared_empty := fun hx => absurd hx hu
          unprepared_flags := fun hx => absurd hx hu
          busy_iff := h.busy_iff
          busy_prepared := h.busy_prepared
          mem_wf := h.mem_wf
          deferred_idle := h.deferred_idle
          schedule := h.schedule }
    · unfold State.retire
      split_ifs with hre
      · have hx : s.spareSlot.status = .retired ∧ s.ready = false := by
          simp [State.retireEnabled] at hre; exact ⟨hre.1.2, hre.2⟩
        have hl : (s.setSlot s.live.other { s.spareSlot with status := .empty }).liveSlot = s.liveSlot :=
          State.slot_setSlot_of_other s.live _ s
        exact
          { live_built := fun hp => by rw [hl]; exact h.live_built hp
            ready_built := fun hy => by rw [show s.ready = true from hy] at hx; cases hx.2
            ready_idle := h.ready_idle
            target_spare := h.target_spare
            staged_built := fun hy => by rw [show s.bg.pc = .publish from hy] at hpc; cases hpc
            unprepared_empty := fun hy => by
              obtain ⟨h0, h1⟩ := h.unprepared_empty hy
              have : s.spareSlot.status = .empty := by
                unfold State.spareSlot State.slot; cases s.live <;> assumption
              rw [this] at hx; cases hx.1
            unprepared_flags := h.unprepared_flags
            busy_iff := h.busy_iff
            busy_prepared := h.busy_prepared
            mem_wf := h.mem_wf
            deferred_idle := h.deferred_idle
            schedule := h.schedule }
      · exact h
  | stage =>
    obtain ⟨ht, hu⟩ := h.target_spare (by rw [hpc]; decide)
    have hn := (h.live_built hu).nch_pos
    have hst : s.stage.bgGoto .publish =
        { s.setSlot s.live.other (Slot.build s.params (2 ^ s.bg.ordL.toNat) s.bg.kL.toNat s.latch.nch.toNat) with
          bg := { s.bg with pc := .publish } } := by
      rw [← ht]; rfl
    have hl : (s.stage.bgGoto .publish).liveSlot = s.liveSlot := by
      rw [hst]; exact State.slot_setSlot_of_other s.live _ s
    have hsp : (s.stage.bgGoto .publish).spareSlot =
        Slot.build s.params (2 ^ s.bg.ordL.toNat) s.bg.kL.toNat s.latch.nch.toNat := by
      rw [hst]; exact State.spareSlot_setSlot_spare _ s
    have hb : (s.stage.bgGoto .publish).spareSlot.Built s.latch.nch.toNat := by
      rw [hsp]; exact Slot.built_build _ (Nat.two_pow_pos _) hn
    exact
      { live_built := fun _ => by rw [hl]; exact h.live_built hu
        ready_built := fun _ => hb
        ready_idle := fun hy => by
          have := (h.ready_idle hy).1; rw [hpc] at this; cases this
        target_spare := fun _ => ⟨ht, hu⟩
        staged_built := fun _ => hb
        unprepared_empty := fun hy => absurd hy hu
        unprepared_flags := fun hy => absurd hy hu
        busy_iff := h.busy_iff
        busy_prepared := h.busy_prepared
        mem_wf := h.mem_wf
        deferred_idle := h.deferred_idle
        schedule := h.schedule }
  | publish =>
    obtain ⟨ht, hu⟩ := h.target_spare (by rw [hpc]; decide)
    exact
      { live_built := h.live_built
        ready_built := fun _ => h.staged_built hpc
        ready_idle := fun _ => ⟨rfl, hu⟩
        target_spare := fun hy => absurd rfl hy
        staged_built := fun hy => by cases hy
        unprepared_empty := fun hy => absurd hy hu
        unprepared_flags := fun hy => absurd hy hu
        busy_iff := h.busy_iff
        busy_prepared := h.busy_prepared
        mem_wf := h.mem_wf
        deferred_idle := h.deferred_idle
        schedule := h.schedule }

/-! ## BG's rebuild (R231 to R234) -/

/-- A claim is enabled in BG_IDLE. -/
theorem State.claimEnabled_pc {s : State} (h : s.claimEnabled = true) : s.bg.pc = .idle := by
  simp only [State.claimEnabled, Bool.and_eq_true, beq_iff_eq] at h
  exact h.1.1

/-- The three steps of a rebuild, all they do: the claim, the spare slot built, the publish. -/
theorem State.rebuild_eq {s : State} (h : s.claimEnabled = true) :
    s.bgStep.bgStep.bgStep =
      { s.setSlot s.live.other
          (Slot.build s.params (2 ^ s.csr.windowOrder.toNat) s.csr.overlapFactor.toNat s.latch.nch.toNat) with
        windowPending := false
        ready := true
        bg := ⟨.idle, s.live.other, s.csr.windowOrder, s.csr.overlapFactor⟩ } := by
  have h1 : s.bgStep = s.claim.bgGoto .stage := by
    unfold State.bgStep
    rw [State.claimEnabled_pc h]
    simp only [h, if_true]
  rw [h1]
  rfl

end Sys2Proof.Machine
end

