-- ==== Sys2Proof/Tests/Slice0.lean ====
section
/-! SUPPORT. The model's own tests: words written out from the encoding tables, worked examples of 95_test_vectors.md (its
vector numbers in the comments), each one step on a small state, and a witness for the hypotheses of each statement. -/

namespace Sys2Proof.Tests

open Sys2Proof.Machine

/-! ## Well-formed terms (R100, R102) -/

theorem test_wellFormed_refuses_long_block : (Instr.process (2 ^ 24)).wellFormed = false := by decide

theorem test_wellFormed_refuses_long_bypassed : (Instr.processBypassed (2 ^ 24)).wellFormed = false := by decide

theorem test_wellFormed_admits_longest_block : (Instr.process (2 ^ 24 - 1)).wellFormed = true := by decide

/-! ## Words (R103, R105; V60 to V62) -/

theorem test_decode_commands :
    decodeTableWord 32 0x00000000 = some .nop ∧ decodeTableWord 32 0x01000000 = some .prepare ∧
    decodeTableWord 32 0x02000000 = some .release ∧ decodeTableWord 32 0x03000200 = some (.process 512) ∧
    decodeTableWord 32 0x03ABCDEF = some (.process 11259375) ∧
    decodeTableWord 32 0x04000007 = some (.processBypassed 7) ∧
    decodeTableWord 32 0x05000000 = some .notifySettings ∧ decodeTableWord 32 0x06000000 = some .notifyWindow := by
  decide

theorem test_decode_ring_and_compressor :
    decodeTableWord 32 0x40000000 = some .rbWrite ∧ decodeTableWord 32 0x41000000 = some .rbLast ∧
    decodeTableWord 32 0x42000000 = some .rbDrain ∧ decodeTableWord 32 0x43000000 = some .rbAcc ∧
    decodeTableWord 32 0x48000000 = some .cmpProcess ∧ decodeTableWord 32 0x49000000 = some .cmpSetThr ∧
    decodeTableWord 32 0x4A000000 = some .cmpSetTime ∧ decodeTableWord 32 0x4B000000 = some .cmpSetRatio ∧
    decodeTableWord 32 0x50000000 = some .scAnalyze ∧ decodeTableWord 32 0x51000000 = some .aggAcc ∧
    decodeTableWord 32 0x52000000 = some .aggCommit := by decide

theorem test_decode_stft :
    decodeTableWord 32 0x58000000 = some .stftExtract ∧ decodeTableWord 32 0x59000000 = some .stftWinA ∧
    decodeTableWord 32 0x5A000000 = some .fftFwd ∧ decodeTableWord 32 0x5B000000 = some .binScale ∧
    decodeTableWord 32 0x5C000000 = some .fftInv ∧ decodeTableWord 32 0x5D000000 = some .stftWinS ∧
    decodeTableWord 32 0x5E000000 = some .stftOla ∧ decodeTableWord 32 0x5F000000 = some .stftCount ∧
    decodeTableWord 32 0x60000000 = some .stftCycle ∧ decodeTableWord 32 0x61000000 = some .bypCycle := by decide

theorem test_decode_scheduler_settings_swapper :
    decodeTableWord 32 0x64000000 = some .schedAlign ∧ decodeTableWord 32 0x65000000 = some .schedIoStep ∧
    decodeTableWord 32 0x66000000 = some .schedZfill ∧ decodeTableWord 32 0x67000000 = some .schedCheck ∧
    decodeTableWord 32 0x68000000 = some .setFlagCas ∧ decodeTableWord 32 0x69000000 = some .setUpdate ∧
    decodeTableWord 32 0x6A000000 = some .thrCurve ∧ decodeTableWord 32 0x6B000000 = some .gainUpdate ∧
    decodeTableWord 32 0x70000000 = some .cfgClaim ∧ decodeTableWord 32 0x71000000 = some .cfgStage ∧
    decodeTableWord 32 0x72000000 = some .cfgPublish ∧ decodeTableWord 32 0x73000000 = some .cfgFetch ∧
    decodeTableWord 32 0x74000000 = some .cfgRetire := by decide

/-- V61, and codes between the rows. -/
theorem test_decode_illegal :
    decodeTableWord 32 0x01000001 = none ∧ decodeTableWord 32 0x07000000 = none ∧
    decodeTableWord 32 0xFFFFFFFF = none ∧ decodeTableWord 32 0x44000000 = none ∧
    decodeTableWord 32 0x40000001 = none ∧ decodeTableWord 32 0x75000000 = none ∧
    decodeCommand 0x40000000#32 = none ∧ decodeMicroOp 0x00000000#32 = none := by decide

/-! ## Arithmetic (R18, R183) -/

/-- V8. -/
theorem test_product_then_sum :
    fMul 0x3DCCCCCD#32 0x3DCCCCCD#32 = 0x3C23D70B#32 ∧ fAdd 0x3F800000#32 0x3C23D70B#32 = 0x3F8147AE#32 := by decide

/-- V14, V22, V45. -/
theorem test_quotients_and_sums :
    fDiv 0x473B8000#32 0x44800000#32 = 0x423B8000#32 ∧ fDiv 0xC5C4597C#32 0x423B8000#32 = 0xC3060A92#32 ∧
    fDiv 0x3F800000#32 0x40400000#32 = 0x3EAAAAAB#32 ∧ fAdd 0x4B800000#32 0x3F800000#32 = 0x4B800000#32 := by decide

/-- V25: the magnitudes of (3, 4), (0, -0), (1e-30, 0) and (3e38, 0). -/
theorem test_magnitudes :
    fMag 0x40400000#32 0x40800000#32 = 0x40A00000#32 ∧ fMag 0#32 0x80000000#32 = 0#32 ∧
    fMag 0x0DA24260#32 0#32 = 0#32 ∧ fMag 0x7F61B1E6#32 0#32 = 0x7F800000#32 := by decide +kernel

/-! ## Micro-operations on small states -/

/-- The state an outcome gives, `d` where it gives none. -/
def after (o : Host.Outcome State Fault Refusal) (d : State) : State :=
  match o with
  | .next s => s
  | .fault _ => d
  | .refused _ => d

/-- A prepared machine whose live slot is `S`. -/
def bench (S : Slot) (rt : RtRegs) : State := { State.reset with runState := .prepared, slot0 := S, rt := rt }

/-- The numbers 1.0 to 10.0. -/
def v (n : Nat) : F32 := fOfNat n

/-- One output ring `r`, a source in the scratch buffer, a destination there too. -/
def ringBench (r : Ring) (src : List F32) (n : Nat) (dst : Option Span) (consume : Bool) (gain : F32) : State :=
  { bench { Slot.build .reference 8 4 1 with outr := [r], scratch := src } { RtRegs.reset with n := BitVec.ofNat 32 n } with
    op := { OpRegs.reset with ring := .output, src := .scratch, dst := dst, consume := consume, gain := gain } }

/-- V1. -/
theorem test_rbWrite :
    (after (exec .rbWrite (ringBench (Ring.fresh 8) [v 1, v 2, v 3, v 4, v 5] 5 none false 0#32)) State.reset).liveSlot.outr
      = [⟨8, [v 1, v 2, v 3, v 4, v 5, 0#32, 0#32, 0#32], 5, 0⟩] := by decide

/-- V2. -/
theorem test_rbWrite_wraps :
    (after (exec .rbWrite (ringBench ⟨8, [v 1, v 2, v 3, v 4, v 5, 0#32, 0#32, 0#32], 5, 0⟩
      [v 6, v 7, v 8, v 9, v 10] 5 none false 0#32)) State.reset).liveSlot.outr
      = [⟨8, [v 9, v 10, v 3, v 4, v 5, v 6, v 7, v 8], 2, 0⟩] := by decide

/-- V3. -/
theorem test_rbLast :
    (after (exec .rbLast (ringBench ⟨8, [v 9, v 10, v 3, v 4, v 5, v 6, v 7, v 8], 2, 0⟩
      [0#32, 0#32, 0#32, 0#32, v 1] 4 (some .scratch) false 0#32)) State.reset).liveSlot.scratch
      = [v 7, v 8, v 9, v 10, v 1] := by decide

/-- V6. -/
theorem test_rbDrain_consumes :
    let t := after (exec .rbDrain (ringBench ⟨8, [v 1, v 1, 0#32, 0#32, 0#32, 0#32, v 5, v 7], 0, 6⟩
      [0#32, 0#32, 0#32, v 4] 3 (some .scratch) true 0#32)) State.reset
    t.liveSlot.scratch = [v 5, v 7, v 1, v 4] ∧
      t.liveSlot.outr = [⟨8, [0#32, v 1, 0#32, 0#32, 0#32, 0#32, 0#32, 0#32], 0, 1⟩] := by decide

/-- V6 with `discard`. -/
theorem test_rbDrain_discards :
    let t := after (exec .rbDrain (ringBench ⟨8, [v 1, v 1, 0#32, 0#32, 0#32, 0#32, v 5, v 7], 0, 6⟩
      [v 4] 3 none true 0#32)) State.reset
    t.liveSlot.scratch = [v 4] ∧
      t.liveSlot.outr = [⟨8, [0#32, v 1, 0#32, 0#32, 0#32, 0#32, 0#32, 0#32], 0, 1⟩] := by decide

/-- V7. -/
theorem test_rbAcc :
    (after (exec .rbAcc (ringBench ⟨8, [0#32, 0#32, 0#32, 0#32, 0#32, 0#32, 0#32, v 2], 0, 6⟩
      [v 1, v 1, v 1, v 1] 4 none false 0x3F000000#32)) State.reset).liveSlot.outr
      = [⟨8, [0x3F000000#32, 0x3F000000#32, 0#32, 0#32, 0#32, 0#32, 0x3F000000#32, 0x40200000#32], 0, 6⟩] := by
  decide +kernel

/-- A window of 4 with two bins and one channel. -/
def cmpBench (env thr ratio cteA cteR m : F32) : State :=
  bench
    { Slot.build .reference 4 2 1 with
      env := [[env], [v 9]], thr := [thr, v 9], ratio := [ratio, v 9], cteA := [cteA, v 9], cteR := [cteR, v 9] }
    { RtRegs.reset with b := 1, m := m }

/-- V12: attack. -/
theorem test_cmpProcess_attack :
    (after (exec .cmpProcess (cmpBench (v 4) (v 1) (v 2) 0x3F000000#32 0x3E800000#32 (v 8))) State.reset).liveSlot.env
      = [[v 6], [v 9]] := by decide

/-- V13. -/
theorem test_cmpProcess_unity :
    (after (exec .cmpProcess (cmpBench (v 4) (v 1) (v 1) 0x3F000000#32 0x3F000000#32 (v 7))) State.reset).rt.m2
      = v 7 := by decide

/-- V15: a silent sidechain: m' is 0.0 for m 2.0, and a NaN for m 0.0, whose envelope stays 0.0. -/
theorem test_reference_core_at_threshold_zero :
    refStep 0#32 0#32 (v 4) 0#32 0#32 (v 2) = (v 2, 0#32) ∧ (refStep 0#32 0#32 (v 4) 0#32 0#32 0#32).1 = 0#32 ∧
    refGain 0#32 0#32 (v 4) = fPropagate fDefaultNaN (fSub (fDiv fOne (v 4)) fOne) := ⟨by decide, by decide, by rfl⟩

/-- V16. -/
theorem test_cmpSetThr :
    (after (exec .cmpSetThr { cmpBench (v 4) (v 1) (v 2) 0#32 0#32 0#32 with op := { OpRegs.reset with t := v 4 } })
      State.reset).liveSlot.thr = [v 4, v 9] := by decide

/-- V16. -/
theorem test_cmpSetRatio :
    (after (exec .cmpSetRatio { cmpBench (v 4) (v 1) (v 2) 0#32 0#32 0#32 with
      op := { OpRegs.reset with ratio := 0x42480000#32 } }) State.reset).liveSlot.ratio
      = [0x42480000#32, 0x42480000#32] := by decide

/-- V14: a time of 0.0. -/
theorem test_cmpSetTime_zero :
    let t := after (exec .cmpSetTime (cmpBench 0#32 0#32 0#32 (v 1) (v 1) 0#32)) State.reset
    t.liveSlot.cteA = [0#32, 0#32] ∧ t.liveSlot.cteR = [0#32, 0#32] := by decide

/-- The transform's own values are free: what is fixed is that it runs once and moves no ring (R161). -/
theorem test_scAnalyze_runs_once :
    let t := after (exec .scAnalyze (bench { Slot.build .reference 4 2 1 with sidr := [⟨4, [v 1, v 2, v 3, v 4], 1, 0⟩] }
      RtRegs.reset)) State.reset
    t.fresh = 1 ∧ t.liveSlot.sidr = [⟨4, [v 1, v 2, v 3, v 4], 1, 0⟩] := by decide

/-- V20. -/
theorem test_aggAcc :
    (after (exec .aggAcc (bench { Slot.build .reference 4 2 1 with acc := [v 3, v 9] } { RtRegs.reset with b := 1, m := v 5 }))
      State.reset).liveSlot.acc = [v 8, v 9] := by decide

/-- V21. -/
theorem test_aggCommit :
    let t := after (exec .aggCommit (bench { Slot.build .reference 4 2 2 with acc := [v 8, v 6] } RtRegs.reset)) State.reset
    t.liveSlot.thr = [v 4, v 3] ∧ t.liveSlot.acc = [0#32, 0#32] := by decide

/-- R172: oldest sample first. -/
theorem test_stftExtract :
    (after (exec .stftExtract (bench { Slot.build .reference 4 2 1 with
      inr := [⟨4, [v 1, v 2, v 3, v 4], 1, 0⟩], scratch := [0#32, 0#32, 0#32, 0#32, v 7] } RtRegs.reset))
      State.reset).liveSlot.scratch = [v 2, v 3, v 4, v 1, v 7] := by decide

/-- A window of 4 with a table and a frame written out. -/
def windowBench : State :=
  bench { Slot.build .reference 4 2 1 with win := [v 2, v 3, v 2, v 1], scratch := [v 1, v 2, v 3, v 4, v 5] } RtRegs.reset

/-- V27: coefficients 0, 1, 128, 256 and 384 of the reference table for W 512. -/
theorem test_reference_window :
    refWin 512 0 = 0#32 ∧ refWin 512 1 = 0x3880EF32#32 ∧ refWin 512 128 = 0x3F5105EC#32 ∧
    refWin 512 256 = 0x3FD105EC#32 ∧ refWin 512 384 = 0x3F5105EC#32 := by decide +kernel

/-- R174. -/
theorem test_stftWinA :
    (after (exec .stftWinA windowBench) State.reset).liveSlot.scratch = [v 2, v 6, v 6, v 4, v 5] := by decide

/-- R178. -/
theorem test_stftWinS :
    (after (exec .stftWinS windowBench) State.reset).liveSlot.scratch = [v 2, v 6, v 6, v 4, v 5] := by decide

/-- R175: the values are free. -/
theorem test_fftFwd_shape :
    let t := after (exec .fftFwd windowBench) State.reset
    t.fresh = 1 ∧ t.liveSlot.scratch.length = 8 := by decide

/-- R177: the values are free. -/
theorem test_fftInv_shape :
    let t := after (exec .fftInv windowBench) State.reset
    t.fresh = 1 ∧ t.liveSlot.scratch.length = 8 := by decide

/-- V26: with ratio 1.0 bin (3, 4) stays; bin (-0, 0) keeps its -0; bin 0 stays; the envelopes see 5.0 and 0.0. -/
theorem test_binScale :
    let t := after (exec .binScale (bench { Slot.build .reference 4 2 1 with
      ratio := [v 1, v 1], thr := [v 1, v 1], env := [[v 7], [v 7]]
      scratch := [v 9, v 8, v 3, v 4, 0x80000000#32, 0#32, v 6, v 6] } RtRegs.reset)) State.reset
    t.liveSlot.scratch = [v 9, v 8, v 3, v 4, 0x80000000#32, 0#32, v 6, v 6] ∧ t.liveSlot.env = [[v 5], [0#32]] := by
  decide +kernel

/-- R176: the working registers after the last bin, which has magnitude 5.0 and the multiplier 1.0. -/
theorem test_binScale_registers :
    (after (exec .binScale (bench { Slot.build .reference 2 2 1 with
      ratio := [v 1], thr := [v 1], env := [[v 7]], scratch := [v 9, v 8, v 3, v 4] } RtRegs.reset)) State.reset).rt
      = { RtRegs.reset with b := 1, m := v 5, m2 := v 5, s := v 1 } := by decide +kernel

/-- R179. -/
theorem test_stftOla :
    (after (exec .stftOla { bench { Slot.build .reference 4 2 1 with
      outr := [⟨4, [0#32, 0#32, 0#32, v 1], 0, 3⟩], scratch := [v 1, v 2, v 3, v 4] } RtRegs.reset with
      gain := 0x3F000000#32 }) State.reset).liveSlot.outr
      = [⟨4, [v 1, 0x3FC00000#32, v 2, 0x3FC00000#32], 0, 3⟩] := by decide +kernel

/-- V29. -/
theorem test_stftCount :
    (after (exec .stftCount (bench { Slot.build .reference 4 2 1 with count := 3#32 } RtRegs.reset)) State.reset).liveSlot.count
      = 4#32 := by decide

/-- V29. -/
theorem test_stftCount_saturates :
    (after (exec .stftCount (bench { Slot.build .reference 4 2 1 with count := 0xFFFFFFFF#32 } RtRegs.reset))
      State.reset).liveSlot.count = 0xFFFFFFFF#32 := by decide

/-- R170: two transforms for each channel, one window counted. -/
theorem test_stftCycle :
    let t := after (exec .stftCycle (bench (Slot.build .reference 4 2 2) RtRegs.reset)) State.reset
    t.fresh = 4 ∧ t.liveSlot.count = 1#32 := by decide

/-- V30. -/
theorem test_bypCycle :
    let t := after (exec .bypCycle (bench { Slot.build .reference 8 4 1 with
      inr := [⟨8, [v 1, v 2, v 3, v 4, v 5, v 6, v 7, v 8], 0, 0⟩] } RtRegs.reset)) State.reset
    t.liveSlot.scratch.take 8 = [v 1, v 2, v 3, v 4, v 5, v 6, v 7, v 8] ∧
      t.liveSlot.outr = [⟨8, [v 1, v 2, 0#32, 0#32, 0#32, 0#32, 0#32, 0#32], 0, 0⟩] ∧ t.liveSlot.count = 1#32 := by
  decide

/-- A slot of W 512 whose input ring stands at `pos`; the samples do not matter. -/
def alignBench (K pos M : Nat) : State :=
  bench { Slot.build .reference 4 2 1 with W := 512, K := K, inr := [⟨512, [], pos, 0⟩] } { RtRegs.reset with M := BitVec.ofNat 32 M }

/-- V31 to V36: pos 0, 100, 400, 384, 300. -/
theorem test_schedAlign :
    (after (exec .schedAlign (alignBench 4 0 100)) State.reset).rt.a = 0 ∧
    (after (exec .schedAlign (alignBench 4 100 300)) State.reset).rt.a = 28 ∧
    (after (exec .schedAlign (alignBench 4 400 1)) State.reset).rt.a = 1 ∧
    (after (exec .schedAlign (alignBench 4 384 128)) State.reset).rt.a = 0 ∧
    (after (exec .schedAlign (alignBench 4 300 84)) State.reset).rt.a = 84 ∧
    (after (exec .schedAlign (alignBench 4 384 0)) State.reset).rt.a = 0 := by decide

/-- V38: an interval that does not divide the window. -/
theorem test_schedAlign_irregular :
    (after (exec .schedAlign (alignBench 3 510 170)) State.reset).rt.a = 0 ∧
    (after (exec .schedAlign (alignBench 3 168 170)) State.reset).rt.a = 2 := by decide

/-- IN[0][0..1] = 1.0, 2.0 and an output ring that holds 5.0, 7.0, ... -/
def ioBench (count : Word) : State :=
  State.setSamples .input 0 0 [v 1, v 2] (bench { Slot.build .reference 4 4 1 with
    outr := [⟨4, [v 7, v 8, v 9, v 5], 0, 3⟩], inr := [⟨4, [0#32, 0#32, 0#32, 0#32], 3, 0⟩], count := count }
    { RtRegs.reset with n := 2 })

/-- V37: silence while count is below K; the output ring is drained all the same. -/
theorem test_schedIoStep_silent :
    let t := after (exec .schedIoStep (ioBench 3#32)) State.reset
    t.samples .output 0 0 2 = [0#32, 0#32] ∧ t.liveSlot.outr = [⟨4, [0#32, v 8, v 9, 0#32], 0, 1⟩] ∧
      t.liveSlot.inr = [⟨4, [v 2, 0#32, 0#32, v 1], 1, 0⟩] := by decide

/-- V37: real output from count K on. -/
theorem test_schedIoStep_emits :
    (after (exec .schedIoStep (ioBench 4#32)) State.reset).samples .output 0 0 2 = [v 5, v 7] := by decide

/-- V39. -/
theorem test_schedZfill :
    (after (exec .schedZfill (bench (Slot.build .reference 4 2 1) { RtRegs.reset with M := 3 })) State.reset).samples .output 1 0 3
      = [0#32, 0#32, 0#32] := by decide

/-- R198. -/
theorem test_schedCheck_asserts :
    let t := after (exec .schedCheck { bench (Slot.build .reference 4 2 1) { RtRegs.reset with M := 3, off := 2 } with
      rtBusy := true }) State.reset
    t.err = ⟨2#8, 2#8⟩ ∧ t.runState = .fatal ∧ t.rtBusy = false := by decide

/-- R198. -/
theorem test_schedCheck_passes :
    (after (exec .schedCheck (bench (Slot.build .reference 4 2 1) { RtRegs.reset with M := 3, off := 3 })) State.reset).err
      = ⟨0#8, 0#8⟩ := by decide

/-- V40. -/
theorem test_setFlagCas :
    let t := after (exec .setFlagCas { State.reset with settingsChanged := true }) State.reset
    t.settingsChanged = false ∧ t.rt.changed = true := by decide

/-- V41: K, ratio, coefficients and gain at the reset parameters; the curve rests on NUM and is free. -/
theorem test_setUpdate :
    let t := after (exec .setUpdate (bench (Slot.build .reference 8 2 1) RtRegs.reset)) State.reset
    t.liveSlot.K = 4 ∧ t.liveSlot.ratio = [v 1, v 1, v 1, v 1] ∧ t.liveSlot.cteA = [0#32, 0#32, 0#32, 0#32] ∧
      t.gain = 0x3E800000#32 := by decide

/-- V42: bins 1, 3, 7 and 2047 at 2 Hz, base 0.0; bin 1 with base 10.0. -/
theorem test_curve_decibels :
    curveDecibels 0#32 (v 2) 1 = fOfInt (-3) ∧ curveDecibels 0#32 (v 2) 3 = fOfInt (-6) ∧
    curveDecibels 0#32 (v 2) 7 = fOfInt (-9) ∧ curveDecibels 0#32 (v 2) 2047 = fOfInt (-33) ∧
    curveDecibels (v 10) (v 2) 1 = v 7 := by decide

/-- V42 as an instruction: NUM.pow is asked for 10.0 to the power -3 / 20. -/
theorem test_thrCurve :
    (after (exec .thrCurve { bench (Slot.build .reference 4 2 1) RtRegs.reset with latch := ⟨v 8, 0#32, 1#32, false⟩ })
      State.reset).liveSlot.thr.head? = some (Config.pow (v 10) 0xBE19999A#32) := by rfl

/-- V45, V46: K 4, with AUTO_MAKEUP 0, and with the sidechain formula at ratio 50 and 4. -/
theorem test_gainUpdate :
    let s := { bench (Slot.build .reference 4 4 1) RtRegs.reset with scEff := true }
    let auto (r : F32) : State := { s with csr := { s.csr with autoMakeup := 1#1, ratio := r } }
    (after (exec .gainUpdate s) State.reset).gain = 0x3E800000#32 ∧
    (after (exec .gainUpdate (auto 0x42480000#32)) State.reset).gain = 0x3F3D70A4#32 ∧
    (after (exec .gainUpdate (auto (v 4))) State.reset).gain = 0x3E8F5C29#32 := by decide

/-- V47: with the curve's formula a ratio of 1.0 leaves the gain of 1 / K. -/
theorem test_gainUpdate_curve :
    let s := bench (Slot.build .reference 4 4 1) RtRegs.reset
    (after (exec .gainUpdate { s with csr := { s.csr with autoMakeup := 1#1, ratio := v 1 } }) State.reset).gain
      = 0x3E800000#32 := by decide

/-- V50. -/
theorem test_cfgClaim :
    let s := { bench (Slot.build .reference 4 2 1) RtRegs.reset with windowPending := true, ready := true }
    let t := after (exec .cfgClaim { s with csr := { s.csr with windowOrder := 10#4 } }) State.reset
    t.windowPending = false ∧ t.ready = false ∧ t.bg.target = .s1 ∧ t.bg.ordL = 10#4 ∧ t.bg.kL = 4#7 := by decide

/-- V51, with an order of 3. -/
theorem test_cfgStage :
    let t := after (exec .cfgStage { bench (Slot.build .reference 4 2 1) RtRegs.reset with
      bg := ⟨.stage, .s1, 3#4, 4#7⟩, latch := ⟨0#32, 0#32, 2#32, false⟩ }) State.reset
    t.slot1.status = .built ∧ t.slot1.W = 8 ∧ t.slot1.K = 4 ∧ t.slot1.env.length = 4 ∧ t.slot1.inr.length = 2 := by
  decide

/-- V51. -/
theorem test_cfgPublish : (after (exec .cfgPublish State.reset) State.reset).ready = true := by decide

/-- V52. -/
theorem test_cfgFetch_swaps :
    let t := after (exec .cfgFetch { bench (Slot.build .reference 4 2 1) RtRegs.reset with
      ready := true, slot1 := Slot.build .reference 8 2 1 }) State.reset
    t.live = .s1 ∧ t.ready = false ∧ t.slot0.status = .retired ∧ t.rt.swapped = true ∧ t.liveSlot.W = 8 := by decide

/-- V52. -/
theorem test_cfgFetch_stays :
    let t := after (exec .cfgFetch (bench (Slot.build .reference 4 2 1) { RtRegs.reset with swapped := true })) State.reset
    t.live = .s0 ∧ t.rt.swapped = false ∧ t.slot0.status = .built := by decide

/-- V55. -/
theorem test_cfgRetire :
    (after (exec .cfgRetire { bench { Slot.build .reference 4 2 1 with status := .retired } RtRegs.reset with live := .s1 })
      State.reset).slot0.status = .empty := by decide

/-! ## Commands (V70 to V78) -/

/-- A machine with the registers PREPARE reads. -/
def prepareBench (sr maxBlk nch scch : Word) : State :=
  { State.reset with csr := { Csr.reset with sampleRate := sr, maxBlock := maxBlk, numCh := nch, scNumCh := scch } }

theorem test_nop : after (exec .nop State.reset) (bench Slot.blank RtRegs.reset) = State.reset := by decide

/-- V71 to V73: the error words. -/
theorem test_prepare_errors :
    (after (exec .prepare State.reset) State.reset).err.word = 0x00000740#32 ∧
    (after (exec .prepare (prepareBench 0x473B8000#32 512#32 2#32 1#32)) State.reset).err.word = 0x00000101#32 ∧
    (after (exec .prepare (prepareBench 0x473B8000#32 512#32 3#32 1#32)) State.reset).err.word = 0x00000740#32 ∧
    (after (exec .prepare (prepareBench 0x473B8000#32 16385#32 2#32 0#32)) State.reset).err.word = 0x00000740#32 ∧
    (after (exec .prepare (prepareBench 0x7F800000#32 512#32 2#32 0#32)) State.reset).err.word = 0x00000740#32 := by
  decide

/-- P1: after PREPARE STATUS is 0x801 and LATENCY 4096. -/
theorem test_prepare_succeeds :
    let t := after (exec .prepare (prepareBench 0x473B8000#32 512#32 1#32 0#32)) State.reset
    t.runState = .prepared ∧ t.slot0.W = 4096 ∧ t.gain = 0x3E800000#32 ∧ t.latencyWord = 4096#32 := by decide

theorem test_release :
    let t := after (exec .release { bench (Slot.build .reference 4 2 1) RtRegs.reset with live := .s1, settingsChanged := true })
      State.reset
    t.runState = .unprepared ∧ t.slot0.status = .empty ∧ t.live = .s0 ∧ t.settingsChanged = false := by decide

/-- V70, V74. -/
theorem test_process_errors :
    (after (exec (.process 64) State.reset) State.reset).err.word = 0x00000408#32 ∧
    (after (exec (.process 513) { bench (Slot.build .reference 4 2 1) RtRegs.reset with latch := ⟨0#32, 512#32, 1#32, false⟩ })
      State.reset).err.word = 0x00000510#32 := by decide

theorem test_process_starts :
    let t := after (exec (.process 512) { bench (Slot.build .reference 4 2 1) RtRegs.reset with
      latch := ⟨0#32, 512#32, 1#32, false⟩ }) State.reset
    t.rtBusy = true ∧ t.rt.pc = .fetch ∧ t.rt.M = 512 ∧ t.rt.bypass = false := by decide

theorem test_processBypassed_starts :
    let t := after (exec (.processBypassed 7) { bench (Slot.build .reference 4 2 1) RtRegs.reset with
      latch := ⟨0#32, 512#32, 1#32, false⟩ }) State.reset
    t.rtBusy = true ∧ t.rt.pc = .fetch ∧ t.rt.M = 7 ∧ t.rt.bypass = true := by decide

/-- V76: busy. -/
theorem test_busy :
    let s := { bench (Slot.build .reference 4 2 1) RtRegs.reset with rtBusy := true }
    (after (exec (.processBypassed 64) s) State.reset).err.word = 0x00000620#32 ∧
    (after (exec .release s) State.reset).err.word = 0x00000620#32 := by decide

/-- V76, V78. -/
theorem test_notifySettings :
    (after (exec .notifySettings (bench Slot.blank RtRegs.reset)) State.reset).settingsChanged = true ∧
    (after (exec .notifySettings State.reset) State.reset).settingsChanged = false := by decide

/-- V77, V78. -/
theorem test_notifyWindow :
    (after (exec .notifyWindow (bench Slot.blank RtRegs.reset)) State.reset).windowPending = true ∧
    (after (exec .notifyWindow { State.reset with runState := .fatal }) State.reset).windowPending = false := by decide

/-! ## HOST's accesses (V63 to V66, V75) -/

/-- V63. -/
theorem test_addresses :
    sampleAddr .reference .input 0 5 = 0x00010014 ∧ sampleAddr .reference .input 1 0 = 0x00020000 ∧
    sampleAddr .reference .sidechain 1 0 = 0x00040000 ∧ sampleAddr .reference .output 1 3 = 0x0006000C ∧
    targetAt .reference 0x0006FFFC = .sample ∧ targetAt .reference 0x00070000 = .unmapped := by decide

/-- V64. -/
theorem test_reads_after_reset :
    (State.reset.hostRead 0x00#32 4).hostData = 0x53435354#32 ∧ (State.reset.hostRead 0x04#32 4).hostData = 0x00010000#32 ∧
    (State.reset.hostRead 0x0C#32 4).hostData = 0#32 ∧ (State.reset.hostRead 0x34#32 4).hostData = 0x3F800000#32 ∧
    (State.reset.hostRead 0x44#32 4).hostData = 12#32 ∧ (State.reset.hostRead 0x48#32 4).hostData = 4#32 := by decide

/-- V65. -/
theorem test_field_writes :
    (after (hostWrite 0x44#32 4 0xFFFFFFFF#32 State.reset) State.reset).readReg .windowOrder = 0x0000000F#32 ∧
    (after (hostWrite 0x48#32 4 0x184#32 State.reset) State.reset).readReg .overlapFactor = 4#32 ∧
    (after (hostWrite 0x30#32 4 3#32 State.reset) State.reset).readReg .sidechainActive = 1#32 := by decide

/-- V66. -/
theorem test_bad_accesses :
    (after (hostWrite 0x50#32 4 5#32 State.reset) State.reset).err.word = 0#32 ∧
    (State.reset.hostRead 0x100#32 4).err.word = 0x00000880#32 ∧ (State.reset.hostRead 0x0E#32 4).err.word = 0x00000880#32 := by
  decide

/-- V75. -/
theorem test_err_write_one_to_clear :
    (ErrReg.clear 0x04#32 ⟨0x0C#8, 4#8⟩).word = 0x00000408#32 ∧ (ErrReg.clear 0x02#32 ⟨0x0E#8, 4#8⟩).word = 0x0000040E#32 ∧
    (ErrReg.clear 0xFF00#32 ⟨0x0C#8, 4#8⟩).word = 0x0000040C#32 := by decide

/-- P4: STATUS before and after a claim and a publish. -/
theorem test_status_words :
    (bench (Slot.build .reference 4 2 1) RtRegs.reset).statusWord = 0x0801#32 ∧
    ({ bench (Slot.build .reference 4 2 1) RtRegs.reset with windowPending := true } : State).statusWord = 0x0821#32 ∧
    ({ bench (Slot.build .reference 4 2 1) RtRegs.reset with bg := ⟨.stage, .s1, 10#4, 4#7⟩ } : State).statusWord = 0x0909#32 ∧
    ({ bench (Slot.build .reference 4 2 1) RtRegs.reset with ready := true, slot1 := Slot.build .reference 4 2 1 } : State).statusWord
      = 0x2A81#32 := by decide

/-- R74, R107: a word on the micro-operation port runs, a command's word there does not. -/
theorem test_step_runs_the_port :
    after (step (State.reset.withFetchWord 32 0x72000000)) State.reset = { State.reset with ready := true } ∧
    after (step (State.reset.withFetchWord 32 0x01000000)) State.reset = { State.reset with err := ⟨0x40#8, 7#8⟩ } := by
  decide

/-! ## Witnesses: concrete states and operands that meet the hypotheses of each statement, at boundary values -/

/-- A prepared mono machine, W 512 and K 4, with nothing running. -/
def engine : State :=
  { State.reset with
    runState := .prepared, latch := ⟨0x473B8000#32, 512#32, 1#32, false⟩, slot0 := Slot.build .reference 512 4 1 }

theorem engine_built : engine.liveSlot.Built 1 := Slot.built_build 4 (by decide) (by decide)

theorem engine_sound : engine.Sound where
  live_built _ := engine_built
  ready_built h := by cases h
  ready_idle h := by cases h
  target_spare h := absurd rfl h
  staged_built h := by cases h
  unprepared_empty h := by cases h
  unprepared_flags h := by cases h
  busy_iff := by decide
  busy_prepared h := by cases h
  mem_wf := List.Pairwise.nil
  deferred_idle _ := rfl
  schedule := rfl

theorem engine_ranged : engine.Ranged where
  csr_range := ⟨by decide, by decide, by decide⟩
  live_range _ := ⟨by decide, by decide, by decide⟩
  bg_range h := by cases h
  spare_range h := by rcases h with h | h <;> cases h
  schedule_range := rfl

theorem reset_sound : State.reset.Sound where
  live_built h := absurd rfl h
  ready_built h := by cases h
  ready_idle h := by cases h
  target_spare h := absurd rfl h
  staged_built h := by cases h
  unprepared_empty _ := ⟨rfl, rfl⟩
  unprepared_flags _ := ⟨rfl, rfl, rfl⟩
  busy_iff := by decide
  busy_prepared h := by cases h
  mem_wf := List.Pairwise.nil
  deferred_idle _ := rfl
  schedule := rfl

/-- The engine in the middle of a block: RT before the second I/O step of a block of 300 that began with 28 samples. -/
def running : State :=
  { engine with
    rtBusy := true
    rt := { RtRegs.reset with pc := .loopIo, M := 300, a := 28, off := 156, n := 128, nwin := 3, k := 1 } }

theorem running_sound : running.Sound :=
  { engine_sound with
    busy_iff := by decide
    busy_prepared := fun _ => rfl
    deferred_idle := fun h => by cases h }

/-- The engine with a published configuration of W 1024, RT before its swap point. -/
def published : State :=
  { engine with
    ready := true, slot1 := Slot.build .reference 1024 4 1, rtBusy := true
    rt := { RtRegs.reset with pc := .fetch, M := 64 } }

theorem published_sound : published.Sound where
  live_built _ := engine_built
  ready_built _ := Slot.built_build 4 (by decide) (by decide)
  ready_idle _ := ⟨rfl, by decide⟩
  target_spare h := absurd rfl h
  staged_built h := by cases h
  unprepared_empty h := by cases h
  unprepared_flags h := by cases h
  busy_iff := by decide
  busy_prepared _ := rfl
  mem_wf := List.Pairwise.nil
  deferred_idle h := by cases h
  schedule := rfl

theorem witness_DecodeEncodeRoundTrip :
    (Instr.processBypassed (2 ^ 24 - 1)).wellFormed = true ∧ (Instr.process 0).wellFormed = true ∧
    Instr.cfgRetire.wellFormed = true := by decide

theorem witness_DecodedWordIsItsEncoding :
    decode 0x03FFFFFF#32 = .ok (.process (2 ^ 24 - 1)) ∧ decode 0x74000000#32 = .ok .cfgRetire := ⟨rfl, rfl⟩

theorem witness_IllegalWordOnlyRecordsError :
    7 ≤ (opcOf 0x07000000#32).toNat ∧ 7 ≤ (opcOf 0xFFFFFFFF#32).toNat ∧
    ((opcOf 0x01000001#32).toNat ∈ [0, 1, 2, 5, 6] ∧ argOf 0x01000001#32 ≠ 0) ∧
    ((opcOf 0x06FFFFFF#32).toNat ∈ [0, 1, 2, 5, 6] ∧ argOf 0x06FFFFFF#32 ≠ 0) ∧
    ¬ (7 ≤ (opcOf 0x04FFFFFF#32).toNat ∨
      ((opcOf 0x04FFFFFF#32).toNat ∈ [0, 1, 2, 5, 6] ∧ argOf 0x04FFFFFF#32 ≠ 0)) ∧
    ¬ (7 ≤ (opcOf 0x06000000#32).toNat ∨
      ((opcOf 0x06000000#32).toNat ∈ [0, 1, 2, 5, 6] ∧ argOf 0x06000000#32 ≠ 0)) := by decide

theorem witness_StepRunsDecodedInstruction :
    ({ engine with agenda := [.hostWrite 8#32 4 0x03000200#32] } : State).agenda
        = .hostWrite 0x00000008#32 4 0x03000200#32 :: [] ∧
    decode 0x03000200#32 = .ok (.process 512) ∧ (Instr.process 512).isCommand = true ∧
    ({ engine with agenda := [.issue 0x72000000#32, .rt] } : State).agenda = .issue 0x72000000#32 :: [.rt] ∧
    decode 0x72000000#32 = .ok .cfgPublish ∧ Instr.cfgPublish.isCommand = false ∧
    Instr.cfgPublish.wellFormed = true ∧ decodeMicroOp 0x75000000#32 = none :=
  ⟨rfl, rfl, rfl, rfl, rfl, rfl, rfl, by decide⟩

/-- No word above the rows decodes to anything, so the clause about other words on the port has a case. -/
theorem witness_StepRunsDecodedInstruction_fault (i : Instr) (h : decode 0x75000000#32 = .ok i) : i.isCommand = true := by
  have e : decode 0x75000000#32 = .error (.noSuchOpcode 0x75#8) := rfl
  rw [e] at h
  cases h

theorem witness_PrepareEstablishesEngine :
    ∀ s ∈ [prepareBench 0x473B8000#32 1#32 1#32 0#32, prepareBench 0x00000001#32 16384#32 2#32 2#32],
      s.rtBusy = false ∧ s.runState ≠ .fatal ∧ fIsFinite s.csr.sampleRate = true ∧
      fLt fZero s.csr.sampleRate = true ∧ 1 ≤ s.csr.maxBlock.toNat ∧ s.csr.maxBlock.toNat ≤ s.params.maxBlock ∧
      1 ≤ s.csr.numCh.toNat ∧ s.csr.numCh.toNat ≤ s.params.maxCh ∧
      (s.csr.scNumCh = 0#32 ∨ s.csr.scNumCh = s.csr.numCh) := by decide

/-- Each way an argument is bad, and a bad layout alone. -/
theorem witness_PrepareChecksItsArguments :
    fIsFinite (prepareBench 0x7F800000#32 1#32 1#32 0#32).csr.sampleRate = false ∧
    fLt fZero (prepareBench 0x80000000#32 1#32 1#32 0#32).csr.sampleRate = false ∧
    (prepareBench 0x473B8000#32 0#32 1#32 0#32).csr.maxBlock = 0#32 ∧
    (prepareBench 0x473B8000#32 16385#32 1#32 0#32).params.maxBlock
      < (prepareBench 0x473B8000#32 16385#32 1#32 0#32).csr.maxBlock.toNat ∧
    (prepareBench 0x473B8000#32 1#32 0#32 0#32).csr.numCh = 0#32 ∧
    (prepareBench 0x473B8000#32 1#32 3#32 0#32).params.maxCh
      < (prepareBench 0x473B8000#32 1#32 3#32 0#32).csr.numCh.toNat ∧
    (prepareBench 0x473B8000#32 16384#32 2#32 1#32).prepareArgsOk = true ∧
    (prepareBench 0x473B8000#32 16384#32 2#32 1#32).csr.scNumCh ≠ 0#32 ∧
    (prepareBench 0x473B8000#32 16384#32 2#32 1#32).csr.scNumCh
      ≠ (prepareBench 0x473B8000#32 16384#32 2#32 1#32).csr.numCh ∧
    State.reset.rtBusy = false ∧ State.reset.runState ≠ .fatal := by decide

theorem witness_ReleaseFreesBothSlots :
    running.rtBusy = true ∧ engine.rtBusy = false ∧ engine.runState ≠ .fatal ∧
    ({ engine with runState := .fatal } : State).runState = .fatal ∧
    State.reset.Sound ∧ State.reset.runState = .unprepared :=
  ⟨rfl, rfl, by decide, rfl, reset_sound, rfl⟩

theorem witness_NotifySetsItsFlagOnlyWhenPrepared :
    engine.runState = .prepared ∧ State.reset.runState ≠ .prepared := by decide

theorem witness_BlockCommandStarts :
    engine.rtBusy = false ∧ engine.runState = .prepared ∧ 512 ≤ engine.latch.maxBlock.toNat ∧
    0 ≤ engine.latch.maxBlock.toNat := by decide

/-- RT before each line of its program, and the conditions of the lines that have some, at both ends of their ranges. -/
theorem witness_BlockCommandStarts_lines :
    (∀ pc : RtPc, ({ running with rt := { running.rt with pc := pc } } : State).rt.pc = pc) ∧
    running.rt.changed = false ∧ running.rt.swapped = false ∧
    running.rt.a.toNat ≤ running.rt.M.toNat ∧ 0 < running.liveSlot.interval ∧
    running.rt.k.toNat < running.rt.nwin.toNat ∧
    (let s := { running with rt := { running.rt with k := 3, off := 300 } }
     s.rt.nwin.toNat ≤ s.rt.k.toNat ∧ s.rt.off.toNat ≤ s.rt.M.toNat) ∧
    running.rt.off.toNat ≤ running.rt.M.toNat :=
  ⟨fun _ => rfl, rfl, rfl, by decide, by decide, by decide, by decide, by decide⟩

theorem witness_UnacceptableCommandOnlyRecordsError :
    running.rtBusy = true ∧ State.reset.rtBusy = false ∧ State.reset.runState ≠ .prepared ∧
    ({ engine with runState := .fatal } : State).rtBusy = false ∧
    engine.runState = .prepared ∧ engine.latch.maxBlock.toNat < 513 := by decide

/-- A full ring of 8 in the output channel 0, with `n` samples to move. -/
def ringState (n : Nat) : State :=
  ringBench ⟨8, [v 9, v 10, v 3, v 4, v 5, v 6, v 7, v 8], 2, 3⟩ (List.replicate 16 (v 1)) n (some .scratch) true (v 1)

theorem witness_RbWriteAppends :
    ((ringState 11).liveSlot.rings (ringState 11).op.ring)[(ringState 11).rt.c.toNat]?
      = some ⟨8, [v 9, v 10, v 3, v 4, v 5, v 6, v 7, v 8], 2, 3⟩ ∧
    [v 9, v 10, v 3, v 4, v 5, v 6, v 7, v 8].length = 8 ∧ 0 < 8 := by decide

theorem witness_RbLastCopiesNewestSamples :
    ((ringState 8).liveSlot.rings (ringState 8).op.ring)[(ringState 8).rt.c.toNat]?
      = some ⟨8, [v 9, v 10, v 3, v 4, v 5, v 6, v 7, v 8], 2, 3⟩ ∧ (ringState 8).rt.n.toNat ≤ 8 := by decide

/-- With `consume`, at a count above the capacity, and without. -/
theorem witness_RbDrainEmitsOldestSamples :
    ((ringState 9).liveSlot.rings (ringState 9).op.ring)[(ringState 9).rt.c.toNat]?
      = some ⟨8, [v 9, v 10, v 3, v 4, v 5, v 6, v 7, v 8], 2, 3⟩ ∧ (ringState 9).op.consume = true ∧
    (ringBench (Ring.fresh 8) [] 8 none false 0#32).op.consume = false ∧
    ((ringBench (Ring.fresh 8) [] 8 none false 0#32).liveSlot.rings .output)[0]? = some (Ring.fresh 8) := by decide

theorem witness_RbAccAddsScaledSamples :
    ((ringState 8).liveSlot.rings (ringState 8).op.ring)[(ringState 8).rt.c.toNat]?
      = some ⟨8, [v 9, v 10, v 3, v 4, v 5, v 6, v 7, v 8], 2, 3⟩ ∧ 0 < 8 ∧ (ringState 8).rt.n.toNat ≤ 8 := by decide

theorem witness_RingRemembersRecentHistory : 8 ≤ 8 ∧ 0 ≤ 8 := by decide

/-- Bins 1 and W/2. -/
theorem witness_CmpProcessStepsOneInstance :
    ∀ b ∈ [1, 2],
      let s := { cmpBench (v 4) (v 1) (v 2) 0#32 0#32 (v 7) with rt := { RtRegs.reset with b := BitVec.ofNat 32 b } }
      1 ≤ s.rt.b.toNat ∧ s.rt.b.toNat ≤ s.liveSlot.W / 2 ∧ s.liveSlot.env[s.rt.b.toNat - 1]?.isSome = true ∧
      (∀ row ∈ s.liveSlot.env[s.rt.b.toNat - 1]?, s.rt.c.toNat < row.length) ∧ s.params.core = .reference := by decide

/-- Both zeros, the smallest and the largest finite magnitude. -/
theorem witness_UnityAtRatioOne :
    (fIsFinite 0#32 = true ∧ fIsZero 0#32 = true) ∧ (fIsFinite 0x80000000#32 = true ∧ fIsZero 0x80000000#32 = true) ∧
    (fIsFinite 0x00000001#32 = true ∧ fSign 0x00000001#32 = false) ∧
    (fIsFinite 0x7F7FFFFF#32 = true ∧ fSign 0x7F7FFFFF#32 = false) := by decide

/-- The smallest magnitude above a threshold of 0.0 and the largest at ratio 4.0, silence, and a NaN. -/
theorem witness_UnityAtRatioOne_corners :
    Params.reference.core = .reference ∧
    (fLt fZero (refStep fZero fZero (v 4) fZero fZero 0x00000001#32).1 = true ∧ fIsFinite 0x00000001#32 = true ∧
      fSign 0x00000001#32 = false) ∧
    (fLt fZero (refStep fZero fZero (v 4) fZero fZero 0x7F7FFFFF#32).1 = true ∧ fIsFinite 0x7F7FFFFF#32 = true ∧
      fSign 0x7F7FFFFF#32 = false) ∧
    fLt (fSub (fDiv fOne (v 4)) fOne) fZero = true ∧ fIsZero (fSub (fDiv fOne (v 4)) fOne) = false ∧
    fIsZero (refStep fZero fZero (v 4) fZero fZero fZero).1 = true ∧ fIsFinite fZero = true ∧
    fIsNaN fDefaultNaN = true := by decide +kernel

theorem witness_CompressorThresholdAndRatioWrites :
    ∀ b ∈ [1, 2],
      let s := { cmpBench (v 4) (v 1) (v 2) 0#32 0#32 (v 7) with rt := { RtRegs.reset with b := BitVec.ofNat 32 b } }
      1 ≤ s.rt.b.toNat ∧ s.rt.b.toNat ≤ s.liveSlot.W / 2 ∧ s.liveSlot.ratio.length = s.liveSlot.W / 2 := by decide

theorem witness_CompressorTimesBecomeCoefficients :
    engine.liveSlot.cteA.length = engine.liveSlot.W / 2 ∧ engine.liveSlot.cteR.length = engine.liveSlot.W / 2 ∧
    engine.params.core = .reference :=
  ⟨engine_built.cteA_length, engine_built.cteR_length, rfl⟩

theorem witness_AggregatorAveragesIntoThresholds :
    engine.liveSlot.thr.length = engine.liveSlot.W / 2 ∧ engine.liveSlot.acc.length = engine.liveSlot.W / 2 ∧
    1 ≤ 256 ∧ 256 ≤ engine.liveSlot.W / 2 :=
  ⟨engine_built.thr_length, engine_built.acc_length, by decide, by decide⟩

theorem witness_ScAnalyzeAccumulatesSpectrum :
    engine.liveSlot.Built 1 ∧ engine.liveSlot.sidr[engine.rt.c.toNat]? = some (Ring.fresh 512) := ⟨engine_built, rfl⟩

theorem witness_StftExtractTakesTheLastWindow :
    engine.liveSlot.Built 1 ∧ engine.liveSlot.inr[engine.rt.c.toNat]? = some (Ring.fresh 512) := ⟨engine_built, rfl⟩

theorem witness_FftForwardKeepsItsInterface :
    [0#32, 0x80000000#32].all fIsZero = true ∧ 513 < engine.liveSlot.W + 2 ∧ 513 < 2 * engine.liveSlot.W := by decide

/-- Bins of a window of 2 that differ in the imaginary parts of bins 0 and W/2 alone. -/
theorem witness_FftInverseKeepsItsInterface :
    [v 1, v 2, v 3, v 4].length = 2 + 2 ∧ [v 1, v 5, v 3, v 6].length = 2 + 2 ∧
    (∀ i, i ≠ 1 → i ≠ 2 + 1 → [v 1, v 2, v 3, v 4][i]? = [v 1, v 5, v 3, v 6][i]?) ∧ 511 < engine.liveSlot.W := by
  refine ⟨rfl, rfl, ?_, by decide⟩
  intro i h1 h3
  match i with
  | 0 => rfl
  | 1 => exact absurd rfl h1
  | 2 => rfl
  | 3 => exact absurd rfl h3
  | _ + 4 => rfl

/-- Bins 1 and W/2, and the elements on either side of them. -/
theorem witness_BinScaleCompressesEveryBin :
    engine.liveSlot.Built 1 ∧ engine.rt.c.toNat < 1 ∧ engine.liveSlot.env[1 - 1]? = some [fZero] ∧
    engine.liveSlot.env[256 - 1]? = some [fZero] ∧ 256 ≤ engine.liveSlot.W / 2 ∧
    2 * (engine.liveSlot.W / 2) + 2 ≤ 514 ∧ 1 < 2 ∧
    (bench (Slot.build .reference 1 2 1) RtRegs.reset).liveSlot.Built 1 ∧ (Slot.build .reference 1 2 1).W / 2 = 0 :=
  ⟨engine_built, by decide, rfl, rfl, by decide, by decide, by decide, Slot.built_build 2 (by decide) (by decide), rfl⟩

/-- A window of 4 with ratio 1.0 and a spectrum of (3, 4) in bins 1 and 2. -/
def unitySlot : Slot :=
  { Slot.build .reference 4 2 1 with ratio := [fOne, fOne], scratch := [0#32, 0#32, v 3, v 4, v 3, v 4, 0#32, 0#32] }

theorem unitySlot_built : unitySlot.Built 1 :=
  { Slot.built_build (W := 4) (nch := 1) 2 (by decide) (by decide) with scratch_length := rfl, ratio_length := rfl }

theorem witness_RatioOneLeavesTheSpectrum :
    (bench unitySlot RtRegs.reset).liveSlot.Built 1 ∧ (bench unitySlot RtRegs.reset).rt.c.toNat < 1 ∧
    unitySlot.ratio = List.replicate (unitySlot.W / 2) fOne ∧
    (∀ b, 1 ≤ b → b ≤ unitySlot.W / 2 →
      fIsFinite (fMag (elemAt unitySlot.scratch (2 * b)) (elemAt unitySlot.scratch (2 * b + 1))) = true) := by
  refine ⟨unitySlot_built, by decide, rfl, ?_⟩
  intro b h1 h2
  have h3 : b ≤ 2 := h2
  match b with
  | 1 => decide +kernel
  | 2 => decide +kernel
  | b + 3 => omega

theorem witness_OverlapAddLandsOnTheNextSamples :
    engine.liveSlot.Built 1 ∧ engine.liveSlot.outr[engine.rt.c.toNat]? = some (Ring.fresh 512) := ⟨engine_built, rfl⟩

/-- One channel, and the largest channel count the channel register can count over. -/
theorem witness_StftCycleIsItsProgram :
    engine.liveSlot.nch ≤ 2 ^ 32 ∧ engine.scEff = false ∧
    ({ engine with slot0 := { engine.slot0 with nch := 2 ^ 32 } } : State).liveSlot.nch ≤ 2 ^ 32 :=
  ⟨by decide, rfl, Nat.le_refl _⟩

theorem witness_BypassCycleCopiesDelayedInput : engine.liveSlot.Built 1 ∧ 0 < engine.liveSlot.K :=
  ⟨engine_built, by decide⟩

/-- K 2 and K W. -/
theorem witness_AlignmentReachesTheNextInterval :
    engine.liveSlot.inr[0]? = some (Ring.fresh 512) ∧ 0 < engine.liveSlot.K ∧ engine.liveSlot.K ≤ engine.liveSlot.W ∧
    (bench (Slot.build .reference 4 4 1) RtRegs.reset).liveSlot.K = (bench (Slot.build .reference 4 4 1) RtRegs.reset).liveSlot.W :=
  ⟨rfl, by decide, by decide, rfl⟩

/-- A whole window of samples, all of which exist. -/
theorem witness_IoStepWritesInputAndDrainsOutput :
    engine.liveSlot.Built 1 ∧ ({ engine with rt := { engine.rt with n := 512 } } : State).rt.n.toNat ≤ engine.liveSlot.W ∧
    sampleExists engine.params 0 511 = true :=
  ⟨engine_built, by decide, by decide⟩

theorem witness_SurplusChannelsAreZeroFilled :
    running.liveSlot.nch ≤ 1 ∧ 299 < running.rt.M.toNat ∧ sampleExists running.params 1 299 = true := by decide

theorem witness_CheckRaisesAssertOnlyOnMismatch :
    engine.rt.off = engine.rt.M ∧ running.rt.off ≠ running.rt.M ∧ running.deferred = [] ∧
    ({ running with deferred := [(0x10000, 1#32)] } : State).deferred ≠ [] := by decide

theorem witness_FlagExchangeConsumesOnce :
    ({ engine with settingsChanged := true } : State).settingsChanged = true ∧ engine.settingsChanged = false := by decide

theorem witness_SettingsUpdateRecomputesInPlace :
    engine.liveSlot.thr.length = engine.liveSlot.W / 2 ∧ engine.liveSlot.ratio.length = engine.liveSlot.W / 2 ∧
    engine.liveSlot.cteA.length = engine.liveSlot.W / 2 ∧ engine.liveSlot.cteR.length = engine.liveSlot.W / 2 :=
  ⟨engine_built.thr_length, engine_built.ratio_length, engine_built.cteA_length, engine_built.cteR_length⟩

/-- Orders 0 and 15, on a machine with the reference window table. -/
theorem witness_StageBuildsTheTarget :
    engine.params.win = .reference ∧ 0 < 2 ^ (0#4).toNat ∧ 0 < 2 ^ (15#4).toNat := by decide

theorem witness_ThresholdCurveFallsThreeDecibelsPerOctave :
    engine.liveSlot.thr.length = engine.liveSlot.W / 2 ∧ 1 ≤ 256 ∧ 256 ≤ engine.liveSlot.W / 2 ∧
    engine.params.db2lin = .reference :=
  ⟨engine_built.thr_length, by decide, by decide, rfl⟩

theorem witness_SteppedUpdateEqualsAtomicUpdate :
    let s := { running with rt := { running.rt with pc := .updOverlap, changed := true } }
    let u := { running with rt := { running.rt with pc := .updOverlap, swapped := true } }
    s.rt.pc = .updOverlap ∧ s.rt.changed = true ∧ u.rt.pc = .updOverlap ∧ u.rt.swapped = true := by decide

theorem witness_PublishMarksReadyAndFetchSwaps : published.ready = true ∧ engine.ready = false := by decide

theorem witness_RetireEmptiesTheSpare :
    let s := { engine with slot1 := { Slot.build .reference 4 2 1 with status := .retired } }
    s.bg.pc = .idle ∧ ¬ (s.windowPending = true ∧ s.runState = .prepared) ∧ s.spareSlot.status = .retired ∧
      s.ready = false := by decide

theorem witness_RebuildGoesLiveAtTheNextFetch :
    let s := { engine with windowPending := true }
    s.Sound ∧ s.runState = .prepared ∧ s.bg.pc = .idle ∧ s.windowPending = true :=
  ⟨{ engine_sound with unprepared_flags := fun h => by cases h }, rfl, rfl, rfl⟩

/-- A step of RT in a block, the swap point, and a command. -/
theorem witness_EveryStepKeepsSoundness :
    running.Sound ∧ (∃ t, step running = .next t) ∧ published.Sound ∧ (∃ t, step published = .next t) ∧
    State.reset.Sound ∧ (∃ t, step State.reset = .next t) :=
  ⟨running_sound, ⟨_, rfl⟩, published_sound, ⟨_, rfl⟩, reset_sound, ⟨_, rfl⟩⟩

theorem witness_ResetMeetsEveryInvariant : engine.agenda.all Event.isHardware = true := rfl

/-- The fetch of a published slot, and an ordinary line. -/
theorem witness_AgentsKeepToTheirOwnSlot :
    published.Sound ∧ published.rt.pc = .fetch ∧ published.ready = true ∧ running.Sound ∧ running.ready = false :=
  ⟨published_sound, rfl, rfl, running_sound, rfl⟩

theorem witness_OnlyResetLeavesFatal :
    let s := { engine with
      runState := .fatal, err := ⟨2#8, 2#8⟩, agenda := [.hostWrite 0x10#32 4 0xFF#32] }
    s.runState = .fatal ∧ s.err.causes.getLsbD 1 = true ∧ s.agenda.head? ≠ some .reset ∧ ∃ t, step s = .next t :=
  ⟨rfl, by decide, by decide, ⟨_, rfl⟩⟩

theorem witness_NoRunRaisesAssert :
    running.Sound ∧ running.Ranged ∧ running.Consumed ∧ running.runState ≠ .fatal ∧ ∃ t, step running = .next t :=
  ⟨running_sound, ⟨engine_ranged.csr_range, engine_ranged.live_range, engine_ranged.bg_range,
    engine_ranged.spare_range, rfl⟩, by
    show 28 ≤ 300 ∧ 156 = min 300 (28 + 1 * (512 / 4)) ∧ 1 < 3 ∧ 3 = (300 - 28 + 512 / 4 - 1) / (512 / 4)
    decide, by decide, ⟨_, rfl⟩⟩

/-- The longest block and the empty one; the fetch finds a published slot, or the settings flag set. -/
theorem witness_AcceptedBlockCompletes :
    engine.Sound ∧ engine.Ranged ∧ engine.rtBusy = false ∧ engine.runState = .prepared ∧
    512 ≤ engine.latch.maxBlock.toNat ∧ 0 ≤ engine.latch.maxBlock.toNat ∧ engine.ready = false ∧
    (let s := { engine with ready := true, slot1 := Slot.build .reference 1024 4 1, settingsChanged := true }
     s.Sound ∧ s.Ranged ∧ s.rtBusy = false ∧ s.runState = .prepared ∧ s.ready = true ∧ s.settingsChanged = true) :=
  ⟨engine_sound, engine_ranged, rfl, rfl, by decide, by decide, rfl,
    { engine_sound with
      ready_built := fun _ => Slot.built_build 4 (by decide) (by decide)
      ready_idle := fun _ => ⟨rfl, by decide⟩
      staged_built := fun h => by cases h
      unprepared_empty := fun h => by cases h
      unprepared_flags := fun h => by cases h },
    { engine_ranged with spare_range := fun _ => ⟨by decide, by decide, by decide⟩ }, rfl, rfl, rfl, rfl⟩

theorem witness_LatencyChangesOnlyAtTheSwapOrACommand :
    published.Sound ∧ (∃ t, step published = .next t) ∧ published.agenda = [] ∧ published.rtBusy = true ∧
    published.rt.pc = .fetch ∧ published.ready = true :=
  ⟨published_sound, ⟨_, rfl⟩, rfl, rfl, rfl, rfl⟩

/-- The first and the last reserved offset, and the first and the last sample of the memory. -/
theorem witness_HostReadsChangeNothing :
    (0x50 ≤ (0x50#32).toNat ∧ (0x50#32).toNat < 0x100 ∧ (0x50#32).toNat % 4 = 0) ∧
    (0x50 ≤ (0xFC#32).toNat ∧ (0xFC#32).toNat < 0x100 ∧ (0xFC#32).toNat % 4 = 0) ∧
    sampleExists engine.params 0 0 = true ∧ sampleAddr engine.params .input 0 0 < 2 ^ 32 ∧
    sampleExists engine.params 1 16383 = true ∧ sampleAddr engine.params .output 1 16383 < 2 ^ 32 ∧
    engine.rtBusy = false := by decide

/-- A wrong width, a misaligned address, and both ends of the unmapped ranges. -/
theorem witness_BadAccessOnlyRecordsBus :
    2 ≠ 4 ∧ (0x0E#32).toNat % 4 ≠ 0 ∧ (0x100 ≤ (0x100#32).toNat ∧ (0x100#32).toNat < 0x10000) ∧
    (0x100 ≤ (0xFFFC#32).toNat ∧ (0xFFFC#32).toNat < 0x10000) ∧
    0x10000 + 3 * (4 * engine.params.maxCh * engine.params.maxBlock) ≤ (0x70000#32).toNat ∧
    (0x50 ≤ (0xFC#32).toNat ∧ (0xFC#32).toNat < 0x100 ∧ (0xFC#32).toNat % 4 = 0) := by decide

theorem witness_BlockMemoryKeepsWhatHostWrites :
    engine.rtBusy = false ∧ sampleExists engine.params 1 16383 = true ∧
    sampleAddr engine.params .output 1 16383 < 2 ^ 32 ∧
    (sampleAddr engine.params .output 1 16383 - 1 < sampleAddr engine.params .output 1 16383 ∧
      sampleAddr engine.params .output 1 16383 + 4 ≤ sampleAddr engine.params .output 1 16383 + 4) := by decide

end Sys2Proof.Tests
end

/-! PROOFS. The statements about the state: soundness under every step, ownership of the slots, reset, STATUS and the
block sample memory (spec 10_state.md). -/

namespace Sys2Proof.Machine

/-! ## The state after reset (R58, R300) -/

/-- Reset of a machine with the parameters `p`, with what the external reset keeps or counts on: the counters and the
rest of the schedule (log 24). -/
def State.afterReset (p : Params) (fresh epoch : Nat) (agenda : List Event) : State :=
  { State.resetWith p with fresh := fresh, epoch := epoch, agenda := agenda }

theorem State.applyReset_eq_afterReset (s : State) :
    s.applyReset = State.afterReset s.params s.fresh (s.epoch + 1) s.agenda := rfl

theorem State.reset_eq_afterReset : State.reset = State.afterReset Params.reference 0 0 [] := rfl

/-- A reset machine is sound, whatever its parameters and counters. -/
theorem State.sound_afterReset (p : Params) (fresh epoch : Nat) {agenda : List Event}
    (h : agenda.all Event.isHardware = true) : (State.afterReset p fresh epoch agenda).Sound where
  live_built hp := absurd rfl hp
  ready_built hr := by cases hr
  ready_idle hr := by cases hr
  target_spare hb := absurd rfl hb
  staged_built hb := by cases hb
  unprepared_empty _ := ⟨rfl, rfl⟩
  unprepared_flags _ := ⟨rfl, rfl, rfl⟩
  busy_iff := by simp [State.afterReset, State.resetWith, RtRegs.reset]
  busy_prepared hb := by cases hb
  mem_wf := List.Pairwise.nil
  deferred_idle _ := rfl
  schedule := h

/-- The external reset gives a sound state from any state with a hardware schedule (R300). -/
theorem State.sound_applyReset {s : State} (h : s.agenda.all Event.isHardware = true) : s.applyReset.Sound :=
  State.sound_afterReset s.params s.fresh (s.epoch + 1) h

theorem State.reset_sound : State.reset.Sound :=
  State.sound_afterReset Params.reference 0 0 rfl

/-- The window order 12 and the overlap factor 4 of reset are in range, and nothing else is in use (R58, R10). -/
theorem State.reset_ranged : State.reset.Ranged where
  csr_range := ⟨by decide, by decide, by decide⟩
  live_range hp := absurd rfl hp
  bg_range hb := by cases hb
  spare_range hx := by rcases hx with hr | hb <;> contradiction
  schedule_range := rfl

/-- RT is at rest after reset, where nothing is asked of its counters. -/
theorem State.reset_consumed : State.reset.Consumed := trivial

/-! ## What a step of BG changes (R57, R231 to R236) -/

/-- A step of BG changes only the spare slot, BG's own registers and the flags of the rebuild; a published slot
stands. -/
structure BgKeeps (s t : State) : Prop where
  state_eq : t = { s.setSlot s.live.other t.spareSlot with
    bg := t.bg, ready := t.ready, windowPending := t.windowPending }
  published : s.ready = true → t.spareSlot = s.spareSlot

/-- A change of BG's registers and the rebuild's flags alone. -/
theorem BgKeeps.of_flags (s : State) (bg : Bg) (ready windowPending : Bool) :
    BgKeeps s { s with bg := bg, ready := ready, windowPending := windowPending } where
  state_eq := by
    show _ = ({ s.setSlot s.live.other s.spareSlot with
      bg := bg, ready := ready, windowPending := windowPending } : State)
    rw [State.spareSlot, State.setSlot_self]
  published _ := rfl

/-- A change of the spare slot while nothing is published. -/
theorem BgKeeps.of_setSlot {s : State} (h : s.ready = false) (v : Slot) (bg : Bg) :
    BgKeeps s { s.setSlot s.live.other v with bg := bg } where
  state_eq := by
    have hv : ({ s.setSlot s.live.other v with bg := bg } : State).spareSlot = v := State.spareSlot_setSlot_spare v s
    rw [hv]
  published hr := by rw [h] at hr; cases hr

/-- The retirement takes a slot only while nothing is published (R231). -/
theorem State.ready_of_retireEnabled {s : State} (h : s.retireEnabled = true) : s.ready = false := by
  simp only [State.retireEnabled, Bool.and_eq_true, Bool.not_eq_true'] at h
  exact h.2

theorem State.retire_bgKeeps (s : State) : BgKeeps s s.retire := by
  unfold State.retire
  split_ifs with hre
  · exact BgKeeps.of_setSlot (State.ready_of_retireEnabled hre) _ s.bg
  · exact BgKeeps.of_flags s s.bg s.ready s.windowPending

/-- While BG rebuilds, nothing is published (R26). -/
theorem State.Sound.ready_of_rebuilding {s : State} (h : s.Sound) (hpc : s.bg.pc ≠ .idle) : s.ready = false :=
  Bool.eq_false_iff.mpr fun hr => hpc (h.ready_idle hr).1

theorem State.Sound.bgStep_bgKeeps {s : State} (h : s.Sound) : BgKeeps s s.bgStep := by
  unfold State.bgStep
  cases hpc : s.bg.pc with
  | idle =>
    simp only
    split_ifs
    · exact BgKeeps.of_flags s _ false false
    · exact State.retire_bgKeeps s
  | stage =>
    have hne : s.bg.pc ≠ .idle := by rw [hpc]; decide
    obtain ⟨htarget, -⟩ := h.target_spare hne
    have key := BgKeeps.of_setSlot (h.ready_of_rebuilding hne)
      (Slot.build s.params (2 ^ s.bg.ordL.toNat) s.bg.kL.toNat s.latch.nch.toNat) { s.bg with pc := .publish }
    rw [← htarget] at key
    exact key
  | publish => exact BgKeeps.of_flags s _ true s.windowPending

/-! ## What a step of RT changes (R57, R190, R235) -/

/-- A line of RT's program but the fetch and the end of the block leaves LIVE and the spare slot alone. -/
theorem RtKeeps.live_spareSlot {s t : State} (k : RtKeeps s t) : t.live = s.live ∧ t.spareSlot = s.spareSlot := by
  rw [k.state_eq]
  exact ⟨rfl, State.spareSlot_setSlot_live t.liveSlot s⟩

/-- The end of a block leaves LIVE and both slots alone, whether or not Assert is raised. -/
theorem State.rtCheck_live_spareSlot (s : State) :
    s.rtCheck.live = s.live ∧ s.rtCheck.spareSlot = s.spareSlot := by
  unfold State.rtCheck State.checkConsumed
  split_ifs <;> exact ⟨rfl, rfl⟩

/-- The fetch leaves the spare slot alone, or takes a published one live and retires the slot it leaves. -/
theorem State.rtFetch_slots (s : State) :
    (s.rtFetch.live = s.live ∧ s.rtFetch.spareSlot = s.spareSlot) ∨
      (s.ready = true ∧ s.rtFetch.live = s.live.other ∧ s.rtFetch.liveSlot = s.spareSlot ∧
        s.rtFetch.spareSlot = { s.liveSlot with status := .retired }) := by
  unfold State.rtFetch
  rw [State.goto_live, State.liveSlot_goto, State.spareSlot_goto]
  cases hr : s.ready with
  | false =>
    rw [State.fetch_unpublished s hr]
    exact .inl ⟨rfl, rfl⟩
  | true =>
    obtain ⟨hlive, hnew, hold, -⟩ := State.fetch_published s hr
    exact .inr ⟨rfl, hlive, hnew, hold⟩

theorem State.rtStep_slots (s : State) :
    (s.rtStep.live = s.live ∧ s.rtStep.spareSlot = s.spareSlot) ∨
      (s.rt.pc = .fetch ∧ s.ready = true ∧ s.rtStep.live = s.live.other ∧ s.rtStep.liveSlot = s.spareSlot ∧
        s.rtStep.spareSlot = { s.liveSlot with status := .retired }) := by
  by_cases hf : s.rt.pc = .fetch
  · have hstep : s.rtStep = s.rtFetch := by unfold State.rtStep; rw [hf]
    rw [hstep]
    exact (State.rtFetch_slots s).imp_right fun h => ⟨hf, h⟩
  left
  by_cases hc : s.rt.pc = .check
  · have hstep : s.rtStep = s.rtCheck := by unfold State.rtStep; rw [hc]
    rw [hstep]
    exact State.rtCheck_live_spareSlot s
  · exact (State.rtStep_rtKeeps s hf hc).live_spareSlot

/-! ## Soundness under the host commands (R190, R250, R251, R253, R230) -/

/-- The checks of PREPARE raise no Assert. -/
theorem State.prepareError_ne_assert {s : State} {e : BlockError} (h : s.prepareError = some e) : e ≠ .assert := by
  unfold State.prepareError at h
  split_ifs at h <;> cases h <;> decide

/-- PREPARE passes its checks only with at least one channel. -/
theorem State.numCh_pos_of_prepareError_none {s : State} (h : s.prepareError = none) : 0 < s.csr.numCh.toNat := by
  unfold State.prepareError at h
  split_ifs at h with _ _ hargs
  have hok : s.prepareArgsOk = true := by simpa using hargs
  simp only [State.prepareArgsOk, Bool.and_eq_true, decide_eq_true_eq] at hok
  obtain ⟨⟨-, hpos⟩, -⟩ := hok
  exact hpos

/-- The checks of a block command raise no Assert. -/
theorem State.blockError_ne_assert {M : Nat} {s : State} {e : BlockError} (h : s.blockError M = some e) :
    e ≠ .assert := by
  unfold State.blockError at h
  split_ifs at h <;> cases h <;> decide

/-- A block command passes its checks only in a prepared engine. -/
theorem State.prepared_of_blockError_none {M : Nat} {s : State} (h : s.blockError M = none) :
    s.runState = .prepared := by
  unfold State.blockError at h
  split_ifs at h with _ hp
  simpa using hp

/-- The engine PREPARE sets up, before its settings update (R250 lines 5 to 8 and 10). -/
def State.firstEngine (s : State) : State :=
  { s.latchPrepare.abandonRebuild.buildFirst.sampleSidechain with runState := .prepared }

/-- The settings update does not read RUN_STATE, so PREPARE may be taken to enter PREPARED before it. -/
theorem State.prepareRun_eq (s : State) : s.prepareRun = s.firstEngine.settingsUpdate true := by
  unfold State.prepareRun State.firstEngine
  rw [State.settingsUpdate_eq, State.settingsUpdate_eq]
  rfl

theorem State.settingsUpdate_rt (forced : Bool) (s : State) : (s.settingsUpdate forced).rt = s.rt := by
  rw [State.settingsUpdate_eq]
  rfl

variable {s : State}

theorem State.Sound.firstEngine (h : s.Sound) (hn : 0 < s.csr.numCh.toNat) : s.firstEngine.Sound where
  live_built _ := Slot.built_build _ (Nat.two_pow_pos _) hn
  ready_built hr := by cases hr
  ready_idle hr := by cases hr
  target_spare hx := absurd rfl hx
  staged_built hx := by cases hx
  unprepared_empty hx := by cases hx
  unprepared_flags hx := by cases hx
  busy_iff := h.busy_iff
  busy_prepared _ := rfl
  mem_wf := h.mem_wf
  deferred_idle := h.deferred_idle
  schedule := h.schedule

theorem State.Sound.prepareRun (h : s.Sound) (hn : 0 < s.csr.numCh.toNat) : s.prepareRun.Sound := by
  rw [State.prepareRun_eq]
  refine (h.firstEngine hn).of_rtKeeps (State.settingsUpdate_rtKeeps true _) ?_ (by simp [State.firstEngine])
  rw [State.settingsUpdate_rt]

theorem State.Sound.releaseRun (h : s.Sound) (hb : s.rtBusy = false) : s.releaseRun.Sound where
  live_built hp := absurd rfl hp
  ready_built hr := by cases hr
  ready_idle hr := by cases hr
  target_spare hx := absurd rfl hx
  staged_built hx := by cases hx
  unprepared_empty _ := ⟨rfl, rfl⟩
  unprepared_flags _ := ⟨rfl, rfl, rfl⟩
  busy_iff := h.busy_iff
  busy_prepared hx := by rw [show s.rtBusy = true from hx] at hb; cases hb
  mem_wf := h.mem_wf
  deferred_idle := h.deferred_idle
  schedule := h.schedule

theorem State.Sound.startBlock (h : s.Sound) (hp : s.runState = .prepared) (bypass : Bool) (M : Nat) :
    (s.startBlock bypass M).Sound :=
  { h with
    busy_iff := ⟨fun _ => by simp [State.startBlock], fun _ => rfl⟩
    busy_prepared := fun _ => hp
    deferred_idle := fun hb => by cases hb }

/-- A flag set in a prepared engine. -/
theorem State.Sound.setFlags (h : s.Sound) (hp : s.runState = .prepared) (settings window : Bool) :
    ({ s with settingsChanged := settings, windowPending := window } : State).Sound :=
  { h with unprepared_flags := fun hx => by rw [show s.runState = .unprepared from hx] at hp; cases hp }

/-- What an instruction answers is sound when it is a next state. -/
def SoundNext (o : Host.Outcome State Fault Refusal) : Prop := ∀ t, o = .next t → t.Sound

theorem soundNext_next {t : State} (h : t.Sound) : SoundNext (.next t) := by
  intro u hu
  cases hu
  exact h

/-- The acceptance of a block command, of either program (R190 lines 1 to 3, R199). -/
def acceptBlock (bypass : Bool) (M : Nat) (s : State) : Host.Outcome State Fault Refusal :=
  match s.blockError M with
  | some e => .next (s.raise e)
  | none => .next (s.startBlock bypass M)

theorem execProcess_eq_acceptBlock (M : Nat) (s : State) : execProcess M s = acceptBlock false M s := rfl

theorem execProcessBypassed_eq_acceptBlock (M : Nat) (s : State) : execProcessBypassed M s = acceptBlock true M s := rfl

theorem State.Sound.acceptBlock (h : s.Sound) (bypass : Bool) (M : Nat) :
    SoundNext (Machine.acceptBlock bypass M s) := by
  unfold Machine.acceptBlock
  cases he : s.blockError M with
  | some e => exact soundNext_next (h.raise e fun ha => absurd ha (State.blockError_ne_assert he))
  | none => exact soundNext_next (h.startBlock (State.prepared_of_blockError_none he) bypass M)

theorem State.Sound.execPrepare (h : s.Sound) : SoundNext (Machine.execPrepare s) := by
  unfold Machine.execPrepare
  cases he : s.prepareError with
  | some e => exact soundNext_next (h.raise e fun ha => absurd ha (State.prepareError_ne_assert he))
  | none => exact soundNext_next (h.prepareRun (State.numCh_pos_of_prepareError_none he))

theorem State.Sound.execRelease (h : s.Sound) : SoundNext (Machine.execRelease s) := by
  unfold Machine.execRelease
  split_ifs with hb
  · exact soundNext_next (h.raise .busy fun ha => by cases ha)
  · exact soundNext_next (h.raise .notPrepared fun ha => by cases ha)
  · exact soundNext_next (h.releaseRun (Bool.eq_false_iff.mpr hb))

theorem State.Sound.execNotifySettings (h : s.Sound) : SoundNext (Machine.execNotifySettings s) := by
  unfold Machine.execNotifySettings
  split_ifs with hp
  · exact soundNext_next (h.setFlags hp true s.windowPending)
  · exact soundNext_next h

theorem State.Sound.execNotifyWindow (h : s.Sound) : SoundNext (Machine.execNotifyWindow s) := by
  unfold Machine.execNotifyWindow
  split_ifs with hp
  · exact soundNext_next (h.setFlags hp s.settingsChanged true)
  · exact soundNext_next h

/-- Every host command keeps a sound state sound (R103). -/
theorem State.Sound.exec_command (h : s.Sound) {i : Instr} (hi : i.isCommand = true) : SoundNext (exec i s) := by
  cases i with
  | nop => exact soundNext_next h
  | prepare => exact h.execPrepare
  | release => exact h.execRelease
  | process M => exact h.acceptBlock false M
  | processBypassed M => exact h.acceptBlock true M
  | notifySettings => exact h.execNotifySettings
  | notifyWindow => exact h.execNotifyWindow
  | _ => cases hi

/-! ## Soundness under HOST's accesses (R70 to R76) -/

theorem State.Sound.issueCommand (h : s.Sound) (w : Word) : SoundNext (Machine.issueCommand w s) := by
  unfold Machine.issueCommand
  cases hw : decodeCommand w with
  | some i => exact h.exec_command (decodeCommand_eq_some hw).1
  | none => exact soundNext_next (h.raise .illegalCmd fun ha => by cases ha)

/-- Soundness speaks of no register HOST writes, nor of ERR. -/
theorem State.Sound.setRegs (h : s.Sound) (csr : Csr) (err : ErrReg) :
    ({ s with csr := csr, err := err } : State).Sound :=
  { h with }

/-- A write of a register changes HOST's registers or ERR alone. -/
theorem State.writeReg_eq (r : HostReg) (v : Word) (s : State) :
    s.writeReg r v = { s with csr := (s.writeReg r v).csr, err := (s.writeReg r v).err } := by
  cases r <;> rfl

theorem State.Sound.writeReg (h : s.Sound) (r : HostReg) (v : Word) : (s.writeReg r v).Sound := by
  rw [State.writeReg_eq]
  exact h.setRegs _ _

/-- Soundness speaks of no value HOST has read, nor of the counter of free values. -/
theorem State.Sound.setHostData (h : s.Sound) (v : Word) (fresh : Nat) :
    ({ s with hostData := v, fresh := fresh } : State).Sound :=
  { h with }

theorem State.Sound.storeHostWord (h : s.Sound) (a : Nat) (v : Word) : (s.storeHostWord a v).Sound :=
  { h with
    mem_wf := State.wf_storeHostWord a v h.mem_wf
    deferred_idle := fun hb => by rw [State.storeHostWord_deferred, h.deferred_idle hb, List.filter_nil] }

theorem State.Sound.hostStore (h : s.Sound) (a : Nat) (v : Word) : (s.hostStore a v).Sound := by
  unfold State.hostStore
  have drawn := h.setHostData s.hostData (s.fresh + 1)
  split_ifs with hb
  · exact drawn.storeHostWord a v
  · exact { drawn with deferred_idle := fun hn => by rw [show s.rtBusy = false from hn] at hb; cases hb }
  · exact h.storeHostWord a v

theorem State.Sound.hostWrite (h : s.Sound) (addr : Word) (width : Nat) (v : Word) :
    SoundNext (Machine.hostWrite addr width v s) := by
  have bus := soundNext_next (h.raise .bus fun ha => by cases ha)
  unfold Machine.hostWrite
  split_ifs
  · exact bus
  cases targetAt s.params addr.toNat with
  | register r =>
    simp only
    split_ifs
    · exact h.issueCommand v
    · exact soundNext_next (h.writeReg r v)
  | reserved => exact soundNext_next h
  | sample => exact soundNext_next (h.hostStore addr.toNat v)
  | unmapped => exact bus

theorem State.Sound.hostRead (h : s.Sound) (addr : Word) (width : Nat) : (s.hostRead addr width).Sound := by
  have bus := (h.raise .bus fun ha => by cases ha).setHostData 0#32 s.fresh
  unfold State.hostRead
  by_cases hbad : (!accessOk addr width) = true
  · rw [if_pos hbad]
    exact bus
  rw [if_neg hbad]
  cases targetAt s.params addr.toNat with
  | register r => exact h.setHostData (s.readReg r) s.fresh
  | reserved => exact h.setHostData 0#32 s.fresh
  | sample =>
    simp only
    split_ifs
    · exact h.setHostData (Config.raceRead s.fresh) (s.fresh + 1)
    · exact h.setHostData (s.wordAt addr.toNat) s.fresh
  | unmapped => exact bus

/-! ## Soundness under every step (R14, R20) -/

/-- What an entry of a hardware schedule does keeps a sound state sound. -/
theorem State.Sound.perform (h : s.Sound) {e : Event} (he : e.isHardware = true) : SoundNext (Machine.perform e s) := by
  cases e with
  | hostWrite addr width v => exact h.hostWrite addr width v
  | hostRead addr width => exact soundNext_next (h.hostRead addr width)
  | rt => exact soundNext_next h.rtStep
  | bg => exact soundNext_next h.bgStep
  | issue w => cases he
  | reset => exact soundNext_next (State.sound_applyReset h.schedule)

theorem State.Sound.unscheduled (h : s.Sound) : s.unscheduled.Sound := by
  unfold State.unscheduled
  split_ifs
  · exact h.rtStep
  · exact h.bgStep
  · exact h

/-- The next entry of a sound state's schedule is a hardware event, and the state with the rest of it is sound. -/
theorem State.Sound.takeEvent (h : s.Sound) {e : Event} {rest : List Event} (ha : s.agenda = e :: rest) :
    e.isHardware = true ∧ ({ s with agenda := rest } : State).Sound := by
  have hs := h.schedule
  rw [ha, List.all_cons, Bool.and_eq_true] at hs
  obtain ⟨he, hrest⟩ := hs
  exact ⟨he, { h with schedule := hrest }⟩

/-- Settles O48, by cases on the schedule: an empty one leaves the turn to RT or BG, another has a hardware event at its
head. -/
theorem everyStepKeepsSoundness : Obligations.EveryStepKeepsSoundness := by
  unfold Obligations.EveryStepKeepsSoundness
  intro s t h hstep
  unfold step at hstep
  cases ha : s.agenda with
  | nil =>
    rw [ha] at hstep
    exact soundNext_next h.unscheduled t hstep
  | cons e rest =>
    rw [ha] at hstep
    obtain ⟨he, hrest⟩ := h.takeEvent ha
    exact hrest.perform he t hstep

/-- Settles O50, from what a step of RT does to the slots and what a step of BG keeps. -/
theorem agentsKeepToTheirOwnSlot : Obligations.AgentsKeepToTheirOwnSlot := by
  unfold Obligations.AgentsKeepToTheirOwnSlot
  intro s h
  have k := h.bgStep_bgKeeps
  refine ⟨State.rtStep_slots s, ?_, ?_, ?_, ?_, ?_, k.published⟩
  · rw [k.state_eq]; rfl
  · rw [k.state_eq]; exact State.liveSlot_setSlot_spare s.bgStep.spareSlot s
  · rw [k.state_eq]; rfl
  · rw [k.state_eq]; rfl
  · intro a
    rw [k.state_eq]; rfl

/-- Settles O49: the external reset and State.reset are resets of one machine or another. -/
theorem resetMeetsEveryInvariant : Obligations.ResetMeetsEveryInvariant :=
  ⟨State.reset_sound, State.reset_ranged, State.reset_consumed, fun _ h => State.sound_applyReset h⟩

/-! ## The STATUS word (R43) -/

/-- A field and the bits below it, as a number. -/
theorem toNat_append_eq_add {n m : Nat} (x : BitVec n) (y : BitVec m) :
    (x ++ y).toNat = 2 ^ m * x.toNat + y.toNat := by
  rw [BitVec.toNat_append, ← Nat.shiftLeft_add_eq_or_of_lt y.isLt, Nat.shiftLeft_eq, Nat.mul_comm]

theorem SlotIx.bit_toNat (i : SlotIx) : i.bit.toNat = if i = .s0 then 0 else 1 := by
  cases i <;> rfl

/-- The swapper state's code is READY's alone in BG_IDLE, and Staging's in a rebuild (R26). -/
theorem State.swapper_code_toNat (s : State) :
    s.swapper.code.toNat = if s.bg.pc = .idle then 2 * s.ready.toNat else 1 := by
  unfold State.swapper
  cases s.bg.pc with
  | idle => cases s.ready <;> rfl
  | stage => rfl
  | publish => rfl

/-- BG is busy exactly outside BG_IDLE (R26). -/
theorem State.bgBusy_toNat (s : State) : s.bgBusy.toNat = if s.bg.pc = .idle then 0 else 1 := by
  unfold State.bgBusy State.swapper
  cases s.bg.pc with
  | idle => cases s.ready <;> rfl
  | stage => rfl
  | publish => rfl

/-- The STATUS word as the sum of its fields' codes at their places (R43). -/
theorem State.statusWord_toNat (s : State) :
    s.statusWord.toNat =
      s.runState.code.toNat + 4 * s.rtBusy.toNat
      + 8 * (if s.bg.pc = .idle then 0 else 1) + 16 * s.settingsChanged.toNat + 32 * s.windowPending.toNat
      + 64 * (if s.live = .s0 then 0 else 1) + 128 * s.ready.toNat
      + 256 * (if s.bg.pc = .idle then 2 * s.ready.toNat else 1) + 1024 * s.scEff.toNat
      + 2048 * s.slot0.status.code.toNat + 8192 * s.slot1.status.code.toNat := by
  unfold State.statusWord
  simp only [toNat_append_eq_add, BitVec.toNat_ofBool, SlotIx.bit_toNat, State.swapper_code_toNat, State.bgBusy_toNat,
    BitVec.toNat_zero]
  omega

/-- Settles O55: the word is the sum of its fields' codes, and each code is the number the rule gives. -/
theorem statusWordShowsItsFields : Obligations.StatusWordShowsItsFields := by
  unfold Obligations.StatusWordShowsItsFields
  intro s slotStatus
  have hrun : s.runState.code.toNat = match s.runState with
      | .unprepared => 0
      | .prepared => 1
      | .fatal => 2 := by
    cases s.runState <;> rfl
  have hslot (x : SlotStatus) : x.code.toNat = slotStatus x := by
    cases x <;> rfl
  have hsum := State.statusWord_toNat s
  rw [hrun, hslot, hslot] at hsum
  exact hsum

/-! ## HOST's writes of the block sample memory (R54, R70 to R72) -/

/-- The word index of a sample that exists lies inside its region (R72). -/
theorem sampleIndex_lt {p : Params} {c i : Nat} (h : sampleExists p c i = true) :
    c * p.maxBlock + i < p.maxCh * p.maxBlock := by
  simp only [sampleExists, Bool.and_eq_true, decide_eq_true_eq] at h
  obtain ⟨hc, hi⟩ := h
  calc c * p.maxBlock + i < (c + 1) * p.maxBlock := by rw [Nat.succ_mul]; omega
    _ ≤ p.maxCh * p.maxBlock := Nat.mul_le_mul_right _ hc

/-- A sample's address is a word's, inside the block sample memory (R70, R72). -/
theorem sampleAddr_bounds {p : Params} {c i : Nat} (g : Region) (h : sampleExists p c i = true) :
    sampleAddr p g c i % 4 = 0 ∧ blkBase ≤ sampleAddr p g c i ∧ sampleAddr p g c i < blkBase + 3 * regionSize p := by
  have hi := sampleIndex_lt h
  have hsize : regionSize p = 4 * (p.maxCh * p.maxBlock) := by rw [regionSize, Nat.mul_assoc]
  cases g <;> simp only [sampleAddr, regionBase, hsize, blkBase] <;> omega

theorem targetAt_sampleAddr {p : Params} {c i : Nat} (g : Region) (h : sampleExists p c i = true) :
    targetAt p (sampleAddr p g c i) = .sample := by
  obtain ⟨-, hlow, hhigh⟩ := sampleAddr_bounds g h
  have hregs : ¬ sampleAddr p g c i < 0x100 := by
    simp only [blkBase] at hlow
    omega
  unfold targetAt
  rw [if_neg hregs, if_pos ⟨hlow, hhigh⟩]

/-- HOST's write of a sample that exists is a store at its address, now or later (R72, R87). -/
theorem hostWrite_sampleAddr {s : State} {c i : Nat} (g : Region) (v : Word) (h : sampleExists s.params c i = true)
    (hlt : sampleAddr s.params g c i < 2 ^ 32) :
    hostWrite (BitVec.ofNat 32 (sampleAddr s.params g c i)) 4 v s
      = .next (s.hostStore (sampleAddr s.params g c i) v) := by
  have haddr : (BitVec.ofNat 32 (sampleAddr s.params g c i)).toNat = sampleAddr s.params g c i := by
    rw [BitVec.toNat_ofNat, Nat.mod_eq_of_lt hlt]
  have hok : accessOk (BitVec.ofNat 32 (sampleAddr s.params g c i)) 4 = true :=
    accessOk_iff.mpr ⟨rfl, by rw [haddr]; exact (sampleAddr_bounds g h).1⟩
  unfold hostWrite
  simp only [hok, haddr, targetAt_sampleAddr g h, Bool.not_true, Bool.false_eq_true, if_false]

/-- While RT is idle HOST's store is done at once. -/
theorem State.hostStore_of_idle {s : State} (hb : s.rtBusy = false) (a : Nat) (v : Word) :
    s.hostStore a v = s.storeHostWord a v := by
  unfold State.hostStore
  rw [if_neg (by rw [hb]; decide)]

theorem State.wordAt_storeHostWord_same (s : State) (a : Nat) (v : Word) : (s.storeHostWord a v).wordAt a = v :=
  State.wordAt_storeWord_same s a v

theorem State.byteAt_storeHostWord_of_outside (s : State) {a b : Nat} (v : Word) (hb : b < a ∨ a + 4 ≤ b) :
    (s.storeHostWord a v).byteAt b = s.byteAt b := by
  simp only [State.byteAt, State.storeHostWord_mem, State.storeHostWord_epoch,
    Memory.lookup_storeWord_of_outside a b v s.mem hb]

/-- Settles O59: with RT idle the write is one store at the sample's address. -/
theorem blockMemoryKeepsWhatHostWrites : Obligations.BlockMemoryKeepsWhatHostWrites := by
  unfold Obligations.BlockMemoryKeepsWhatHostWrites
  intro s g c i v hb he hlt
  refine ⟨s.storeHostWord (sampleAddr s.params g c i) v, ?_, rfl, ?_, fun a ha => ?_⟩
  · rw [hostWrite_sampleAddr g v he hlt, State.hostStore_of_idle hb]
  · unfold State.sample
    rw [State.storeHostWord_params, if_pos he]
    exact State.wordAt_storeHostWord_same s _ v
  · exact State.byteAt_storeHostWord_of_outside s v ha

/-! ## The reset table (R58) -/

/-- Settles O60: both states are resets, and the table is that of any reset. -/
theorem resetGivesTheSpecsValues : Obligations.ResetGivesTheSpecsValues := by
  unfold Obligations.ResetGivesTheSpecsValues
  intro s
  refine ⟨s.applyReset, rfl, fun t ht => ?_⟩
  obtain ⟨p, fresh, epoch, agenda, rfl⟩ : ∃ p fresh epoch agenda, t = State.afterReset p fresh epoch agenda := by
    rcases List.mem_pair.mp ht with rfl | rfl
    · exact ⟨_, _, _, _, State.applyReset_eq_afterReset s⟩
    · exact ⟨_, _, _, _, State.reset_eq_afterReset⟩
  and_intros <;> rfl

end Sys2Proof.Machine

/-! PROOFS. The statements about HOST's reads and writes: the register map, the reserved and unmapped addresses, the
block sample memory and ERR (spec 20_memory.md R70 to R76, 60_exceptions.md R280). -/

namespace Sys2Proof.Machine

/-! ## What an aligned address selects (R29, R70 to R72) -/

theorem HostReg.offset_lt (r : HostReg) : r.offset < 0x50 := by
  cases r <;> decide

/-- A register's offset is a word's, and as an address it is itself. -/
theorem HostReg.addr_offset (r : HostReg) :
    (BitVec.ofNat 32 r.offset).toNat = r.offset ∧ r.offset % 4 = 0 := by
  cases r <;> decide

/-- Above the last register the register window is reserved (R71). -/
theorem targetAt_reserved (p : Params) {a : Nat} (hlow : 0x50 ≤ a) (hhigh : a < 0x100) : targetAt p a = .reserved := by
  have hnone : (hostRegs.find? fun r => r.offset == a) = none := by
    refine List.find?_eq_none.mpr fun r _ => ?_
    have hlt := r.offset_lt
    simp only [beq_iff_eq]
    omega
  unfold targetAt
  rw [if_pos hhigh, hnone]

/-- Outside the register window and the block sample memory nothing is mapped (R75). -/
theorem targetAt_unmapped {p : Params} {a : Nat} (hregs : 0x100 ≤ a)
    (hblk : a < blkBase ∨ blkBase + 3 * regionSize p ≤ a) : targetAt p a = .unmapped := by
  unfold targetAt
  rw [if_neg (by omega), if_neg (by omega)]

/-- The address HOST uses for a sample that exists: a multiple of 4 in the block sample memory (R72). -/
theorem addr_sampleAddr {p : Params} {c i : Nat} (g : Region) (he : sampleExists p c i = true)
    (hlt : sampleAddr p g c i < 2 ^ 32) :
    (BitVec.ofNat 32 (sampleAddr p g c i)).toNat = sampleAddr p g c i ∧ sampleAddr p g c i % 4 = 0 :=
  ⟨by rw [BitVec.toNat_ofNat, Nat.mod_eq_of_lt hlt], (sampleAddr_bounds g he).1⟩

/-! ## HOST's accesses by what they select (R74 to R76, R280) -/

/-- `raise Bus` sets bit 7 of ERR and LAST_CODE 8, and does nothing else (R271, R280). -/
theorem State.raise_bus (s : State) : s.raise .bus = { s with err := ⟨s.err.causes ||| 0x80#8, 8#8⟩ } :=
  State.raise_eq .bus (by decide) s

section
variable {s : State} {a : Word} {width : Nat}

theorem State.hostRead_of_register {r : HostReg} (ha : a.toNat % 4 = 0) (ht : targetAt s.params a.toNat = .register r) :
    s.hostRead a 4 = { s with hostData := s.readReg r } := by
  have hok : accessOk a 4 = true := accessOk_iff.mpr ⟨rfl, ha⟩
  simp only [State.hostRead, hok, ht, Bool.not_true, Bool.false_eq_true, if_false]

theorem State.hostRead_of_reserved (ha : a.toNat % 4 = 0) (ht : targetAt s.params a.toNat = .reserved) :
    s.hostRead a 4 = { s with hostData := 0#32 } := by
  have hok : accessOk a 4 = true := accessOk_iff.mpr ⟨rfl, ha⟩
  simp only [State.hostRead, hok, ht, Bool.not_true, Bool.false_eq_true, if_false]

/-- While RT is idle the block sample memory reads as what it holds (R72, R87). -/
theorem State.hostRead_of_sample (hb : s.rtBusy = false) (ha : a.toNat % 4 = 0)
    (ht : targetAt s.params a.toNat = .sample) : s.hostRead a 4 = { s with hostData := s.wordAt a.toNat } := by
  have hok : accessOk a 4 = true := accessOk_iff.mpr ⟨rfl, ha⟩
  simp only [State.hostRead, hok, ht, hb, Bool.not_true, Bool.false_eq_true, if_false]

/-- A read that is no aligned word, or that selects nothing, returns 0 and raises Bus (R74, R75). -/
theorem State.hostRead_of_bad (h : accessOk a width = true → targetAt s.params a.toNat = .unmapped) :
    s.hostRead a width = { s.raise .bus with hostData := 0#32 } := by
  unfold State.hostRead
  cases hok : accessOk a width with
  | false => rfl
  | true => simp only [h hok, Bool.not_true, Bool.false_eq_true, if_false]

theorem hostWrite_of_register {r : HostReg} (v : Word) (hr : r ≠ .cmd) (ha : a.toNat % 4 = 0)
    (ht : targetAt s.params a.toNat = .register r) : hostWrite a 4 v s = .next (s.writeReg r v) := by
  have hok : accessOk a 4 = true := accessOk_iff.mpr ⟨rfl, ha⟩
  simp only [hostWrite, hok, ht, hr, Bool.not_true, Bool.false_eq_true, if_false]

theorem hostWrite_of_reserved (v : Word) (ha : a.toNat % 4 = 0) (ht : targetAt s.params a.toNat = .reserved) :
    hostWrite a 4 v s = .next s := by
  have hok : accessOk a 4 = true := accessOk_iff.mpr ⟨rfl, ha⟩
  simp only [hostWrite, hok, ht, Bool.not_true, Bool.false_eq_true, if_false]

/-- A write that is no aligned word, or that selects nothing, is dropped and raises Bus (R74, R75). -/
theorem hostWrite_of_bad (v : Word) (h : accessOk a width = true → targetAt s.params a.toNat = .unmapped) :
    hostWrite a width v s = .next (s.raise .bus) := by
  unfold hostWrite
  cases hok : accessOk a width with
  | false => rfl
  | true => simp only [h hok, Bool.not_true, Bool.false_eq_true, if_false]

end

/-- A register is read at its own offset (R29). -/
theorem State.hostRead_offset (s : State) (r : HostReg) {w : Word} (hw : s.readReg r = w) :
    s.hostRead (BitVec.ofNat 32 r.offset) 4 = { s with hostData := w } := by
  obtain ⟨haddr, halign⟩ := r.addr_offset
  rw [← hw]
  exact State.hostRead_of_register (by rw [haddr]; exact halign) (by rw [haddr]; exact targetAt_offset s.params r)

/-- A register but CMD is written at its own offset (R29). -/
theorem hostWrite_offset (s : State) (r : HostReg) (v : Word) (hr : r ≠ .cmd) {t : State} (ht : s.writeReg r v = t) :
    hostWrite (BitVec.ofNat 32 r.offset) 4 v s = .next t := by
  obtain ⟨haddr, halign⟩ := r.addr_offset
  rw [← ht]
  exact hostWrite_of_register v hr (by rw [haddr]; exact halign) (by rw [haddr]; exact targetAt_offset s.params r)

/-- A write of a read-only register is ignored (R29). -/
theorem hostWrite_readOnly (s : State) (v : Word) :
    ∀ a ∈ [0x00#32, 0x04#32, 0x0C#32, 0x14#32, 0x18#32, 0x1C#32], hostWrite a 4 v s = .next s := by
  simp only [List.forall_mem_cons]
  exact ⟨hostWrite_offset s .id v (by decide) rfl, hostWrite_offset s .version v (by decide) rfl,
    hostWrite_offset s .status v (by decide) rfl, hostWrite_offset s .latency v (by decide) rfl,
    hostWrite_offset s .windowsProcessed v (by decide) rfl, hostWrite_offset s .makeupGain v (by decide) rfl,
    fun _ h => by cases h⟩

/-- While RT is idle HOST reads a sample that exists at its address (R54, R72). -/
theorem State.hostRead_sampleAddr {s : State} {c i : Nat} (g : Region) (he : sampleExists s.params c i = true)
    (hlt : sampleAddr s.params g c i < 2 ^ 32) (hb : s.rtBusy = false) :
    s.hostRead (BitVec.ofNat 32 (sampleAddr s.params g c i)) 4 = { s with hostData := s.sample g c i } := by
  obtain ⟨haddr, halign⟩ := addr_sampleAddr g he hlt
  have hread := State.hostRead_of_sample hb (by rw [haddr]; exact halign)
    (by rw [haddr]; exact targetAt_sampleAddr g he)
  rwa [haddr, show s.wordAt (sampleAddr s.params g c i) = s.sample g c i from (if_pos he).symm] at hread

/-! ## The words registers read as, and the bits they store (R29, R42, R44, R52) -/

/-- ERR reads as its causes in bits 7:0 and LAST_CODE in bits 15:8 (R44). -/
theorem ErrReg.word_eq_ofNat (r : ErrReg) : r.word = BitVec.ofNat 32 (r.causes.toNat + 256 * r.lastCode.toNat) := by
  apply BitVec.eq_of_toNat_eq
  have hc := r.causes.isLt
  have hl := r.lastCode.isLt
  simp only [ErrReg.word, toNat_append_eq_add, BitVec.toNat_ofNat]
  omega

theorem State.latencyWord_eq_ite (s : State) :
    s.latencyWord = if s.runState = .unprepared then 0#32 else BitVec.ofNat 32 s.liveSlot.W := by
  unfold State.latencyWord
  cases s.runState <;> rfl

theorem State.windowsProcessedWord_eq_ite (s : State) :
    s.windowsProcessedWord = if s.runState = .unprepared then 0#32 else s.liveSlot.count := by
  unfold State.windowsProcessedWord
  cases s.runState <;> rfl

/-- A one-bit register takes bit 0 of the word written. -/
theorem extractLsb'_one_eq_ofBool (v : Word) : v.extractLsb' 0 1 = BitVec.ofBool (v.getLsbD 0) := by
  apply BitVec.eq_of_getLsbD_eq
  intro i hi
  obtain rfl : i = 0 := by omega
  simp

/-- Of the eight cause bits, ASSERT alone is masked from HOST's clearing (R44). -/
theorem clearMask_getLsbD : ∀ i < 8, (0xFD#8).getLsbD i = !decide (i = 1) := by
  decide

/-- After HOST's write of ERR a cause is set if it was, and was not written as 1 or is ASSERT (R44). -/
theorem ErrReg.clear_causes_getLsbD (v : Word) (r : ErrReg) {i : Nat} (hi : i < 8) :
    (r.clear v).causes.getLsbD i = (r.causes.getLsbD i && (!v.getLsbD i || decide (i = 1))) := by
  simp only [ErrReg.clear, BitVec.getLsbD_and, BitVec.getLsbD_not, BitVec.getLsbD_extractLsb', hi, decide_true,
    clearMask_getLsbD i hi, Nat.zero_add, Bool.true_and, Bool.not_and, Bool.not_not]

/-! ## The statements -/

/-- Settles O56: each register is read at its offset, and what it reads as is the word the rule names. -/
theorem hostReadsChangeNothing : Obligations.HostReadsChangeNothing := by
  unfold Obligations.HostReadsChangeNothing
  intro s
  exact ⟨s.hostRead_offset .id rfl, s.hostRead_offset .version rfl, s.hostRead_offset .cmd rfl,
    s.hostRead_offset .status rfl, s.hostRead_offset .err s.err.word_eq_ofNat,
    s.hostRead_offset .latency s.latencyWord_eq_ite,
    s.hostRead_offset .windowsProcessed s.windowsProcessedWord_eq_ite, s.hostRead_offset .makeupGain rfl,
    s.hostRead_offset .sampleRate rfl, s.hostRead_offset .maxBlock rfl, s.hostRead_offset .numCh rfl,
    s.hostRead_offset .scNumCh rfl, s.hostRead_offset .sidechainActive (BitVec.ofNat_toNat ..).symm,
    s.hostRead_offset .ratio rfl, s.hostRead_offset .attackMs rfl, s.hostRead_offset .releaseMs rfl,
    s.hostRead_offset .autoMakeup (BitVec.ofNat_toNat ..).symm,
    s.hostRead_offset .windowOrder (BitVec.ofNat_toNat ..).symm,
    s.hostRead_offset .overlapFactor (BitVec.ofNat_toNat ..).symm, s.hostRead_offset .baseThreshold rfl,
    fun _ hlow hhigh halign => State.hostRead_of_reserved halign (targetAt_reserved s.params hlow hhigh),
    fun g _ _ he hlt hb => State.hostRead_sampleAddr g he hlt hb⟩

/-- Settles O57: each of the three kinds of bad access is refused or selects nothing. -/
theorem badAccessOnlyRecordsBus : Obligations.BadAccessOnlyRecordsBus := by
  unfold Obligations.BadAccessOnlyRecordsBus
  intro s a width v
  refine ⟨fun hbad => ?_, fun hlow hhigh halign => hostWrite_of_reserved v halign
    (targetAt_reserved s.params hlow hhigh)⟩
  have hnone (hok : accessOk a width = true) : targetAt s.params a.toNat = .unmapped := by
    obtain ⟨hwidth, halign⟩ := accessOk_iff.mp hok
    rcases hbad with hw | hm | ⟨hregs, hblk⟩
    · exact absurd hwidth hw
    · exact absurd halign hm
    · exact targetAt_unmapped hregs hblk
  rw [hostWrite_of_bad v hnone, State.hostRead_of_bad hnone, State.raise_bus]
  exact ⟨rfl, rfl⟩

/-- Settles O58: each register is written at its offset, and stores the bits it has. -/
theorem registerWritesOnlyStore : Obligations.RegisterWritesOnlyStore := by
  unfold Obligations.RegisterWritesOnlyStore
  intro s v
  refine ⟨hostWrite_offset s .sampleRate v (by decide) rfl, hostWrite_offset s .maxBlock v (by decide) rfl,
    hostWrite_offset s .numCh v (by decide) rfl, hostWrite_offset s .scNumCh v (by decide) rfl,
    hostWrite_offset s .sidechainActive v (by decide) ?sidechainActive, hostWrite_offset s .ratio v (by decide) rfl,
    hostWrite_offset s .attackMs v (by decide) rfl, hostWrite_offset s .releaseMs v (by decide) rfl,
    hostWrite_offset s .autoMakeup v (by decide) ?autoMakeup, hostWrite_offset s .windowOrder v (by decide) rfl,
    hostWrite_offset s .overlapFactor v (by decide) rfl, hostWrite_offset s .baseThreshold v (by decide) rfl,
    hostWrite_readOnly s v, (s.err.clear v).causes, hostWrite_offset s .err v (by decide) rfl,
    fun i hi => s.err.clear_causes_getLsbD v hi⟩
  case sidechainActive => rw [State.writeReg, extractLsb'_one_eq_ofBool]
  case autoMakeup => rw [State.writeReg, extractLsb'_one_eq_ofBool]

end Sys2Proof.Machine

/-! PROOFS. The statements about words: the encoder and the decoder undo each other, which words are commands, and what
a step does with a word (spec 30_encoding.md R100 to R107, 60_exceptions.md R275). -/

namespace Sys2Proof

/-! ## Words and their four bytes (R73) -/

/-- A word is its bytes, the first of them bits 7:0 (R73). -/
theorem append_bytes (w : Word) :
    w.extractLsb' 24 8 ++ w.extractLsb' 16 8 ++ w.extractLsb' 8 8 ++ w.extractLsb' 0 8 = w := by
  rw [BitVec.extractLsb'_append_extractLsb'_eq_extractLsb' (by rfl),
    BitVec.extractLsb'_append_extractLsb'_eq_extractLsb' (by rfl),
    BitVec.extractLsb'_append_extractLsb'_eq_extractLsb' (by rfl)]
  exact BitVec.extractLsb'_eq_self

/-- The byte decoder reads one word and leaves the bytes after it. -/
theorem decodeBytes_bytesOfWord {w : Word} {i : Instr} (h : decode w = .ok i) (rest : List Byte) :
    decodeBytes (bytesOfWord w ++ rest) = .ok (i, rest) := by
  simp only [bytesOfWord, List.cons_append, List.nil_append, decodeBytes, append_bytes, h]

/-! ## An instruction's word (R100 to R105) -/

theorem decode_process (a : BitVec 24) : decode (3#8 ++ a) = .ok (.process a.toNat) := by
  by_cases ha : a = 0#24
  · subst ha; rfl
  · exact (decode_of_arg_ne_zero _ ha).mpr (.inl ⟨rfl, rfl⟩)

theorem decode_processBypassed (a : BitVec 24) : decode (4#8 ++ a) = .ok (.processBypassed a.toNat) := by
  by_cases ha : a = 0#24
  · subst ha; rfl
  · exact (decode_of_arg_ne_zero _ ha).mpr (.inr ⟨rfl, rfl⟩)

/-- The two block commands carry any ARG; every other row of the table has one word. -/
theorem decode_encode (i : Instr) (h : i.wellFormed = true) : decode (encode i) = .ok i := by
  cases i with
  | process M =>
    have hM : (BitVec.ofNat 24 M).toNat = M := Nat.mod_eq_of_lt (of_decide_eq_true h)
    exact (decode_process (BitVec.ofNat 24 M)).trans (by rw [hM])
  | processBypassed M =>
    have hM : (BitVec.ofNat 24 M).toNat = M := Nat.mod_eq_of_lt (of_decide_eq_true h)
    exact (decode_processBypassed (BitVec.ofNat 24 M)).trans (by rw [hM])
  | _ => rfl

/-- An instruction's word is the one with its operation code and its argument. -/
theorem encode_eq_of_fields {w : Word} {i : Instr} (ho : i.opcode = (opcOf w).toNat) (ha : i.arg = argOf w) :
    encode i = w := by
  rw [encode, ho, ha, argOf, BitVec.ofNat_toNat, BitVec.ofNat_toNat, BitVec.setWidth_eq, BitVec.setWidth_eq]
  exact word_eq_opc_arg w

/-! ## The instruction a word decodes to (R103 to R106) -/

/-- Each row's pattern, the word of its OPC with ARG 0, encodes the row's instruction; a mask fixes all bits or OPC. -/
theorem opcodeTable_rows : ∀ r ∈ opcodeTable,
    (r.mask = 0xFFFFFFFF#32 ∨ r.mask = 0xFF000000#32) ∧ opcOf r.pattern ++ 0#24 = r.pattern ∧
      (r.instr 0).wellFormed = true ∧ encode (r.instr 0) = r.pattern := by
  decide

/-- The row a word selects is a row of the table that the word matches (R103). -/
theorem rowOf_eq_some {w : Word} {r : OpcodeRow} (h : rowOf w = some r) :
    r ∈ opcodeTable ∧ (w &&& r.mask == r.pattern) = true :=
  ⟨List.mem_of_find?_eq_some h, List.find?_some (p := fun r : OpcodeRow => w &&& r.mask == r.pattern) h⟩

/-- With ARG 0 the mask makes no difference: a row matches its pattern alone. -/
theorem eq_pattern_of_match {r : OpcodeRow} (hr : r ∈ opcodeTable) {o : Byte}
    (h : ((o ++ 0#24) &&& r.mask == r.pattern) = true) : o ++ 0#24 = r.pattern := by
  obtain ⟨hmask, hpat, -, -⟩ := opcodeTable_rows r hr
  rw [← hpat] at h ⊢
  have ho : o = opcOf r.pattern := by
    rcases hmask with hm | hm
    · rw [hm, match_fixed] at h
      simpa using h
    · rw [hm, match_arg] at h
      exact eq_of_beq h
  rw [ho]

/-- With ARG 0 a word that decodes is the pattern of the row it selects. -/
theorem encode_of_decode_arg_zero {o : Byte} {i : Instr} (h : decode (o ++ 0#24) = .ok i) :
    i.wellFormed = true ∧ encode i = o ++ 0#24 := by
  unfold decode at h
  split at h
  · next r hrow =>
    obtain ⟨hr, hmatch⟩ := rowOf_eq_some hrow
    have hword := eq_pattern_of_match hr hmatch
    obtain ⟨-, -, hwf, henc⟩ := opcodeTable_rows r hr
    rw [argOf_append] at h
    cases h
    exact ⟨hwf, henc.trans hword.symm⟩
  · split_ifs at h

/-- With a non-zero ARG only the two block commands are left. -/
theorem encode_of_decode_arg_ne_zero {o : Byte} {a : BitVec 24} (ha : a ≠ 0#24) {i : Instr}
    (h : decode (o ++ a) = .ok i) : i.wellFormed = true ∧ encode i = o ++ a := by
  rcases (decode_of_arg_ne_zero o ha).mp h with ⟨rfl, rfl⟩ | ⟨rfl, rfl⟩ <;>
    exact ⟨decide_eq_true a.isLt, encode_eq_of_fields (by rw [opcOf_append]; rfl) (argOf_append _ a).symm⟩

theorem encode_of_decode {w : Word} {i : Instr} (h : decode w = .ok i) : i.wellFormed = true ∧ encode i = w := by
  rw [← word_eq_opc_arg w] at h ⊢
  by_cases ha : w.extractLsb' 0 24 = 0#24
  · rw [ha] at h ⊢
    exact encode_of_decode_arg_zero h
  · exact encode_of_decode_arg_ne_zero ha h

theorem Instr.opcode_lt (i : Instr) : i.opcode < 2 ^ 8 := by
  cases i <;> simp [opcode]

theorem Instr.arg_lt {i : Instr} (h : i.wellFormed = true) : i.arg < 2 ^ 24 := by
  cases i with
  | process M => exact of_decide_eq_true h
  | processBypassed M => exact of_decide_eq_true h
  | _ => decide

theorem opcOf_encode_toNat (i : Instr) : (opcOf (encode i)).toNat = i.opcode := by
  rw [opcOf_encode, BitVec.toNat_ofNat, Nat.mod_eq_of_lt i.opcode_lt]

/-- OPC and ARG of a word that decodes are its instruction's. -/
theorem fields_of_decode {w : Word} {i : Instr} (h : decode w = .ok i) :
    (opcOf w).toNat = i.opcode ∧ argOf w = i.arg := by
  obtain ⟨hwf, rfl⟩ := encode_of_decode h
  exact ⟨opcOf_encode_toNat i, argOf_encode i (Instr.arg_lt hwf)⟩

/-! ## Commands and illegal words (R101, R104) -/

/-- The words no row of R103 matches: an unassigned OPC, or a non-zero ARG where the command takes none (R104). -/
def IllegalOnCmd (w : Word) : Prop :=
  7 ≤ (opcOf w).toNat ∨ ((opcOf w).toNat ∈ [0, 1, 2, 5, 6] ∧ argOf w ≠ 0)

/-- A command has a code below 7, and an argument only with the code of a block command. -/
theorem not_illegalOnCmd_of_decode {w : Word} {i : Instr} (h : decode w = .ok i) (hc : i.isCommand = true) :
    ¬ IllegalOnCmd w := by
  obtain ⟨ho, ha⟩ := fields_of_decode h
  rw [IllegalOnCmd, ho, ha]
  cases i with
  | nop | prepare | release | notifySettings | notifyWindow => decide
  | process M | processBypassed M => simp [Instr.opcode]
  | _ => cases hc

/-- Every word that is not illegal has the fields of a command. -/
theorem exists_command_of_not_illegalOnCmd {w : Word} (h : ¬ IllegalOnCmd w) :
    ∃ i : Instr, i.isCommand = true ∧ i.wellFormed = true ∧ encode i = w := by
  obtain ⟨hlt, hzero⟩ := not_or.mp h
  have harg (hmem : (opcOf w).toNat ∈ [0, 1, 2, 5, 6]) : argOf w = 0 :=
    by_contra fun hne => hzero ⟨hmem, hne⟩
  have hword := @encode_eq_of_fields w
  have hblock : decide (argOf w < 2 ^ 24) = true := decide_eq_true (argOf_lt w)
  generalize (opcOf w).toNat = o at *
  match o with
  | 0 => exact ⟨.nop, rfl, rfl, hword rfl (harg (by decide)).symm⟩
  | 1 => exact ⟨.prepare, rfl, rfl, hword rfl (harg (by decide)).symm⟩
  | 2 => exact ⟨.release, rfl, rfl, hword rfl (harg (by decide)).symm⟩
  | 3 => exact ⟨.process (argOf w), rfl, hblock, hword rfl rfl⟩
  | 4 => exact ⟨.processBypassed (argOf w), rfl, hblock, hword rfl rfl⟩
  | 5 => exact ⟨.notifySettings, rfl, rfl, hword rfl (harg (by decide)).symm⟩
  | 6 => exact ⟨.notifyWindow, rfl, rfl, hword rfl (harg (by decide)).symm⟩
  | n + 7 => exact absurd (Nat.le_add_left 7 n) hlt

theorem decodeCommand_of_decode {w : Word} {i : Instr} (h : decode w = .ok i) (hc : i.isCommand = true) :
    decodeCommand w = some i := by
  simp only [decodeCommand, h, hc, if_true]

theorem decodeMicroOp_of_decode {w : Word} {i : Instr} (h : decode w = .ok i) (hc : i.isCommand = false) :
    decodeMicroOp w = some i := by
  simp only [decodeMicroOp, h, hc, Bool.false_eq_true, if_false]

/-- A word that decodes to no micro-operation is none on the port. -/
theorem decodeMicroOp_eq_none {w : Word} (h : ∀ i : Instr, decode w = .ok i → i.isCommand = true) :
    decodeMicroOp w = none := by
  unfold decodeMicroOp
  split
  · next i hi => rw [if_pos (h i hi)]
  · rfl

theorem decodeCommand_eq_none_of_illegal {w : Word} (h : IllegalOnCmd w) : decodeCommand w = none := by
  refine Option.eq_none_iff_forall_ne_some.mpr fun i hi => ?_
  obtain ⟨hc, hdec⟩ := decodeCommand_eq_some hi
  exact not_illegalOnCmd_of_decode hdec hc h

/-- The codes below 0x40 are the commands' (R103, R105). -/
theorem Instr.opcode_lt_iff_isCommand (i : Instr) : i.opcode < 0x40 ↔ i.isCommand = true := by
  cases i <;> simp [opcode, isCommand]

/-! ## The statements about the encoding -/

/-- Settles O1: the word decodes to its instruction, and the bytes are the word's. -/
theorem decodeEncodeRoundTrip : Obligations.DecodeEncodeRoundTrip := by
  unfold Obligations.DecodeEncodeRoundTrip
  intro i h
  have hword := decode_encode i h
  exact ⟨hword, decodeBytes_bytesOfWord hword⟩

/-- Settles O2, by the row the word selects: its pattern where ARG is 0, a block command's where it is not. -/
theorem decodedWordIsItsEncoding : Obligations.DecodedWordIsItsEncoding :=
  fun _ _ h => encode_of_decode h

/-- Settles O3: the sample words are encodings, and the last four are illegal on CMD. -/
theorem sampleWordsDecode : Obligations.SampleWordsDecode :=
  ⟨decode_encode .nop rfl, decode_encode .prepare rfl, decode_encode .release rfl, decode_encode (.process 512) rfl,
    decode_encode (.process 0) rfl, decode_encode (.process 11259375) rfl, decode_encode (.processBypassed 7) rfl,
    decode_encode .notifySettings rfl, decode_encode .notifyWindow rfl, decode_encode .rbWrite rfl,
    decode_encode .cmpProcess rfl, decode_encode .aggCommit rfl, decode_encode .fftFwd rfl, decode_encode .bypCycle rfl,
    decode_encode .schedIoStep rfl, decode_encode .gainUpdate rfl, decode_encode .cfgFetch rfl,
    decodeCommand_eq_none_of_illegal (.inr (by decide)), decodeCommand_eq_none_of_illegal (.inl (by decide)),
    decodeCommand_eq_none_of_illegal (.inl (by decide)), decodeCommand_eq_none_of_illegal (.inl (by decide))⟩

end Sys2Proof

namespace Sys2Proof.Machine

/-! ## Words on CMD and on the micro-operation port (R101, R104, R107, R275) -/

section
variable {s : State} {w : Word} {i : Instr}

theorem hostWrite_cmd (w : Word) (s : State) : hostWrite 0x00000008#32 4 w s = issueCommand w s := by
  have hok : accessOk 0x00000008#32 4 = true := rfl
  have ht : targetAt s.params (0x00000008#32).toNat = .register .cmd := targetAt_offset s.params .cmd
  simp only [hostWrite, hok, ht, Bool.not_true, Bool.false_eq_true, if_false, if_true]

theorem hostWrite_cmd_of_decode (h : decode w = .ok i) (hc : i.isCommand = true) :
    hostWrite 0x00000008#32 4 w s = exec i s := by
  simp only [hostWrite_cmd, issueCommand, decodeCommand_of_decode h hc]

/-- An illegal word on CMD raises IllegalCmd (R104, R275). -/
theorem hostWrite_cmd_of_illegal (h : IllegalOnCmd w) :
    hostWrite 0x00000008#32 4 w s = .next (s.raise .illegalCmd) := by
  simp only [hostWrite_cmd, issueCommand, decodeCommand_eq_none_of_illegal h]

theorem issueMicroOp_of_decode (h : decode w = .ok i) (hc : i.isCommand = false) : issueMicroOp w s = exec i s := by
  simp only [issueMicroOp, decodeMicroOp_of_decode h hc]

/-- A word on the port that is no micro-operation stops the machine (log 22). -/
theorem issueMicroOp_of_no_microOp (h : ∀ i : Instr, decode w = .ok i → i.isCommand = true) :
    issueMicroOp w s = .fault (.undefinedMicroOp w) := by
  simp only [issueMicroOp, decodeMicroOp_eq_none h]

end

/-- `raise IllegalCmd` sets bit 2 of ERR and LAST_CODE 3, and does nothing else (R271, R275). -/
theorem State.raise_illegalCmd (s : State) : s.raise .illegalCmd = { s with err := ⟨s.err.causes ||| 4#8, 3#8⟩ } :=
  State.raise_eq .illegalCmd (by decide) s

/-! ## A step with a word (R20, R100, R101, log 21) -/

theorem step_of_agenda {s : State} {e : Event} {rest : List Event} (h : s.agenda = e :: rest) :
    step s = perform e { s with agenda := rest } := by
  simp only [step, h]

/-- An instruction's word is met on CMD for a command and on the port for a micro-operation (log 21). -/
theorem fetchEvent_encode (i : Instr) :
    fetchEvent (encode i) =
      if i.isCommand = true then .hostWrite 0x00000008#32 4 (encode i) else .issue (encode i) := by
  simp only [fetchEvent, opcOf_encode_toNat, i.opcode_lt_iff_isCommand]

/-- The word of 32 table bits is the word itself. -/
theorem tableWord_toNat (w : Word) : tableWord 32 w.toNat = w := by
  rw [tableWord, Nat.mod_eq_of_lt w.isLt, BitVec.ofNat_toNat, BitVec.setWidth_eq]

theorem State.withFetchWord_encode_agenda (s : State) (i : Instr) :
    (s.withFetchWord 32 (encode i).toNat).agenda = fetchEvent (encode i) :: s.agenda := by
  simp only [withFetchWord, tableWord_toNat]

/-- Taking the word off the schedule again gives the state back: what the step runs on is `s`. -/
theorem step_withFetchWord (s : State) {i : Instr} (h : i.wellFormed = true) :
    step (s.withFetchWord 32 (encode i).toNat) = exec i s := by
  have hstep : step (s.withFetchWord 32 (encode i).toNat) = perform (fetchEvent (encode i)) s :=
    step_of_agenda (s.withFetchWord_encode_agenda i)
  rw [hstep, fetchEvent_encode]
  cases hc : i.isCommand with
  | true => exact hostWrite_cmd_of_decode (decode_encode i h) hc
  | false => exact issueMicroOp_of_decode (decode_encode i h) hc

/-! ## The statements about words the machine meets -/

/-- Settles O4: what is not illegal is a command's word. -/
theorem illegalWordOnlyRecordsError : Obligations.IllegalWordOnlyRecordsError := by
  unfold Obligations.IllegalWordOnlyRecordsError
  intro s w
  refine ⟨fun hbad => ?illegal, fun hgood => ?legal⟩
  case illegal => rw [hostWrite_cmd_of_illegal hbad, State.raise_illegalCmd]
  case legal =>
    obtain ⟨i, hc, hwf, rfl⟩ := exists_command_of_not_illegalOnCmd hgood
    have hdec := decode_encode i hwf
    exact ⟨i, hc, hdec, hostWrite_cmd_of_decode hdec hc⟩

/-- Settles O5: the step performs the entry at the head of the schedule, and the entry decodes its word. -/
theorem stepRunsDecodedInstruction : Obligations.StepRunsDecodedInstruction := by
  unfold Obligations.StepRunsDecodedInstruction
  refine ⟨fun s rest w i ha hdec hc => ?command, fun s rest w i ha hdec hc => ?microOp,
    fun s rest w ha hnone => ?noMicroOp, fun s _ h => step_withFetchWord s h⟩
  case command => exact (step_of_agenda ha).trans (hostWrite_cmd_of_decode hdec hc)
  case microOp => exact (step_of_agenda ha).trans (issueMicroOp_of_decode hdec hc)
  case noMicroOp => exact (step_of_agenda ha).trans (issueMicroOp_of_no_microOp hnone)

end Sys2Proof.Machine

namespace Sys2Proof.Machine

/-! ## The ring operations for every count, and what they leave (R121 to R124) -/

/-- What RB.DRAIN reads for any count: an element consumed a turn ago reads 0.0 (R123). -/
theorem Ring.drained_elem_of_lt (r : Ring) {n i : Nat} (consume : Bool) (hl : r.data.length = r.cap) (hc : 0 < r.cap)
    (hi : i < n) : elemAt (r.drained n consume) i =
      if consume = true ∧ r.cap ≤ i then fZero else elemAt r.data ((r.rpos + i) % r.cap) :=
  drainLoop_read r.cap consume n r.rpos r.data hl hc hi

/-- RB.DRAIN with `consume` zeroes every element it meets, for any count (R123). -/
theorem Ring.drain_elem_consumed (r : Ring) {n i : Nat} (hl : r.data.length = r.cap) (hc : 0 < r.cap) (hi : i < n) :
    elemAt (r.drain n true).data ((r.rpos + i) % r.cap) = fZero :=
  (drainLoop_left r.cap true n r.rpos r.data hl hc _).1 ⟨i, hi, rfl⟩ rfl

/-- RB.DRAIN leaves every element it does not meet, for any count (R123). -/
theorem Ring.drain_elem_kept (r : Ring) {n j : Nat} (consume : Bool) (hl : r.data.length = r.cap) (hc : 0 < r.cap)
    (h : ∀ i < n, (r.rpos + i) % r.cap ≠ j) : elemAt (r.drain n consume).data j = elemAt r.data j :=
  (drainLoop_left r.cap consume n r.rpos r.data hl hc j).2 h

/-- RB.ACC leaves every element it does not meet: such an element is `n` or more from the read cursor (R124). -/
theorem Ring.accumulate_elem_kept (r : Ring) (src : List F32) {n j : Nat} (g : F32) (hl : r.data.length = r.cap)
    (hn : n ≤ r.cap) (hj : j < r.cap) (h : ∀ i < n, (r.rpos + i) % r.cap ≠ j) :
    elemAt (r.accumulate src n g).data j = elemAt r.data j := by
  obtain ⟨i, hi, rfl⟩ := ring_pos_surj (p := r.rpos) hj
  have hfar : ¬ i < n := fun hlt => h i hlt rfl
  rw [r.accumulate_elem src n g hl hn hi, if_neg hfar]

/-! ## What a ring remembers (R48, R121, R122) -/

/-- The ring holds the last `cap` samples of `history`, the oldest at its write cursor. -/
structure Ring.Remembers (r : Ring) (cap : Nat) (history : List F32) : Prop where
  cap_eq : r.cap = cap
  length_eq : r.data.length = cap
  enough : cap ≤ history.length
  elem : ∀ k < cap, elemAt r.data ((r.pos + k) % cap) = elemAt history (history.length - cap + k)

theorem elemAt_append_left {x y : List F32} {i : Nat} (h : i < x.length) : elemAt (x ++ y) i = elemAt x i := by
  simp only [elemAt, List.getElem?_append_left h]

theorem elemAt_append_length_add {x y : List F32} {i : Nat} (h : i < y.length) :
    elemAt (x ++ y) (x.length + i) = elemAt y i := by
  have hi : x.length + i < (x ++ y).length := by rw [List.length_append]; omega
  rw [elemAt_of_lt hi, elemAt_of_lt h, List.getElem_append_right (by omega)]
  simp only [Nat.add_sub_cancel_left]

theorem elemAt_drop {x : List F32} {k i : Nat} (h : k + i < x.length) : elemAt (x.drop k) i = elemAt x (k + i) := by
  have hi : i < (x.drop k).length := by rw [List.length_drop]; omega
  rw [elemAt_of_lt hi, elemAt_of_lt h, List.getElem_drop]

/-- A ring as it is built remembers its zeros (R48). -/
theorem Ring.remembers_fresh (cap : Nat) : (Ring.fresh cap).Remembers cap (List.replicate cap fZero) where
  cap_eq := rfl
  length_eq := List.length_replicate
  enough := by rw [List.length_replicate]
  elem k hk := by
    have hpos : ((Ring.fresh cap).pos + k) % cap < cap := Nat.mod_lt _ (by omega)
    have hidx : (List.replicate cap fZero).length - cap + k < cap := by rw [List.length_replicate]; omega
    exact (elemAt_replicate hpos).trans (elemAt_replicate hidx).symm

/-- A write appends to what a ring remembers. Distance `k` from the new write cursor is distance `xs.length + k` from
the old one: a turn or more away stands a sample just written, nearer one the write does not meet (R121). -/
theorem Ring.Remembers.write {r : Ring} {cap : Nat} {history : List F32} (h : r.Remembers cap history)
    (xs : List F32) : (r.write xs xs.length).Remembers cap (history ++ xs) := by
  obtain ⟨rfl, hlen, henough, helem⟩ := h
  refine ⟨rfl, by rw [Ring.write_length, hlen], by rw [List.length_append]; omega, fun k hk => ?_⟩
  have hc : 0 < r.cap := by omega
  rw [Ring.write_pos, Nat.mod_add_mod, List.length_append, Nat.add_assoc]
  by_cases hturn : r.cap ≤ xs.length + k
  case pos =>
    obtain ⟨i, hi⟩ := Nat.exists_eq_add_of_le' hturn
    have hnew : elemAt (r.write xs xs.length).data ((r.pos + i) % r.cap) = elemAt xs i :=
      r.write_elem_newest xs xs.length hlen hc (by omega) (by omega)
    have hidx : history.length + xs.length - r.cap + k = history.length + i := by omega
    rw [hi, ← Nat.add_assoc, Nat.add_mod_right, hnew, hidx, elemAt_append_length_add (by omega)]
  case neg =>
    have hmiss : ∀ i < xs.length, (r.pos + i) % r.cap ≠ (r.pos + (xs.length + k)) % r.cap := by
      intro i hi heq
      have := ring_pos_inj (by omega) (by omega) heq
      omega
    rw [r.write_elem_kept xs xs.length hlen hc hmiss, helem _ (by omega), elemAt_append_left (by omega)]
    congr 1
    omega

/-- A sequence of writes appends all of them, one after another. -/
theorem Ring.Remembers.foldl_write {r : Ring} {cap : Nat} {history : List F32} (h : r.Remembers cap history)
    (writes : List (List F32)) :
    (writes.foldl (fun r xs => r.write xs xs.length) r).Remembers cap (history ++ writes.flatten) := by
  induction writes generalizing r history with
  | nil => rwa [List.flatten_nil, List.append_nil]
  | cons xs rest ih =>
    rw [List.foldl_cons, List.flatten_cons, ← List.append_assoc]
    exact ih (h.write xs)

/-- RB.LAST returns the end of what the ring remembers (R122). -/
theorem Ring.Remembers.last_eq {r : Ring} {cap n : Nat} {history : List F32} (h : r.Remembers cap history)
    (hn : n ≤ cap) : r.last n = history.drop (history.length - n) := by
  obtain ⟨rfl, -, henough, helem⟩ := h
  apply eq_of_elemAt
  · rw [Ring.last_length, List.length_drop]
    omega
  · intro i hi
    rw [Ring.last_length] at hi
    have hdist : r.pos + r.cap - n + i = r.pos + (r.cap - n + i) := by omega
    rw [Ring.last_elem r hi hn, hdist, helem _ (by omega), elemAt_drop (by omega)]
    congr 1
    omega

/-- Settles O17: every write appends to what the ring remembers, by induction on the writes. -/
theorem ringRemembersRecentHistory : Obligations.RingRemembersRecentHistory := by
  unfold Obligations.RingRemembersRecentHistory
  intro cap n writes hn
  have hall := (Ring.remembers_fresh cap).foldl_write writes
  rw [hall.last_eq hn, List.length_append, List.length_replicate]

/-! ## The ring micro-operations on a ring the live slot has (R120, log 12) -/

section
variable {s : State} {r : Ring}

theorem State.operandRing_eq (h : (s.liveSlot.rings s.op.ring)[s.rt.c.toNat]? = some r) : s.operandRing = r :=
  Slot.ring_of_getElem? h

/-- A change of one ring of the live slot is a change of the live slot alone, to the ring the change gives. -/
theorem State.modRing_liveBecomes {kind : RingKind} {c : Nat} {f : Ring → Ring} {r' : Ring}
    (h : (s.liveSlot.rings kind)[c]? = some r) (hf : f r = r') :
    LiveBecomes s (s.liveSlot.modRing kind c fun _ => r') (s.modRing kind c f) := by
  rw [← hf, ← Slot.modRing_const h f]
  exact State.modLive_liveBecomes (Slot.modRing kind c f) s

theorem exec_rbWrite (s : State) :
    exec .rbWrite s =
      .next (s.modRing s.op.ring s.rt.c.toNat fun r => r.write s.operandSource s.rt.n.toNat) := rfl

theorem exec_rbLast (h : (s.liveSlot.rings s.op.ring)[s.rt.c.toNat]? = some r) :
    exec .rbLast s = .next (s.writeDest s.op.dst s.rt.c.toNat s.rt.off.toNat (r.last s.rt.n.toNat)) := by
  rw [← State.operandRing_eq h]
  rfl

/-- The ring of the live slot after RB.DRAIN, before its destination is written (R123). -/
def State.drainOperandRing (s : State) : State :=
  s.modRing s.op.ring s.rt.c.toNat fun r => r.drain s.rt.n.toNat s.op.consume

/-- RB.DRAIN changes the ring and then writes the destination its operand registers select; it changes none of them
(R123). -/
theorem exec_rbDrain (h : (s.liveSlot.rings s.op.ring)[s.rt.c.toNat]? = some r) :
    exec .rbDrain s =
      .next (s.drainOperandRing.writeDest s.drainOperandRing.op.dst s.drainOperandRing.rt.c.toNat
        s.drainOperandRing.rt.off.toNat (r.drained s.rt.n.toNat s.op.consume)) := by
  rw [← State.operandRing_eq h]
  rfl

theorem exec_rbAcc (s : State) :
    exec .rbAcc s =
      .next (s.modRing s.op.ring s.rt.c.toNat fun r => r.accumulate s.operandSource s.rt.n.toNat s.op.gain) := rfl

end

/-- Settles O13: the operation is the ring's write of the source span. -/
theorem rbWriteAppends : Obligations.RbWriteAppends := by
  unfold Obligations.RbWriteAppends
  intro s r hr hl hc
  refine ⟨(r.write s.operandSource s.rt.n.toNat).data, _, exec_rbWrite s, State.modRing_liveBecomes hr rfl,
    (Ring.write_length r _ _).trans hl, ?newest, ?kept⟩
  case newest =>
    intro i hi hn
    rw [r.write_elem_newest _ _ hl hc hi hn, State.operandSource_elem s hi]
  case kept => exact fun j _ hmiss => r.write_elem_kept _ _ hl hc hmiss

/-- Settles O14: the destination receives the ring's last samples. -/
theorem rbLastCopiesNewestSamples : Obligations.RbLastCopiesNewestSamples := by
  unfold Obligations.RbLastCopiesNewestSamples
  intro s r hr _ _ hn
  exact ⟨_, exec_rbLast hr,
    State.writeDest_becomes s _ _ (Ring.last_length r _) fun i hi => Ring.last_elem r hi hn⟩

/-- Settles O15: the ring is drained first, then the destination receives what was read. -/
theorem rbDrainEmitsOldestSamples : Obligations.RbDrainEmitsOldestSamples := by
  unfold Obligations.RbDrainEmitsOldestSamples
  intro s r hr hl hc
  refine ⟨(r.drain s.rt.n.toNat s.op.consume).data, s.drainOperandRing, _, exec_rbDrain hr,
    State.modRing_liveBecomes hr rfl, ?dest, (Ring.drain_length r _ _).trans hl, ?copied, ?consumed, ?kept⟩
  case dest =>
    exact State.writeDest_becomes _ _ _ (Ring.drained_length r _ _) fun i hi => r.drained_elem_of_lt _ hl hc hi
  case copied =>
    intro hkeep
    rw [hkeep, Ring.drain_keep]
  case consumed =>
    intro hconsume i hi
    rw [hconsume]
    exact r.drain_elem_consumed hl hc hi
  case kept => exact fun j _ hmiss => r.drain_elem_kept _ hl hc hmiss

/-- Settles O16: the operation adds the scaled source span from the read cursor on. -/
theorem rbAccAddsScaledSamples : Obligations.RbAccAddsScaledSamples := by
  unfold Obligations.RbAccAddsScaledSamples
  intro s r hr hl _ hn
  refine ⟨(r.accumulate s.operandSource s.rt.n.toNat s.op.gain).data, _, exec_rbAcc s,
    State.modRing_liveBecomes hr rfl, (Ring.accumulate_length r _ _ _).trans hl, ?added, ?kept⟩
  case added =>
    intro i hi
    rw [r.accumulate_elem _ _ _ hl hn (by omega), if_pos hi, State.operandSource_elem s hi]
  case kept => exact fun j hj hmiss => r.accumulate_elem_kept _ _ hl hn hj hmiss

end Sys2Proof.Machine

/-! PROOFS. The statements about the compressor bank: CMP.PROCESS, CMP.SETTHR, CMP.SETTIME, CMP.SETRATIO, and the core's
unity and corner cases (spec 41_compressor.md R141 to R149). -/

namespace Sys2Proof.Machine

/-! ## Comparisons with 0.0 (R18) -/

theorem fLt_asymm {a b : F32} (h : fLt a b = true) : fLt b a = false := by
  simp only [fLt, Bool.and_eq_true, decide_eq_true_eq] at h
  obtain ⟨-, hlt⟩ := h
  simp only [fLt, Bool.and_eq_false_iff, decide_eq_false_iff_not]
  exact .inr hlt.not_gt

/-- Neither zero is below 0.0. -/
theorem fLt_zero_of_isZero {e : F32} (h : fIsZero e = true) : fLt e fZero = false := by
  have heq : fEq e fZero = true := (fEq_zero_iff e).mpr h
  simp only [fEq, Bool.and_eq_true, decide_eq_true_eq] at heq
  obtain ⟨-, horder⟩ := heq
  simp only [fLt, horder, lt_self_iff_false, decide_false, Bool.and_false]

/-! ## The core's step (R141, R143 to R146) -/

theorem cmpStep_of_reference {p : Params} (h : p.core = .reference) (env thr ratio cteA cteR m : F32) :
    cmpStep p env thr ratio cteA cteR m = refStep env thr ratio cteA cteR m := by
  simp only [cmpStep, h]

theorem cmpStep_of_other {p : Params} (h : p.core = .other) (env thr ratio cteA cteR m : F32) :
    cmpStep p env thr ratio cteA cteR m = otherStep env thr ratio cteA cteR m := by
  simp only [cmpStep, h]

/-- The reference magnitude is the gain of the new envelope times the old magnitude (R145). -/
theorem refStep_snd (env thr ratio cteA cteR m : F32) :
    (refStep env thr ratio cteA cteR m).2 = fMul (refGain (refStep env thr ratio cteA cteR m).1 thr ratio) m := by
  simp only [refStep]

/-- The reference coefficient of a time: 0.0 below 0.001 ms, else the exponential (R148). -/
theorem cmpCte_of_reference {p : Params} (h : p.core = .reference) (t rate : F32) :
    cmpCte p t rate = if fLt t 0x3A83126F#32 then fZero else numExp (fDiv (fDiv 0xC5C4597C#32 rate) t) := by
  simp only [cmpCte, h]

/-- At ratio 1.0 the exponent is 0.0 (R146). -/
theorem exponent_ratio_one : fSub (fDiv fOne fOne) fOne = fZero := by decide

/-- At ratio 1.0 the gain is 1.0 on both sides of the threshold (R146). -/
theorem refGain_ratio_one (e thr : F32) : refGain e thr fOne = fOne := by
  unfold refGain
  rw [exponent_ratio_one, numPow_zero_exponent, ite_self]

/-- A silent threshold mutes what is above it, when the exponent is negative (R146). -/
theorem refGain_zero_threshold_of_positive {e ratio : F32} (he : fLt fZero e = true)
    (hx : fLt (fSub (fDiv fOne ratio) fOne) fZero = true) : refGain e fZero ratio = fZero := by
  unfold refGain
  rw [fLt_asymm he, if_neg Bool.false_ne_true, fDiv_zero_of_positive he, numPow_inf_negative hx]

/-- A silent threshold and a zero envelope give a NaN, when the exponent is not zero (R146). -/
theorem refGain_zero_threshold_of_zero {e ratio : F32} (he : fIsZero e = true)
    (hx : fIsZero (fSub (fDiv fOne ratio) fOne) = false) : fIsNaN (refGain e fZero ratio) = true := by
  unfold refGain
  rw [fLt_zero_of_isZero he, if_neg Bool.false_ne_true, fDiv_zero_zero he]
  exact numPow_nan (by decide) hx

/-- Property P2 (R141): the reference gain is 1.0 and 1.0 is neutral; another core has the property by definition. -/
theorem cmpStep_ratio_one (p : Params) (env thr cteA cteR : F32) {m : F32} (hfin : fIsFinite m = true)
    (hsign : fIsZero m = true ∨ fSign m = false) : (cmpStep p env thr fOne cteA cteR m).2 = m := by
  cases hcore : p.core with
  | reference =>
    rw [cmpStep_of_reference hcore]
    rw [refStep_snd, refGain_ratio_one, fMul_one_left (not_nan_of_finite hfin)]
  | other =>
    rw [cmpStep_of_other hcore]
    exact if_pos ⟨rfl, hfin, hsign.imp_right fun h => by rw [h]; exact Bool.false_ne_true⟩

/-- Settles O19: P2 for either core, and the reference core's gain or envelope in each corner. -/
theorem unityAtRatioOne : Obligations.UnityAtRatioOne := by
  unfold Obligations.UnityAtRatioOne
  intro p env thr ratio cteA cteR m
  refine ⟨cmpStep_ratio_one p env thr cteA cteR, fun hcore => ?_⟩
  rw [cmpStep_of_reference hcore]
  refine ⟨?muted, ?undefined, ?silent, refEnvelope_nan cteA cteR⟩
  case muted =>
    rintro rfl he hx hfin hsign
    rw [refStep_snd, refGain_zero_threshold_of_positive he hx, fMul_zero_left hfin, hsign]
    rfl
  case undefined =>
    rintro rfl he hx
    exact fIsNaN_fMul_left m (refGain_zero_threshold_of_zero he hx)
  case silent =>
    rintro rfl rfl hattack hrelease
    exact refEnvelope_zero hattack hrelease

/-! ## The compressors of the bank (R140, R142) -/

theorem Slot.hasBin_iff {S : Slot} {b : Nat} : S.hasBin b = true ↔ 1 ≤ b ∧ b ≤ S.W / 2 := by
  simp only [Slot.hasBin, Bool.and_eq_true, decide_eq_true_eq]

section
variable {S : Slot} {row : List F32}

theorem Slot.envAt_of_row {j : Nat} (h : S.env[j]? = some row) (c : Nat) : S.envAt j c = elemAt row c := by
  unfold Slot.envAt
  rw [h, Option.getD_some]

theorem Slot.setEnv_of_row {j : Nat} (h : S.env[j]? = some row) (c : Nat) (v : F32) :
    S.setEnv j c v = { S with env := S.env.set j (row.set c v) } := by
  unfold Slot.setEnv
  rw [List.modify_eq_set_getElem?, h]
  rfl

/-- One compressor reads its own settings and its own envelope in the channel (R142). -/
theorem Slot.compress_of_row {b : Nat} (h : S.env[b - 1]? = some row) (p : Params) (c : Nat) (m : F32) :
    S.compress p b c m = cmpStep p (elemAt row c) (elemAt S.thr (b - 1)) (elemAt S.ratio (b - 1))
      (elemAt S.cteA (b - 1)) (elemAt S.cteR (b - 1)) m := by
  rw [← Slot.envAt_of_row h]
  rfl

end

theorem exec_cmpProcess {s : State} (hb : s.liveSlot.hasBin s.rt.b.toNat = true) {r : F32 × F32}
    (hr : s.liveSlot.compress s.params s.rt.b.toNat s.rt.c.toNat s.rt.m = r) :
    exec .cmpProcess s = .next
      { s.modLive (Slot.setEnv (s.rt.b.toNat - 1) s.rt.c.toNat r.1) with rt := { s.rt with m2 := r.2 } } := by
  subst hr
  exact if_pos hb

/-- Settles O18: the row of the bin is the one whose element the step reads and writes. -/
theorem cmpProcessStepsOneInstance : Obligations.CmpProcessStepsOneInstance := by
  unfold Obligations.CmpProcessStepsOneInstance
  intro s row hlow hhigh hrow _ S j env m thr ratio e m'
  refine ⟨⟨_, exec_cmpProcess (Slot.hasBin_iff.mpr ⟨hlow, hhigh⟩) (Slot.compress_of_row hrow _ _ _), fun _ => rfl, ?_⟩,
    fun hcore => ?_⟩
  · rw [State.modLive_eq, Slot.setEnv_of_row hrow]
  · have href := cmpStep_of_reference hcore env thr ratio (elemAt S.cteA j) (elemAt S.cteR j) m
    simp only [e, m', href]
    exact ⟨rfl, rfl⟩

/-! ## The settings of the bank (R147 to R149) -/

theorem exec_cmpSetThr (s : State) :
    exec .cmpSetThr s = .next (s.modLive (Slot.setThreshold s.rt.b.toNat s.op.t)) := rfl

theorem exec_cmpSetRatio (s : State) : exec .cmpSetRatio s = .next (s.setRatio s.op.ratio) := rfl

theorem exec_cmpSetTime (s : State) : exec .cmpSetTime s = .next (s.setTimes s.op.attackMs s.op.releaseMs) := rfl

theorem Slot.setThreshold_of_hasBin {S : Slot} {b : Nat} (h : S.hasBin b = true) (t : F32) :
    S.setThreshold b t = { S with thr := S.thr.set (b - 1) t } :=
  if_pos h

/-- The ratio of every bin of a bank that has W/2 of them (R149). -/
theorem State.setRatio_liveBecomes {s : State} (h : s.liveSlot.ratio.length = s.liveSlot.W / 2) (r : F32) :
    LiveBecomes s { s.liveSlot with ratio := List.replicate (s.liveSlot.W / 2) r } (s.setRatio r) := by
  rw [← mapFirst_const r h]
  exact ⟨rfl, fun _ => rfl⟩

/-- The coefficients of every bin of a bank that has W/2 of them (R148). -/
theorem State.setTimes_liveBecomes {s : State} (ha : s.liveSlot.cteA.length = s.liveSlot.W / 2)
    (hr : s.liveSlot.cteR.length = s.liveSlot.W / 2) (attackMs releaseMs : F32) :
    LiveBecomes s
      { s.liveSlot with
        cteA := List.replicate (s.liveSlot.W / 2) (cmpCte s.params attackMs s.effectiveRate)
        cteR := List.replicate (s.liveSlot.W / 2) (cmpCte s.params releaseMs s.effectiveRate) }
      (s.setTimes attackMs releaseMs) := by
  rw [← mapFirst_const _ ha, ← mapFirst_const _ hr]
  exact ⟨rfl, fun _ => rfl⟩

/-- Settles O20: both operations change the live slot alone. -/
theorem compressorThresholdAndRatioWrites : Obligations.CompressorThresholdAndRatioWrites := by
  unfold Obligations.CompressorThresholdAndRatioWrites
  intro s
  refine ⟨fun hlow hhigh => ⟨_, exec_cmpSetThr s, ?_⟩,
    fun hlen => ⟨_, exec_cmpSetRatio s, State.setRatio_liveBecomes hlen s.op.ratio⟩⟩
  rw [← Slot.setThreshold_of_hasBin (Slot.hasBin_iff.mpr ⟨hlow, hhigh⟩)]
  exact State.modLive_liveBecomes _ s

/-- Settles O21: the rate the statement names is the effective rate of the live slot's interval. -/
theorem compressorTimesBecomeCoefficients : Obligations.CompressorTimesBecomeCoefficients := by
  unfold Obligations.CompressorTimesBecomeCoefficients
  intro s ha hr rate
  exact ⟨⟨_, exec_cmpSetTime s, State.setTimes_liveBecomes ha hr s.op.attackMs s.op.releaseMs⟩,
    fun hcore time => cmpCte_of_reference hcore time rate⟩

end Sys2Proof.Machine

/-! PROOFS. The statements about the sidechain: AGG.ACC, AGG.COMMIT and SC.ANALYZE (spec 42_sidechain.md R161 to R163). -/

namespace Sys2Proof.Machine

/-! ## The aggregator of the live slot (R162, R163) -/

theorem exec_aggAcc (s : State) :
    exec .aggAcc s = .next (s.modLive (Slot.accumulateBin s.rt.b.toNat s.rt.m)) := rfl

theorem exec_aggCommit (s : State) : exec .aggCommit s = .next (s.modLive Slot.commit) := rfl

theorem Slot.accumulateBin_of_hasBin {S : Slot} {b : Nat} (h : S.hasBin b = true) (m : F32) :
    S.accumulateBin b m = { S with acc := S.acc.set (b - 1) (fAdd (elemAt S.acc (b - 1)) m) } :=
  if_pos h

section
variable {S : Slot}

theorem Slot.commit_of_acc_length (h : S.acc.length = S.W / 2) :
    S.commit = { S with thr := S.commit.thr, acc := List.replicate (S.W / 2) fZero } := by
  rw [← mapFirst_const fZero h]
  rfl

theorem Slot.commit_thr_length (S : Slot) : S.commit.thr.length = S.thr.length :=
  length_mapFirst _ _ _

/-- A committed threshold is the accumulator it is taken from, divided by the channel count (R163). -/
theorem Slot.commit_thr_elem (h : S.thr.length = S.W / 2) {j : Nat} (hj : j < S.W / 2) :
    elemAt S.commit.thr j = fDiv (elemAt S.acc j) (fOfNat S.nch) :=
  (elemAt_mapFirst (h ▸ hj)).trans (if_pos hj)

end

/-- Settles O22: an accumulator of the bank is set to the sum, and the commit maps every threshold. -/
theorem aggregatorAveragesIntoThresholds : Obligations.AggregatorAveragesIntoThresholds := by
  unfold Obligations.AggregatorAveragesIntoThresholds
  intro s
  refine ⟨fun hlow hhigh => ⟨_, exec_aggAcc s, ?accumulated⟩,
    fun hthr hacc => ⟨s.liveSlot.commit.thr, _, exec_aggCommit s, ?committed,
      (Slot.commit_thr_length _).trans hthr, fun _ hj => Slot.commit_thr_elem hthr hj⟩⟩
  case accumulated =>
    rw [← Slot.accumulateBin_of_hasBin (Slot.hasBin_iff.mpr ⟨hlow, hhigh⟩)]
    exact State.modLive_liveBecomes _ s
  case committed =>
    rw [← Slot.commit_of_acc_length hacc]
    exact State.modLive_liveBecomes _ s

/-! ## The analysis of one sidechain channel (R161) -/

theorem exec_fftFwd (s : State) : exec .fftFwd s = .next s.forward := rfl

theorem exec_scAnalyze (s : State) : exec .scAnalyze s = .next (s.analyze s.rt.c.toNat) := rfl

theorem EngineBecomes.liveSlot {s t : State} {S : Slot} (h : EngineBecomes s S t) : t.liveSlot = S := by
  rw [h.state_eq]
  exact State.liveSlot_setSlot_live S s

/-- A change of the live slot after an operation that runs transforms. -/
theorem EngineBecomes.modLive {s t : State} {S : Slot} (h : EngineBecomes s S t) (f : Slot → Slot) :
    EngineBecomes s (f S) (t.modLive f) where
  state_eq := by
    rw [State.modLive_eq, h.liveSlot]
    have ht := h.state_eq
    generalize t.fresh = n at ht
    subst ht
    exact congrArg (fun u : State => { u with fresh := n }) (State.setSlot_setSlot s.live S (f S) s)
  memory_eq a := by rw [State.byteAt_modLive, h.memory_eq]

/-- What was in the live slot before it became `S` does not matter. -/
theorem EngineBecomes.of_setSlot_live {s t : State} {R S : Slot} (h : EngineBecomes (s.setSlot s.live R) S t) :
    EngineBecomes s S t where
  state_eq := by simpa using h.state_eq
  memory_eq := h.memory_eq

theorem State.forward_engineBecomes (s : State) :
    EngineBecomes s
      { s.liveSlot with scratch := fftForward s.liveSlot.W s.fresh s.liveSlot.scratch } s.forward :=
  ⟨rfl, fun _ => rfl⟩

/-- The transform of a live slot whose scratch buffer was filled just before (R161, R175). -/
theorem State.forward_setScratch (s : State) (x : List F32) :
    EngineBecomes s { s.liveSlot with scratch := fftForward s.liveSlot.W s.fresh x }
      (s.setSlot s.live { s.liveSlot with scratch := x }).forward := by
  have h := State.forward_engineBecomes (s.setSlot s.live { s.liveSlot with scratch := x })
  rw [State.liveSlot_setSlot_live] at h
  exact h.of_setSlot_live

/-- The analysis of a channel is the transform of its frame, then the sums over its spectrum. -/
theorem State.analyze_engineBecomes {s : State} {nch : Nat} (hbuilt : s.liveSlot.Built nch) {c : Nat} {r : Ring}
    (hring : s.liveSlot.sidr[c]? = some r) :
    EngineBecomes s
      (Slot.accumulateSpectrum
        { s.liveSlot with
          scratch := fftForward s.liveSlot.W s.fresh (frameOf r s.liveSlot.W s.liveSlot.scratch) })
      (s.analyze c) := by
  obtain ⟨⟨hcap, -⟩, -⟩ := hbuilt.sidechain_rings r (List.mem_of_getElem? hring)
  unfold State.analyze
  rw [State.extract_eq hbuilt (kind := .sidechain) hring hcap]
  exact (State.forward_setScratch s _).modLive Slot.accumulateSpectrum

/-- Every accumulator gains the magnitude of its bin (R161). -/
theorem Slot.accumulateSpectrum_elem {S : Slot} (h : S.acc.length = S.W / 2) {b : Nat} (hlow : 1 ≤ b)
    (hhigh : b ≤ S.W / 2) :
    elemAt S.accumulateSpectrum.acc (b - 1) = fAdd (elemAt S.acc (b - 1)) (S.binMagnitude b) := by
  have hj : b - 1 < S.W / 2 := by omega
  have hsum := (elemAt_mapFirst (f := fun j x => fAdd x (S.binMagnitude (j + 1))) (h ▸ hj)).trans (if_pos hj)
  rwa [Nat.sub_add_cancel hlow] at hsum

/-- Settles O23: the transform leaves the accumulators, and the loop over the bins reads the spectrum it left. -/
theorem scAnalyzeAccumulatesSpectrum : Obligations.ScAnalyzeAccumulatesSpectrum := by
  unfold Obligations.ScAnalyzeAccumulatesSpectrum
  intro s nch r hbuilt hring
  have hfwd := State.forward_setScratch s (frameOf r s.liveSlot.W s.liveSlot.scratch)
  have hanalyze := State.analyze_engineBecomes hbuilt hring
  refine ⟨_, _, (s.analyze s.rt.c.toNat).liveSlot.acc, exec_fftFwd _, exec_scAnalyze s, ?becomes, rfl, ?length,
    fun b hlow hhigh => ?gain⟩
  case becomes =>
    rw [hfwd.liveSlot, hanalyze.liveSlot]
    exact hanalyze
  case length =>
    rw [hanalyze.liveSlot]
    exact (length_mapFirst _ _ _).trans hbuilt.acc_length
  case gain =>
    rw [hfwd.liveSlot, hanalyze.liveSlot]
    apply Slot.accumulateSpectrum_elem
    exacts [hbuilt.acc_length, hlow, hhigh]

end Sys2Proof.Machine

/-! PROOFS. The statements about the STFT engine: the steps of a cycle, BIN.SCALE, and the whole cycles STFT.CYCLE and
BYP.CYCLE (spec 43_stft_engine.md R170 to R183). -/

namespace Sys2Proof.Machine

/-! ## The frame, the window and the counter (R172, R174, R178, R180) -/

theorem exec_stftExtract (s : State) : exec .stftExtract s = .next (s.extract .input s.rt.c.toNat) := rfl

theorem exec_stftCount (s : State) : exec .stftCount s = .next s.countWindow := rfl

/-- Settles O24: the input ring of a built slot has the window's size, so the copy is its frame. -/
theorem stftExtractTakesTheLastWindow : Obligations.StftExtractTakesTheLastWindow := by
  unfold Obligations.StftExtractTakesTheLastWindow
  intro s nch r hbuilt hring
  obtain ⟨⟨hcap, -⟩, -⟩ := hbuilt.input_rings r (List.mem_of_getElem? hring)
  refine ⟨_, exec_stftExtract s, ?_⟩
  rw [State.extract_eq hbuilt (kind := .input) hring hcap]
  exact ⟨rfl, fun _ => rfl⟩

/-- Analysis and synthesis windowing are one operation (R178). -/
theorem exec_windowing (s : State) : ∀ i ∈ [Instr.stftWinA, .stftWinS], exec i s = .next s.applyWindow := by
  simp only [List.forall_mem_cons]
  exact ⟨rfl, rfl, fun _ h => by cases h⟩

/-- Settles O25: both instructions are the one windowing, a map over the first W elements. -/
theorem windowingMultipliesByTheTable : Obligations.WindowingMultipliesByTheTable := by
  unfold Obligations.WindowingMultipliesByTheTable
  intro s i hi
  refine ⟨_, _, exec_windowing s i hi, ⟨rfl, fun _ => rfl⟩, length_mapFirst _ _ _, fun n hn => ?_⟩
  rw [length_mapFirst] at hn
  exact elemAt_mapFirst hn

/-- Settles O31: the counter's next value is `countAfter` of it. -/
theorem counterSaturates : Obligations.CounterSaturates := by
  unfold Obligations.CounterSaturates
  intro s
  exact ⟨_, _, exec_stftCount s, ⟨rfl, fun _ => rfl⟩, countAfter_toNat _⟩

/-! ## The transforms (R175, R177) -/

theorem exec_fftInv (s : State) : exec .fftInv s = .next s.inverse := rfl

/-- Element `i` of the spectrum of the `W` samples `x`: a function of nothing else (FFT_FUN). -/
def forwardElem (W : Nat) (x : List F32) (i : Nat) : F32 := zeroPreserving x (Config.fftFwd W x i)

theorem elemAt_fftForward {W d i : Nat} {x : List F32} (hbin : i < W + 2) (hi : i < 2 * W) :
    elemAt (fftForward W d x) i = forwardElem W (x.take W) i :=
  (elemAt_map_range hi).trans (if_pos hbin)

/-- Settles O26: the function is `forwardElem`. -/
theorem fftForwardKeepsItsInterface : Obligations.FftForwardKeepsItsInterface := by
  unfold Obligations.FftForwardKeepsItsInterface
  exact ⟨forwardElem, fun _ _ _ hzeros => zeroPreserving_of_zeros hzeros _, fun s =>
    ⟨_, _, exec_fftFwd s, State.forward_engineBecomes s, fftForward_length _ _ _,
      fun _ hbin hi => elemAt_fftForward hbin hi⟩⟩

/-- Sample `i` of the inverse transform of the bins `x`: a function of W and what the transform reads of them. -/
def inverseElem (W : Nat) (x : List F32) (i : Nat) : F32 :=
  zeroPreserving (inverseInput W x) (Config.fftInv W (inverseInput W x) i)

/-- The transform reads bins 0 to W/2 alone. -/
theorem inverseInput_take (W : Nat) (x : List F32) : inverseInput W (x.take (W + 2)) = inverseInput W x := by
  simp only [inverseInput, List.take_take, Nat.min_self]

/-- The two imaginary parts that do not contribute are replaced before the transform (R177). -/
theorem inverseInput_congr {W : Nat} {x x' : List F32} (hx : x.length = W + 2) (hx' : x'.length = W + 2)
    (h : ∀ i, i ≠ 1 → i ≠ W + 1 → x[i]? = x'[i]?) : inverseInput W x = inverseInput W x' := by
  simp only [inverseInput, List.take_of_length_le hx.le, List.take_of_length_le hx'.le]
  apply List.ext_getElem?
  intro i
  simp only [List.getElem?_set, List.length_set, hx, hx']
  by_cases hlast : W + 1 = i
  · rw [if_pos hlast, if_pos hlast]
  by_cases hfirst : 1 = i
  · rw [if_neg hlast, if_neg hlast, if_pos hfirst, if_pos hfirst]
  · rw [if_neg hlast, if_neg hlast, if_neg hfirst, if_neg hfirst, h i (Ne.symm hfirst) (Ne.symm hlast)]

theorem inverseElem_congr {W : Nat} {x x' : List F32} (h : inverseInput W x = inverseInput W x') :
    inverseElem W x = inverseElem W x' := by
  funext i
  rw [inverseElem, h, inverseElem]

theorem elemAt_fftInverse {W d i : Nat} {x : List F32} (hi : i < W) :
    elemAt (fftInverse W d x) i = inverseElem W (x.take (W + 2)) i := by
  rw [inverseElem_congr (inverseInput_take W x)]
  exact (elemAt_map_range (by omega)).trans (if_pos hi)

theorem State.inverse_engineBecomes (s : State) :
    EngineBecomes s
      { s.liveSlot with scratch := fftInverse s.liveSlot.W s.fresh s.liveSlot.scratch } s.inverse :=
  ⟨rfl, fun _ => rfl⟩

/-- Settles O27: the function is `inverseElem`, and its input has 0.0 in place of the two imaginary parts. -/
theorem fftInverseKeepsItsInterface : Obligations.FftInverseKeepsItsInterface := by
  unfold Obligations.FftInverseKeepsItsInterface
  exact ⟨inverseElem, fun _ _ _ hzeros => zeroPreserving_of_zeros (inverseInput_zeros hzeros) _,
    fun _ _ _ hx hx' h => inverseElem_congr (inverseInput_congr hx hx' h), fun s =>
    ⟨_, _, exec_fftInv s, State.inverse_engineBecomes s, fftInverse_length _ _ _, fun _ hi => elemAt_fftInverse hi⟩⟩

/-! ## BIN.SCALE (R176, R183) -/

theorem exec_binScale (s : State) : exec .binScale s = .next (s.binScale s.rt.c.toNat) := rfl

theorem State.binScale_liveBecomes (c : Nat) (s : State) :
    LiveBecomes { s with rt := (s.binScale c).rt } (s.liveSlot.scaleBins s.params c) (s.binScale c) :=
  ⟨rfl, fun _ => rfl⟩

/-- The bins leave RT's registers as the last of them does, where there is one. -/
theorem RtRegs.afterBins_last {p : Params} {S : Slot} {c b : Nat} (r : RtRegs) (hlow : 1 ≤ b) (hlast : b = S.W / 2) :
    r.afterBins p S c =
      { r with
        b := BitVec.ofNat 32 b, m := S.binMagnitude b, m2 := (S.binCompressed p c b).2, s := S.binFactor p c b } := by
  subst hlast
  exact if_neg (by omega)

theorem Slot.scaleBins_scratch_length (S : Slot) (p : Params) (c : Nat) :
    (S.scaleBins p c).scratch.length = S.scratch.length :=
  List.length_mapIdx

theorem Slot.scaleBins_env_length (S : Slot) (p : Params) (c : Nat) :
    (S.scaleBins p c).env.length = S.env.length :=
  List.length_mapIdx

/-- Settles O28: the compressor of a bin is the one its row of envelopes belongs to. -/
theorem binScaleCompressesEveryBin : Obligations.BinScaleCompressesEveryBin := by
  unfold Obligations.BinScaleCompressesEveryBin
  intro s nch hbuilt _
  refine ⟨_, _, _, exec_binScale s, State.binScale_liveBecomes s.rt.c.toNat s, fun hnone => if_pos hnone,
    Slot.scaleBins_scratch_length _ _ _, Slot.scaleBins_env_length _ _ _, fun b hlow hhigh row hrow => ?_,
    fun i hi => Slot.scaleBins_kept _ _ _ hi⟩
  intro re im m r f
  have hr : s.liveSlot.binCompressed s.params s.rt.c.toNat b = r := Slot.compress_of_row hrow _ _ _
  have hf : s.liveSlot.binFactor s.params s.rt.c.toNat b = f := by
    simp only [f, ← hr]
    rfl
  obtain ⟨hre, him, henv⟩ := Slot.scaleBins_elem hbuilt s.params s.rt.c.toNat hlow hhigh
  rw [hf] at hre him
  rw [hrow, hr] at henv
  refine ⟨hre, him, henv, fun hlast => ?_⟩
  rw [← hr, ← hf]
  exact RtRegs.afterBins_last s.rt hlow hlast

section
variable {S : Slot} {nch : Nat}

/-- At ratio 1.0 a bin of finite magnitude is scaled by 1.0: `m /f m`, or the factor of a zero magnitude (R176). -/
theorem Slot.binFactor_ratio_one (p : Params) (c : Nat) {b : Nat} (hratio : elemAt S.ratio (b - 1) = fOne)
    (hfin : fIsFinite (S.binMagnitude b) = true) : S.binFactor p c b = fOne := by
  unfold Slot.binFactor
  cases hz : fIsZero (S.binMagnitude b) with
  | true => exact if_pos ((fEq_zero_iff _).mpr hz)
  | false =>
    have hne : ¬ fEq (S.binMagnitude b) fZero = true := by rw [fEq_zero_iff, hz]; decide
    have hunity : (S.binCompressed p c b).2 = S.binMagnitude b := by
      simp only [Slot.binCompressed, Slot.compress, binIndex, hratio]
      exact cmpStep_ratio_one p _ _ _ _ hfin (fSqrt_nonneg hfin)
    simp only [if_neg hne, hunity]
    exact fDiv_self hfin hz

/-- Scaling by 1.0 leaves both parts of a bin of finite magnitude, neither of which is a NaN. -/
theorem Slot.scaleBins_elem_ratio_one (h : S.Built nch) (p : Params) (c : Nat) {b : Nat} (hlow : 1 ≤ b)
    (hhigh : b ≤ S.W / 2) (hratio : elemAt S.ratio (b - 1) = fOne) (hfin : fIsFinite (S.binMagnitude b) = true) :
    elemAt (S.scaleBins p c).scratch (2 * b) = elemAt S.scratch (2 * b) ∧
      elemAt (S.scaleBins p c).scratch (2 * b + 1) = elemAt S.scratch (2 * b + 1) := by
  obtain ⟨hre, him, -⟩ := Slot.scaleBins_elem h p c hlow hhigh
  obtain ⟨hnanRe, hnanIm⟩ := fMag_finite hfin
  rw [Slot.binFactor_ratio_one p c hratio hfin] at hre him
  exact ⟨hre.trans (fMul_one_right hnanRe), him.trans (fMul_one_right hnanIm)⟩

/-- An element is a part of a bin that is scaled, or it stays whatever the ratio. -/
theorem Slot.scaleBins_scratch_ratio_one (h : S.Built nch) (p : Params) (c : Nat)
    (hratio : S.ratio = List.replicate (S.W / 2) fOne)
    (hfin : ∀ b, 1 ≤ b → b ≤ S.W / 2 → fIsFinite (S.binMagnitude b) = true) :
    (S.scaleBins p c).scratch = S.scratch := by
  apply eq_of_elemAt (Slot.scaleBins_scratch_length S p c)
  intro i _
  by_cases hbin : 1 ≤ i / 2 ∧ i / 2 ≤ S.W / 2
  · obtain ⟨hlow, hhigh⟩ := hbin
    have hone : elemAt S.ratio (i / 2 - 1) = fOne := by rw [hratio]; exact elemAt_replicate (by omega)
    obtain ⟨hre, him⟩ := Slot.scaleBins_elem_ratio_one h p c hlow hhigh hone (hfin _ hlow hhigh)
    rcases Nat.mod_two_eq_zero_or_one i with heven | hodd
    · rwa [show 2 * (i / 2) = i from by omega] at hre
    · rwa [show 2 * (i / 2) + 1 = i from by omega] at him
  · unfold elemAt
    rw [Slot.scaleBins_kept S p c (by omega)]

end

/-- Settles O29: every bin that is scaled is scaled by 1.0. -/
theorem ratioOneLeavesTheSpectrum : Obligations.RatioOneLeavesTheSpectrum := by
  unfold Obligations.RatioOneLeavesTheSpectrum
  intro s nch hbuilt _ hratio hfin
  have hlive : (s.binScale s.rt.c.toNat).liveSlot = s.liveSlot.scaleBins s.params s.rt.c.toNat :=
    State.liveSlot_modLive _ s
  refine ⟨_, exec_binScale s, ?_⟩
  rw [hlive]
  exact Slot.scaleBins_scratch_ratio_one hbuilt s.params s.rt.c.toNat hratio hfin

/-! ## STFT.OLA (R179) -/

theorem exec_stftOla (s : State) : exec .stftOla s = .next (s.addFrame s.rt.c.toNat) := rfl

/-- The frame is added by RB.ACC on one ring of the live slot (R179). -/
theorem State.addFrame_eq_modRing (c : Nat) (s : State) :
    s.addFrame c =
      s.modRing .output c fun r => r.accumulate s.liveSlot.scratch s.liveSlot.W s.gain := by
  simp only [State.addFrame, State.overlapAdd, State.modRing, State.modLive]

/-- An output ring of a slot replaced. -/
theorem Slot.modRing_output_const (S : Slot) (c : Nat) (r : Ring) :
    (S.modRing .output c fun _ => r) = { S with outr := S.outr.set c r } := by
  simp only [Slot.modRing, reduceCtorEq, if_false, if_true, List.set_eq_modify]

/-- Settles O30: the operation is RB.ACC of the whole frame on a ring of capacity W. -/
theorem overlapAddLandsOnTheNextSamples : Obligations.OverlapAddLandsOnTheNextSamples := by
  unfold Obligations.OverlapAddLandsOnTheNextSamples
  intro s nch r hbuilt hring
  obtain ⟨⟨hcap, hlen⟩, -⟩ := hbuilt.output_rings r (List.mem_of_getElem? hring)
  refine ⟨(r.accumulate s.liveSlot.scratch s.liveSlot.W s.gain).data, _, exec_stftOla s, ?becomes,
    (Ring.accumulate_length _ _ _ _).trans hlen, fun i hi => ?gain⟩
  case becomes =>
    rw [State.addFrame_eq_modRing, ← Slot.modRing_output_const]
    exact State.modRing_liveBecomes (kind := .output) hring rfl
  case gain =>
    have h := r.accumulate_elem s.liveSlot.scratch s.liveSlot.W s.gain (by omega) (by omega) (i := i) (by omega)
    rwa [hcap, if_pos hi] at h

/-! ## STFT.CYCLE (R160, R164, R170, R171) -/

theorem exec_stftCycle (s : State) : exec .stftCycle s = .next s.stftCycle := rfl

/-- The sidechain phase with its channel count and SC_EFF given beforehand. -/
def State.phaseOf (nch : Nat) (scEff : Bool) (s : State) : State :=
  if scEff then (forChannels nch State.analyze s).modLive Slot.commit else s

/-- A cycle with its channel count and SC_EFF given beforehand, as its program has them. -/
def State.cycleOf (nch : Nat) (scEff : Bool) (s : State) : State :=
  State.countWindow (forChannels nch State.channelPass (s.phaseOf nch scEff))

theorem State.stftCycle_eq_cycleOf (s : State) : s.stftCycle = s.cycleOf s.liveSlot.nch s.scEff := rfl

theorem runs_phaseOf {nch : Nat} (h : nch ≤ 2 ^ 32) (scEff : Bool) :
    Runs (if scEff then (List.range nch).map (fun c => (c, Instr.scAnalyze)) ++ [(0, Instr.aggCommit)] else [])
      (State.phaseOf nch scEff) := by
  cases scEff with
  | false => exact Runs.nil
  | true =>
    rw [List.map_eq_flatMap]
    exact (Runs.loop nch fun c hc => runs_scAnalyze (by omega)).append (runs_aggCommit 0)

theorem State.channelPass_eq (c : Nat) :
    State.channelPass c = fun t => State.addFrame c (State.applyWindow (State.inverse (State.binScale c
      (State.forward (State.applyWindow (t.extract .input c)))))) := rfl

theorem runs_channelPass {c : Nat} (hc : c < 2 ^ 32) :
    Runs [(c, .stftExtract), (c, .stftWinA), (c, .fftFwd), (c, .binScale), (c, .fftInv), (c, .stftWinS), (c, .stftOla)]
      (State.channelPass c) := by
  have hspectrum := ((runs_stftExtract hc).append (runs_stftWinA c)).append (runs_fftFwd c)
  have hframe := ((hspectrum.append (runs_binScale hc)).append (runs_fftInv c)).append (runs_stftWinS c)
  rw [State.channelPass_eq]
  exact hframe.append (runs_stftOla hc)

/-- The program of a cycle has the cycle's effect, for channels the channel register can hold. -/
theorem runs_cycleProgram {nch : Nat} (h : nch ≤ 2 ^ 32) (scEff : Bool) :
    Runs (cycleProgram nch scEff) (State.cycleOf nch scEff) :=
  ((runs_phaseOf h scEff).append (Runs.loop nch fun _ hc => runs_channelPass (by omega))).append (runs_stftCount 0)

/-- An operation that works on the live slot alone changes that, RT's registers and the counter of free values. -/
theorem EngineKeeps.engineBecomes {s t : State} (h : EngineKeeps s t) :
    EngineBecomes { s with rt := t.rt } t.liveSlot t where
  state_eq := h.state_eq
  memory_eq a := by rw [h.state_eq]; rfl

/-- What a cycle leaves of the live slot before it counts the window, and the count (R160, R171, R180). -/
theorem State.stftCycle_shape (s : State) :
    ∃ T : Slot, s.stftCycle.liveSlot = { T with count := countAfter s.liveSlot.count } ∧ s.liveSlot.PhaseShape T ∧
      (s.scEff = false → s.liveSlot.ChannelShape T) := by
  have hpasses := forChannels_channelShape State.channelPass_channelShape s.liveSlot.nch
  have hphase : s.liveSlot.PhaseShape (forChannels s.liveSlot.nch State.channelPass s.sidechainPhase).liveSlot :=
    (State.sidechainPhase_phaseShape s).trans (hpasses s.sidechainPhase).phase
  refine ⟨_, ?_, hphase, fun hoff => ?_⟩
  · have hcount : (forChannels s.liveSlot.nch State.channelPass s.sidechainPhase).liveSlot.count = s.liveSlot.count := by
      rw [hphase.slot_eq]
    rw [← hcount]
    exact State.liveSlot_modLive _ _
  · have hskip : s.sidechainPhase = s := if_neg (by rw [hoff]; decide)
    rw [hskip]
    exact hpasses s

/-- Settles O32: the program runs as the cycle does, and the cycle keeps the slot within its shape. -/
theorem stftCycleIsItsProgram : Obligations.StftCycleIsItsProgram := by
  unfold Obligations.StftCycleIsItsProgram
  intro s hn
  have hruns := runs_cycleProgram hn s.scEff
  obtain ⟨c, hrun⟩ := hruns.run s
  have hchannel : s.stftCycle.rt.c = s.rt.c := hruns.writes_no_channel s
  have hkeeps := State.stftCycle_keeps s
  obtain ⟨T, hT, hphase, hoff⟩ := State.stftCycle_shape s
  refine ⟨_, _, hrun, exec_stftCycle s, ?_, hkeeps.engineBecomes, hkeeps.regs, ?_⟩
  · rw [← hchannel]
    rfl
  rw [hT]
  refine ⟨?slot, hphase.cursors, fun h => ?settings, countAfter_toNat _⟩
  case slot => rw [hphase.slot_eq]
  case settings =>
    rw [(hoff h).slot_eq]
    exact ⟨rfl, rfl⟩

/-! ## BYP.CYCLE (R182) -/

theorem exec_bypCycle (s : State) : exec .bypCycle s = .next s.bypassCycle := rfl

theorem interval_of_pos (W : Nat) {K : Nat} (h : 0 < K) : interval W K = W / K :=
  if_neg (by omega)

/-- The last `cap` samples of a ring start at its write cursor. -/
theorem Ring.last_cap_elem (r : Ring) {W i : Nat} (hcap : r.cap = W) (hi : i < W) :
    elemAt (r.last W) i = elemAt r.data ((r.pos + i) % W) := by
  rw [Ring.last_elem r hi hcap.ge, hcap, Nat.add_sub_cancel]

/-- The counter counts a window after the passes over the channels. -/
theorem State.countWindow_setSlot_live (s : State) (S : Slot) :
    LiveBecomes s { S with count := countAfter S.count } (s.setSlot s.live S).countWindow where
  state_eq := by
    simp only [State.countWindow, State.modLive, State.setSlot_live, State.liveSlot_setSlot_live, State.setSlot_setSlot]
  memory_eq _ := rfl

/-- The output ring of a channel after a bypass cycle (R182). -/
theorem Slot.bypassed_ring {S : Slot} {c I m : Nat} {ri ro : Ring} (hm : c < m) (hi : S.inr[c]? = some ri)
    (ho : S.outr[c]? = some ro) : (S.bypassed I m)[c]? = some (ro.accumulate (ri.last S.W) I fOne) := by
  have hring : S.ring .input c = ri := Slot.ring_of_getElem? (kind := .input) hi
  rw [Slot.bypassed, firstRings_getElem?, ho, Option.map_some, if_pos hm, hring]

/-- Settles O33: the passes leave each channel's output ring with the oldest I samples of its input ring added. -/
theorem bypassCycleCopiesDelayedInput : Obligations.BypassCycleCopiesDelayedInput := by
  unfold Obligations.BypassCycleCopiesDelayedInput
  intro s nch hbuilt hK W I
  have hpos := hbuilt.nch_pos
  have hI : s.liveSlot.interval = I := interval_of_pos s.liveSlot.W hK
  have hle : I ≤ W := Nat.div_le_self _ _
  obtain ⟨last, hlast, -⟩ := hbuilt.ring_input (c := nch - 1) (by omega)
  obtain ⟨x, -, -, hframe, hpasses⟩ := State.bypassPasses_eq hbuilt (by omega) (le_refl nch)
  rw [hI, hframe (nch - 1) last (by omega) hlast] at hpasses
  refine ⟨last, s.liveSlot.bypassed I nch, countAfter s.liveSlot.count, _, exec_bypCycle s, hlast, ?becomes,
    countAfter_toNat _, (firstRings_length _ _ _).trans hbuilt.outr_length, fun c hc => ?channel⟩
  case becomes =>
    unfold State.bypassCycle
    rw [hbuilt.nch_eq, hpasses]
    exact State.countWindow_setSlot_live s { s.liveSlot with
      scratch := frameOf last W s.liveSlot.scratch, outr := s.liveSlot.bypassed I nch }
  case channel =>
    obtain ⟨ri, hri, ⟨hicap, -⟩, -⟩ := hbuilt.ring_input hc
    obtain ⟨ro, hro, ⟨hcap, hlen⟩, -⟩ := hbuilt.ring_output hc
    have hsize : ro.data.length = ro.cap := by omega
    refine ⟨ri, ro, (ro.accumulate (ri.last W) I fOne).data, hri, hro, Slot.bypassed_ring hc hri hro,
      (Ring.accumulate_length _ _ _ _).trans hlen, fun i hi => ?_, fun j hj hmiss => ?_⟩
    · have h := ro.accumulate_elem (ri.last W) I fOne hsize (by omega) (i := i) (by omega)
      rwa [hcap, if_pos hi, ri.last_cap_elem hicap (by omega)] at h
    · exact ro.accumulate_elem_kept _ _ hsize (by omega) (by omega) (by rwa [hcap])

end Sys2Proof.Machine

/-! PROOFS. The statements about the block scheduler: its micro-operations, the lines of RT's program, and why a block
in the declared ranges consumes exactly its samples (spec 44_scheduler.md R190 to R199). -/

namespace Sys2Proof.Machine

/-! ## SCHED.ALIGN (R196) -/

theorem exec_schedAlign (s : State) : exec .schedAlign s = .next s.align := rfl

theorem modInterval_of_pos (x : Nat) {I : Nat} (hI : 0 < I) : modInterval x I = x % I :=
  if_neg (by omega)

theorem ceilDivInterval_of_pos (x : Nat) {I : Nat} (hI : 0 < I) : ceilDivInterval x I = (x + I - 1) / I :=
  if_neg (by omega)

theorem State.alignment_of_pos {s : State} (M : Nat) (hI : 0 < s.liveSlot.interval) :
    s.alignment M =
      min M ((s.liveSlot.interval - s.liveSlot.cursor % s.liveSlot.interval) % s.liveSlot.interval) := by
  simp only [State.alignment, modInterval_of_pos _ hI, Slot.cursor]

theorem State.alignment_le (M : Nat) (s : State) : s.alignment M ≤ M := Nat.min_le_left _ _

/-- The alignment is at most the block length, so `a` holds it (R196). -/
theorem State.align_a_toNat (s : State) : s.align.rt.a.toNat = s.alignment s.rt.M.toNat := by
  have hle := s.alignment_le s.rt.M.toNat
  have hM := s.rt.M.isLt
  simp only [State.align, BitVec.toNat_ofNat]
  exact Nat.mod_eq_of_lt (by omega)

/-- Settles O34: with an interval of at least 1 both `mod`s are those of the integers. -/
theorem alignmentReachesTheNextInterval : Obligations.AlignmentReachesTheNextInterval := by
  unfold Obligations.AlignmentReachesTheNextInterval
  intro s r hr hK hKW I
  have hI : s.liveSlot.interval = I := interval_of_pos s.liveSlot.W hK
  have hpos : 0 < I := Nat.div_pos hKW hK
  have hcursor : s.liveSlot.cursor = r.pos := by
    rw [Slot.cursor, Slot.ring_of_getElem? (kind := .input) hr]
  have hvalue : s.alignment s.rt.M.toNat = min s.rt.M.toNat ((I - r.pos % I) % I) := by
    rw [State.alignment_of_pos _ (by rw [hI]; exact hpos), hI, hcursor]
  have ha : s.align.rt.a.toNat = min s.rt.M.toNat ((I - r.pos % I) % I) := by
    rw [State.align_a_toNat, hvalue]
  refine ⟨s.align, exec_schedAlign s, fun _ => rfl, by rw [← hvalue]; rfl, ha, ?_, ?_⟩
  · rw [ha]
    exact (Nat.min_le_right _ _).trans_lt (Nat.mod_lt _ hpos)
  · rw [ha]
    exact Nat.min_le_left _ _

/-! ## SCHED.IOSTEP (R194) -/

theorem exec_schedIoStep (s : State) : exec .schedIoStep s = .next (s.ioStep s.rt.off.toNat s.rt.n.toNat) := rfl

/-- A channel's rings after an I/O step (R194). -/
theorem State.ioSlot_rings {s : State} {off n m c : Nat} (hc : c < m) {ri rs ro : Ring}
    (hi : s.liveSlot.inr[c]? = some ri) (hs : s.liveSlot.sidr[c]? = some rs) (ho : s.liveSlot.outr[c]? = some ro) :
    (s.ioSlot off n m).inr[c]? = some (ri.write (s.samples .input c off n) n) ∧
      (s.scEff = true → (s.ioSlot off n m).sidr[c]? = some (rs.write (s.samples .sidechain c off n) n)) ∧
      (s.ioSlot off n m).outr[c]? = some (ro.drain n true) := by
  refine ⟨?_, fun hsc => ?_, ?_⟩
  · simp only [State.ioSlot, firstRings_getElem?, hi, Option.map_some, if_pos hc]
  · simp only [State.ioSlot, if_pos hsc, firstRings_getElem?, hs, Option.map_some, if_pos hc]
  · simp only [State.ioSlot, firstRings_getElem?, ho, Option.map_some, if_pos hc]

/-- What an I/O step puts into OUT: the ring's oldest samples once `count` has reached K, else silence (R194). -/
theorem State.ioOutput_elem {s : State} {n c i : Nat} {ro : Ring} (ho : s.liveSlot.outr[c]? = some ro)
    (hsize : ro.Sized s.liveSlot.W) (hn : n ≤ s.liveSlot.W) (hi : i < n) :
    elemAt (s.ioOutput n c) i =
      if s.liveSlot.K ≤ s.liveSlot.count.toNat then elemAt ro.data ((ro.rpos + i) % s.liveSlot.W) else fZero := by
  obtain ⟨hcap, hlen⟩ := hsize
  have hring : s.liveSlot.ring .output c = ro := Slot.ring_of_getElem? (kind := .output) ho
  unfold State.ioOutput
  split_ifs
  · rw [hring, Ring.drained_elem ro n true (by omega) (by omega) hi, hcap]
  · exact elemAt_replicate hi

/-- Settles O35, from what the loop over the channels has done. -/
theorem ioStepWritesInputAndDrainsOutput : Obligations.IoStepWritesInputAndDrainsOutput := by
  unfold Obligations.IoStepWritesInputAndDrainsOutput
  intro s nch hbuilt hn off n
  have hdone := State.ioStep_done off n s
  rw [hbuilt.nch_eq] at hdone
  have hshape := State.built_ioSlot hbuilt off n
  refine ⟨(s.ioSlot off n nch).inr, (s.ioSlot off n nch).sidr, (s.ioSlot off n nch).outr, s.ioStep off n,
    exec_schedIoStep s, hdone.state_eq, hshape.inr_length, hshape.sidr_length, hshape.outr_length,
    fun hoff => ?sidechain, fun c hc => ?channel, hdone.kept⟩
  case sidechain =>
    simp only [State.ioSlot, hoff, Bool.false_eq_true, if_false]
  case channel =>
    obtain ⟨ri, hri, -⟩ := hbuilt.ring_input hc
    obtain ⟨rs, hrs, -⟩ := hbuilt.ring_sidechain hc
    obtain ⟨ro, hro, hsize, -⟩ := hbuilt.ring_output hc
    obtain ⟨hinr, hsidr, houtr⟩ := State.ioSlot_rings (off := off) (n := n) hc hri hrs hro
    refine ⟨ri, rs, ro, hri, hrs, hro, hinr, hsidr, houtr, fun i hi he => ?_⟩
    rw [hdone.written c hc i hi he, State.ioOutput_elem hro hsize hn hi]

/-! ## SCHED.ZFILL (R193) -/

theorem exec_schedZfill (s : State) : exec .schedZfill s = .next (s.zeroFill s.rt.M.toNat) := rfl

/-- Settles O36: a sample that exists lies in one of the channels the loop fills. -/
theorem surplusChannelsAreZeroFilled : Obligations.SurplusChannelsAreZeroFilled := by
  unfold Obligations.SurplusChannelsAreZeroFilled
  intro s
  have hdone := State.zeroFill_done s.rt.M.toNat s
  refine ⟨_, exec_schedZfill s, hdone.state_eq, fun c i hc hi he => hdone.written c i hc ?_ hi he, hdone.kept⟩
  simp only [sampleExists, Bool.and_eq_true, decide_eq_true_eq] at he
  omega

/-! ## SCHED.CHECK (R198) -/

theorem exec_schedCheck (s : State) : exec .schedCheck s = .next s.checkConsumed := rfl

theorem State.checkConsumed_of_eq {s : State} (h : s.rt.off = s.rt.M) : s.checkConsumed = s :=
  if_neg (not_not.mpr h)

theorem State.checkConsumed_of_ne {s : State} (h : s.rt.off ≠ s.rt.M) : s.checkConsumed = s.raise .assert :=
  if_pos h

/-- Settles O37: the mismatch is the one place that raises Assert. -/
theorem checkRaisesAssertOnlyOnMismatch : Obligations.CheckRaisesAssertOnlyOnMismatch := by
  unfold Obligations.CheckRaisesAssertOnlyOnMismatch
  intro s
  refine ⟨fun h => ?_, fun h => ⟨s.raise .assert, ?_, rfl, fun hd => ?_⟩⟩
  · rw [exec_schedCheck, State.checkConsumed_of_eq h]
  · rw [exec_schedCheck, State.checkConsumed_of_ne h]
  · have hmem : (s.raise .assert).mem = s.mem := by
      rw [State.raise_assert_eq]
      simp only [State.endBlock_mem, hd]
      rfl
    exact State.byteAt_congr hmem (State.raise_epoch .assert s)

/-! ## The lines of RT's program (R190, R199)

One equation for each line, so that no later proof unfolds `State.rtStep`. -/

section
variable {s : State}

theorem State.rtStep_idle (h : s.rt.pc = .idle) : s.rtStep = s := by simp only [State.rtStep, h]

theorem State.rtStep_fetch (h : s.rt.pc = .fetch) : s.rtStep = s.rtFetch := by simp only [State.rtStep, h]

theorem State.rtStep_sampleSc (h : s.rt.pc = .sampleSc) : s.rtStep = s.rtSampleSc := by simp only [State.rtStep, h]

theorem State.rtStep_flagCas (h : s.rt.pc = .flagCas) : s.rtStep = s.rtFlagCas := by simp only [State.rtStep, h]

theorem State.rtStep_updOverlap (h : s.rt.pc = .updOverlap) : s.rtStep = s.rtUpdOverlap := by
  simp only [State.rtStep, h]

theorem State.rtStep_updRatio (h : s.rt.pc = .updRatio) : s.rtStep = s.rtUpdRatio := by simp only [State.rtStep, h]

theorem State.rtStep_updAttack (h : s.rt.pc = .updAttack) : s.rtStep = s.rtUpdAttack := by simp only [State.rtStep, h]

theorem State.rtStep_updRelease (h : s.rt.pc = .updRelease) : s.rtStep = s.rtUpdRelease := by
  simp only [State.rtStep, h]

theorem State.rtStep_updCurve (h : s.rt.pc = .updCurve) : s.rtStep = s.rtUpdCurve := by simp only [State.rtStep, h]

theorem State.rtStep_updGain (h : s.rt.pc = .updGain) : s.rtStep = s.rtUpdGain := by simp only [State.rtStep, h]

theorem State.rtStep_zfill (h : s.rt.pc = .zfill) : s.rtStep = s.rtZfill := by simp only [State.rtStep, h]

theorem State.rtStep_align (h : s.rt.pc = .align) : s.rtStep = s.rtAlign := by simp only [State.rtStep, h]

theorem State.rtStep_firstIo (h : s.rt.pc = .firstIo) : s.rtStep = s.rtFirstIo := by simp only [State.rtStep, h]

theorem State.rtStep_windows (h : s.rt.pc = .windows) : s.rtStep = s.rtWindows := by simp only [State.rtStep, h]

theorem State.rtStep_cycle (h : s.rt.pc = .cycle) : s.rtStep = s.rtCycle := by simp only [State.rtStep, h]

theorem State.rtStep_loopIo (h : s.rt.pc = .loopIo) : s.rtStep = s.rtLoopIo := by simp only [State.rtStep, h]

theorem State.rtStep_check (h : s.rt.pc = .check) : s.rtStep = s.rtCheck := by simp only [State.rtStep, h]

/-- Line 7 is skipped when neither the flag nor a swap asks for it (R190). -/
theorem State.rtUpdOverlap_skipped (hc : s.rt.changed = false) (hs : s.rt.swapped = false) :
    s.rtUpdOverlap = s.goto .zfill := by
  simp only [State.rtUpdOverlap, hc, hs, Bool.or_self, Bool.false_eq_true, if_false]

/-- Line 7 begins with the copy of the overlap factor (R210, R213). -/
theorem State.rtUpdOverlap_taken (h : (s.rt.changed || s.rt.swapped) = true) :
    s.rtUpdOverlap = s.copyOverlap.goto .updRatio := by
  simp only [State.rtUpdOverlap, h, if_true]

/-- A pass of line 12 runs the cycle of the program (R190, R199). -/
theorem State.rtCycle_pass (h : s.rt.k.toNat < s.rt.nwin.toNat) :
    s.rtCycle = State.goto .loopIo (if s.rt.bypass then s.bypassCycle else s.stftCycle) :=
  if_pos h

theorem State.rtCycle_done (h : s.rt.nwin.toNat ≤ s.rt.k.toNat) : s.rtCycle = s.goto .check :=
  if_neg (by omega)

/-- The line of the windows, where the interval is not 0 (R197). -/
theorem State.rtWindows_of_pos (hI : 0 < s.liveSlot.interval) :
    s.rtWindows =
      { s with rt := { s.rt with
          pc := .cycle, k := 0#32
          nwin := BitVec.ofNat 32
            ((s.rt.M.toNat - s.rt.a.toNat + s.liveSlot.interval - 1) / s.liveSlot.interval) } } := by
  simp only [State.rtWindows, ceilDivInterval_of_pos _ hI]
  rfl

end

/-! ## Block commands (R190 lines 1 to 3, R199) -/

theorem exec_process (M : Nat) (s : State) : exec (.process M) s = acceptBlock false M s := rfl

theorem exec_processBypassed (M : Nat) (s : State) : exec (.processBypassed M) s = acceptBlock true M s := rfl

theorem State.blockError_eq_none {s : State} {M : Nat} (hb : s.rtBusy = false) (hp : s.runState = .prepared)
    (hM : M ≤ s.latch.maxBlock.toNat) : s.blockError M = none := by
  simp only [State.blockError, hb, hp, Bool.false_eq_true, if_false, ne_eq, not_true_eq_false, Nat.not_lt.mpr hM]

/-- A block command that passes its checks starts RT's program and does nothing else (R190). -/
theorem acceptBlock_accepted {s : State} {M : Nat} (hb : s.rtBusy = false) (hp : s.runState = .prepared)
    (hM : M ≤ s.latch.maxBlock.toNat) (bypass : Bool) : acceptBlock bypass M s = .next (s.startBlock bypass M) := by
  simp only [acceptBlock, State.blockError_eq_none hb hp hM]

theorem exec_cfgFetch (s : State) : exec .cfgFetch s = .next s.fetch := rfl

theorem exec_setFlagCas (s : State) : exec .setFlagCas s = .next s.flagCas := rfl

/-- The cycle of the program that runs (R190, R199). -/
theorem exec_blockCycle (bypass : Bool) (s : State) :
    exec (if bypass then .bypCycle else .stftCycle) s = .next (if bypass then s.bypassCycle else s.stftCycle) := by
  cases bypass <;> rfl

/-- SCHED.IOSTEP with RT's registers set first is RT's I/O step before it records what it moved (R194). -/
theorem exec_schedIoStep_regs (s : State) (r : RtRegs) :
    exec .schedIoStep { s with rt := r } = .next { s.ioStep r.off.toNat r.n.toNat with rt := r } := by
  rw [exec_schedIoStep, State.ioStep_rt]

/-- An I/O step by itself leaves RT's registers (R194). -/
theorem State.ioStep_regs (off n : Nat) (s : State) : (s.ioStep off n).rt = s.rt := by
  rw [(State.ioStep_done off n s).state_eq]
  rfl

/-- Line 10 is SCHED.IOSTEP on the `a` samples from 0 (R190). -/
theorem State.rtFirstIo_eq (s : State) :
    s.rtFirstIo =
      { s.ioStep 0 s.rt.a.toNat with rt := { s.rt with pc := .windows, off := s.rt.a, n := s.rt.a } } := by
  simp only [State.rtFirstIo, State.rtIo, State.goto, State.ioStep_regs, Nat.zero_add, BitVec.ofNat_toNat,
    BitVec.setWidth_eq]

/-- The I/O step of a pass is SCHED.IOSTEP on `n` samples from `off`, then the next pass (R190). -/
theorem State.rtLoopIo_eq {s : State} {n : Word}
    (hn : n.toNat = min s.liveSlot.interval (s.rt.M.toNat - s.rt.off.toNat)) :
    s.rtLoopIo =
      { s.ioStep s.rt.off.toNat n.toNat with
        rt := { s.rt with pc := .cycle, n := n, off := s.rt.off + n, k := s.rt.k + 1#32 } } := by
  have hoff : BitVec.ofNat 32 (s.rt.off.toNat + n.toNat) = s.rt.off + n := by
    rw [BitVec.ofNat_add, BitVec.ofNat_toNat, BitVec.ofNat_toNat, BitVec.setWidth_eq, BitVec.setWidth_eq]
  simp only [State.rtLoopIo, ← hn, State.rtIo, State.goto, State.ioStep_regs, hoff, BitVec.ofNat_toNat,
    BitVec.setWidth_eq]

/-- The samples of a pass fit RT's register `n` (R197). -/
theorem State.exists_passLength (s : State) :
    ∃ n : Word, n.toNat = min s.liveSlot.interval (s.rt.M.toNat - s.rt.off.toNat) := by
  have hM := s.rt.M.isLt
  refine ⟨BitVec.ofNat 32 (min s.liveSlot.interval (s.rt.M.toNat - s.rt.off.toNat)), ?_⟩
  rw [BitVec.toNat_ofNat]
  exact Nat.mod_eq_of_lt (by omega)

/-- Settles O11: the acceptance, then the equation of each line beside its micro-operation's. -/
theorem blockCommandStarts : Obligations.BlockCommandStarts := by
  unfold Obligations.BlockCommandStarts
  intro s
  refine ⟨fun M hb hp hM => ⟨?process, ?bypassed⟩, State.rtStep_idle, fun h => ⟨_, exec_cfgFetch s, ?fetch⟩,
    State.rtStep_sampleSc, fun h => ⟨_, exec_setFlagCas s, ?flag⟩, fun h hc hs => ?skip,
    fun h => ⟨_, exec_schedZfill s, ?zfill⟩, fun h => ⟨_, exec_schedAlign s, ?align⟩,
    fun h => ⟨_, exec_schedIoStep_regs s _, ?firstIo⟩, fun h _ hI => ?windows,
    fun h hk => ⟨_, exec_blockCycle s.rt.bypass s, ?pass⟩, fun h hk => ?done, fun h _ => ?loopIo,
    fun h => ⟨_, exec_schedCheck s, ?check⟩⟩
  case process => exact ⟨_, (exec_process M s).trans (acceptBlock_accepted hb hp hM false), fun _ => rfl, rfl⟩
  case bypassed => exact ⟨_, (exec_processBypassed M s).trans (acceptBlock_accepted hb hp hM true), fun _ => rfl, rfl⟩
  case fetch => exact State.rtStep_fetch h
  case flag => exact State.rtStep_flagCas h
  case skip => exact (State.rtStep_updOverlap h).trans (State.rtUpdOverlap_skipped hc hs)
  case zfill => exact State.rtStep_zfill h
  case align => exact State.rtStep_align h
  case firstIo => exact (State.rtStep_firstIo h).trans s.rtFirstIo_eq
  case windows => exact (State.rtStep_windows h).trans (State.rtWindows_of_pos hI)
  case pass => exact (State.rtStep_cycle h).trans (State.rtCycle_pass hk)
  case done => exact (State.rtStep_cycle h).trans (State.rtCycle_done hk)
  case loopIo =>
    obtain ⟨n, hn⟩ := s.exists_passLength
    exact ⟨n, _, hn, exec_schedIoStep_regs s _, (State.rtStep_loopIo h).trans (State.rtLoopIo_eq hn)⟩
  case check => exact State.rtStep_check h

/-! ## What RT has consumed at each line (R196 to R198) -/

/-- The lines before which something is asked of RT's counters. -/
def RtPc.counting : List RtPc := [.firstIo, .windows, .cycle, .loopIo, .check]

/-- The counters of line 12: `off` samples are moved by the alignment and `k` passes, of the `nwin` that use up the
block (R190, R196, R197). -/
structure State.AtPass (s : State) : Prop where
  aligned : s.rt.a.toNat ≤ s.rt.M.toNat
  moved : s.rt.off.toNat = min s.rt.M.toNat (s.rt.a.toNat + s.rt.k.toNat * s.liveSlot.interval)
  passes : s.rt.nwin.toNat =
    (s.rt.M.toNat - s.rt.a.toNat + s.liveSlot.interval - 1) / s.liveSlot.interval

section
variable {s t : State}

theorem State.consumed_of_not_counting (h : s.rt.pc ∉ RtPc.counting) : s.Consumed := by
  unfold State.Consumed
  cases hpc : s.rt.pc with
  | firstIo => exact absurd (by rw [hpc]; decide) h
  | windows => exact absurd (by rw [hpc]; decide) h
  | cycle => exact absurd (by rw [hpc]; decide) h
  | loopIo => exact absurd (by rw [hpc]; decide) h
  | check => exact absurd (by rw [hpc]; decide) h
  | _ => trivial

/-- Nothing is asked before most lines. -/
theorem State.consumed_goto {pc : RtPc} (hpc : pc ∉ RtPc.counting) (s : State) : (s.goto pc).Consumed :=
  State.consumed_of_not_counting hpc

theorem State.consumed_of_idle (h : s.rt.pc = .idle) : s.Consumed :=
  State.consumed_of_not_counting (by rw [h]; decide)

theorem State.consumed_firstIo (h : s.rt.pc = .firstIo) : s.Consumed ↔ s.rt.a.toNat ≤ s.rt.M.toNat := by
  simp only [State.Consumed, h]

theorem State.consumed_windows (h : s.rt.pc = .windows) :
    s.Consumed ↔ s.rt.a.toNat ≤ s.rt.M.toNat ∧ s.rt.off.toNat = s.rt.a.toNat := by
  simp only [State.Consumed, h]

theorem State.consumed_cycle (h : s.rt.pc = .cycle) :
    s.Consumed ↔ s.AtPass ∧ s.rt.k.toNat ≤ s.rt.nwin.toNat := by
  simp only [State.Consumed, h]
  exact ⟨fun ⟨ha, hoff, hk, hn⟩ => ⟨⟨ha, hoff, hn⟩, hk⟩, fun ⟨⟨ha, hoff, hn⟩, hk⟩ => ⟨ha, hoff, hk, hn⟩⟩

theorem State.consumed_loopIo (h : s.rt.pc = .loopIo) :
    s.Consumed ↔ s.AtPass ∧ s.rt.k.toNat < s.rt.nwin.toNat := by
  simp only [State.Consumed, h]
  exact ⟨fun ⟨ha, hoff, hk, hn⟩ => ⟨⟨ha, hoff, hn⟩, hk⟩, fun ⟨⟨ha, hoff, hn⟩, hk⟩ => ⟨ha, hoff, hk, hn⟩⟩

theorem State.consumed_check (h : s.rt.pc = .check) : s.Consumed ↔ s.rt.off = s.rt.M := by
  simp only [State.Consumed, h]
  exact BitVec.toNat_inj

/-- `ceil(x / I)` passes of `I` use up `x` samples, and are no more than `x` (R197). -/
theorem le_ceilDiv_mul {x I : Nat} (hI : 0 < I) : x ≤ (x + I - 1) / I * I ∧ (x + I - 1) / I ≤ x := by
  constructor
  · have hdiv := Nat.div_add_mod (x + I - 1) I
    have hmod := Nat.mod_lt (x + I - 1) hI
    rw [Nat.mul_comm] at hdiv
    omega
  · have hx : x ≤ x * I := Nat.le_mul_of_pos_right x hI
    have hlt : (x + I - 1) / I < x + 1 := by
      rw [Nat.div_lt_iff_lt_mul hI, Nat.succ_mul]
      omega
    omega

/-- After the last pass the whole block is moved (R198). -/
theorem State.AtPass.complete (h : s.AtPass) (hI : 0 < s.liveSlot.interval) (hk : s.rt.k.toNat = s.rt.nwin.toNat) :
    s.rt.off = s.rt.M := by
  have hmoved := h.moved
  have haligned := h.aligned
  have hceil := (le_ceilDiv_mul (x := s.rt.M.toNat - s.rt.a.toNat) hI).1
  rw [← h.passes, ← hk] at hceil
  exact BitVec.eq_of_toNat_eq (by omega)

/-- An operation on the live slot leaves the counters of line 12. -/
theorem State.AtPass.of_engineKeeps (h : s.AtPass) (k : EngineKeeps s t) : t.AtPass := by
  obtain ⟨-, hM, ha, hoff, hnwin, hk⟩ := k.counters
  have hI : t.liveSlot.interval = s.liveSlot.interval := by
    unfold Slot.interval
    rw [k.window, k.overlap]
  refine ⟨?_, ?_, ?_⟩
  · rw [ha, hM]; exact h.aligned
  · rw [hoff, hM, ha, hk, hI]; exact h.moved
  · rw [hnwin, hM, ha, hI]; exact h.passes

/-- The cycle of the program works on the live slot alone (R170, R182). -/
theorem State.blockCycle_keeps (s : State) : EngineKeeps s (if s.rt.bypass then s.bypassCycle else s.stftCycle) := by
  split_ifs
  · exact State.bypassCycle_keeps s
  · exact State.stftCycle_keeps s

theorem State.ioStep_interval (off n : Nat) (s : State) :
    (s.ioStep off n).liveSlot.interval = s.liveSlot.interval := by
  unfold Slot.interval
  rw [(State.ioStep_rtKeeps off n s).window, State.ioStep_overlap]

/-- After line 9 the alignment is at most the block length (R196). -/
theorem State.consumed_rtAlign (s : State) : s.rtAlign.Consumed := by
  refine (State.consumed_firstIo rfl).mpr ?_
  have ha : s.rtAlign.rt.a.toNat = s.alignment s.rt.M.toNat := s.align_a_toNat
  rw [ha]
  exact s.alignment_le s.rt.M.toNat

/-- Line 10 moves the samples of the alignment. -/
theorem State.consumed_rtFirstIo (h : s.rt.a.toNat ≤ s.rt.M.toNat) : s.rtFirstIo.Consumed := by
  rw [State.rtFirstIo_eq]
  exact (State.consumed_windows rfl).mpr ⟨h, rfl⟩

/-- Line 11 counts the passes that use up the rest of the block (R197). -/
theorem State.consumed_rtWindows (ha : s.rt.a.toNat ≤ s.rt.M.toNat) (hoff : s.rt.off.toNat = s.rt.a.toNat)
    (hI : 0 < s.liveSlot.interval) : s.rtWindows.Consumed := by
  have hfew := (le_ceilDiv_mul (x := s.rt.M.toNat - s.rt.a.toNat) hI).2
  have hM := s.rt.M.isLt
  rw [State.rtWindows_of_pos hI]
  refine (State.consumed_cycle rfl).mpr ⟨⟨ha, ?_, ?_⟩, Nat.zero_le _⟩
  · show s.rt.off.toNat = min s.rt.M.toNat (s.rt.a.toNat + 0 * s.liveSlot.interval)
    omega
  · show (BitVec.ofNat 32 _).toNat = _
    rw [BitVec.toNat_ofNat]
    exact Nat.mod_eq_of_lt (by omega)

/-- The loop test of line 12, and the cycle, move no sample. -/
theorem State.consumed_rtCycle (h : s.AtPass) (hk : s.rt.k.toNat ≤ s.rt.nwin.toNat) (hI : 0 < s.liveSlot.interval) :
    s.rtCycle.Consumed := by
  by_cases hpass : s.rt.k.toNat < s.rt.nwin.toNat
  · rw [State.rtCycle_pass hpass]
    have hkeeps := s.blockCycle_keeps
    obtain ⟨-, -, -, -, hnwin, hkk⟩ := hkeeps.counters
    have hat := h.of_engineKeeps hkeeps
    refine (State.consumed_loopIo rfl).mpr ⟨⟨hat.aligned, hat.moved, hat.passes⟩, ?_⟩
    simp only [State.goto_rt, hnwin, hkk]
    exact hpass
  · rw [State.rtCycle_done (by omega)]
    exact (State.consumed_check rfl).mpr (h.complete hI (by omega))

/-- The sample offset does not overflow in a pass, as the block length bounds it. -/
theorem State.passOffset_toNat {n : Word} (hn : n.toNat = min s.liveSlot.interval (s.rt.M.toNat - s.rt.off.toNat))
    (hoff : s.rt.off.toNat ≤ s.rt.M.toNat) : (s.rt.off + n).toNat = s.rt.off.toNat + n.toNat := by
  have hM := s.rt.M.isLt
  rw [BitVec.toNat_add]
  exact Nat.mod_eq_of_lt (by omega)

/-- The cycle index does not overflow in a pass, as the number of cycles bounds it. -/
theorem State.passIndex_toNat (hk : s.rt.k.toNat < s.rt.nwin.toNat) : (s.rt.k + 1#32).toNat = s.rt.k.toNat + 1 := by
  have hnwin := s.rt.nwin.isLt
  rw [BitVec.toNat_add]
  exact Nat.mod_eq_of_lt (by simp only [BitVec.toNat_ofNat]; omega)

theorem State.AtPass.off_le (h : s.AtPass) : s.rt.off.toNat ≤ s.rt.M.toNat := by
  rw [h.moved]
  exact Nat.min_le_left _ _

/-- The I/O step of a pass moves the samples of one interval, or what is left of the block (R190). -/
theorem State.consumed_rtLoopIo (h : s.AtPass) (hk : s.rt.k.toNat < s.rt.nwin.toNat) : s.rtLoopIo.Consumed := by
  obtain ⟨n, hn⟩ := s.exists_passLength
  have hoff := State.passOffset_toNat hn h.off_le
  have hnext := State.passIndex_toNat hk
  obtain ⟨haligned, hmoved, hpasses⟩ := h
  have hI : (s.ioStep s.rt.off.toNat n.toNat).liveSlot.interval = s.liveSlot.interval := State.ioStep_interval _ _ s
  rw [State.rtLoopIo_eq hn]
  refine (State.consumed_cycle rfl).mpr ⟨⟨haligned, ?_, ?_⟩, ?_⟩
  · show (s.rt.off + n).toNat = min s.rt.M.toNat (s.rt.a.toNat + (s.rt.k + 1#32).toNat *
      (s.ioStep s.rt.off.toNat n.toNat).liveSlot.interval)
    rw [hoff, hnext, hI, Nat.succ_mul]
    omega
  · show s.rt.nwin.toNat = (s.rt.M.toNat - s.rt.a.toNat +
      (s.ioStep s.rt.off.toNat n.toNat).liveSlot.interval - 1) / (s.ioStep s.rt.off.toNat n.toNat).liveSlot.interval
    rw [hI]
    exact hpasses
  · show (s.rt.k + 1#32).toNat ≤ s.rt.nwin.toNat
    omega

/-- With an interval that is not 0, every step of RT keeps the account of what it has consumed. -/
theorem State.Consumed.rtStep (h : s.Consumed) (hI : s.rt.pc ≠ .idle → 0 < s.liveSlot.interval) :
    s.rtStep.Consumed := by
  cases hpc : s.rt.pc with
  | idle =>
    rw [State.rtStep_idle hpc]
    exact h
  | align =>
    rw [State.rtStep_align hpc]
    exact s.consumed_rtAlign
  | firstIo =>
    rw [State.rtStep_firstIo hpc]
    exact State.consumed_rtFirstIo ((State.consumed_firstIo hpc).mp h)
  | windows =>
    obtain ⟨ha, hoff⟩ := (State.consumed_windows hpc).mp h
    rw [State.rtStep_windows hpc]
    exact State.consumed_rtWindows ha hoff (hI (by rw [hpc]; decide))
  | cycle =>
    obtain ⟨hat, hk⟩ := (State.consumed_cycle hpc).mp h
    rw [State.rtStep_cycle hpc]
    exact State.consumed_rtCycle hat hk (hI (by rw [hpc]; decide))
  | loopIo =>
    obtain ⟨hat, hk⟩ := (State.consumed_loopIo hpc).mp h
    rw [State.rtStep_loopIo hpc]
    exact State.consumed_rtLoopIo hat hk
  | check =>
    rw [State.rtStep_check hpc]
    exact State.consumed_of_idle rfl
  | updOverlap =>
    rw [State.rtStep_updOverlap hpc]
    unfold State.rtUpdOverlap
    split_ifs <;> exact State.consumed_goto (by decide) _
  | _ =>
    simp only [State.rtStep, hpc]
    exact State.consumed_goto (by decide) _

/-- The check finds nothing to raise where the block is consumed (R198). -/
theorem State.rtCheck_of_consumed (h : s.Consumed) (hpc : s.rt.pc = .check) : s.rtCheck = s.endBlock := by
  unfold State.rtCheck
  rw [State.checkConsumed_of_eq ((State.consumed_check hpc).mp h)]

end

/-! ## What RT's lines leave of the rest of the machine (R57) -/

section
variable {s t : State}

theorem RtKeeps.csr_eq (k : RtKeeps s t) : t.csr = s.csr := by rw [k.state_eq]; rfl

theorem RtKeeps.err_eq (k : RtKeeps s t) : t.err = s.err := by rw [k.state_eq]; rfl

theorem RtKeeps.runState_eq (k : RtKeeps s t) : t.runState = s.runState := by rw [k.state_eq]; rfl

theorem RtKeeps.ready_eq (k : RtKeeps s t) : t.ready = s.ready := by rw [k.state_eq]; rfl

theorem RtKeeps.bg_eq (k : RtKeeps s t) : t.bg = s.bg := by rw [k.state_eq]; rfl

theorem RtKeeps.agenda_eq (k : RtKeeps s t) : t.agenda = s.agenda := by rw [k.state_eq]; rfl

/-- What the fetch leaves: the slot the block runs on, RT's note of the swap, and what stays (R191, R235). -/
structure Fetched (s t : State) : Prop where
  regs : t.rt = { s.rt with pc := .sampleSc, swapped := s.ready }
  ready : t.ready = false
  live : t.live = if s.ready then s.live.other else s.live
  slot : t.liveSlot = if s.ready then s.spareSlot else s.liveSlot
  spare : s.ready = false → t.spareSlot = s.spareSlot
  err : t.err = s.err
  csr : t.csr = s.csr
  runState : t.runState = s.runState
  settingsChanged : t.settingsChanged = s.settingsChanged
  bg : t.bg = s.bg
  agenda : t.agenda = s.agenda

theorem State.rtFetch_fetched (s : State) : Fetched s s.rtFetch := by
  cases hr : s.ready with
  | false =>
    rw [State.rtFetch, State.fetch_unpublished s hr]
    exact ⟨by rw [hr]; rfl, hr, by rw [hr]; rfl, by rw [hr]; rfl, fun _ => rfl, rfl, rfl, rfl, rfl, rfl, rfl⟩
  | true =>
    obtain ⟨-, hslot, -, -⟩ := State.fetch_published s hr
    have hfetch : s.fetch = { s.setSlot s.live { s.liveSlot with status := .retired } with
        live := s.live.other, ready := false, rt := { s.rt with swapped := true } } := if_pos hr
    rw [hfetch] at hslot
    rw [State.rtFetch, hfetch]
    exact ⟨by rw [hr]; rfl, rfl, by rw [hr]; rfl, by rw [hr]; exact hslot,
      fun hx => absurd (hr.symm.trans hx) (by decide), rfl, rfl, rfl, rfl, rfl, rfl⟩

/-! ## The declared ranges under RT and BG (R10) -/

theorem InRange.withOverlap {W K V L : Nat} (h : InRange W K) (h' : InRange V L) : InRange W L :=
  ⟨h.window_ge, h'.overlap_ge, h'.overlap_le⟩

/-- RT's lines keep the ranges: of the overlap factors they bring only OVERLAP_FACTOR's into force (R213). -/
theorem State.Ranged.of_rtKeeps (h : s.Ranged) (k : RtKeeps s t)
    (hK : t.liveSlot.K = s.liveSlot.K ∨ t.liveSlot.K = s.csr.overlapFactor.toNat) : t.Ranged where
  csr_range := by
    rw [k.csr_eq]
    exact h.csr_range
  live_range hu := by
    rw [k.runState_eq] at hu
    rw [k.window]
    rcases hK with hK | hK
    · rw [hK]
      exact h.live_range hu
    · rw [hK]
      exact (h.live_range hu).withOverlap h.csr_range
  bg_range := by
    rw [k.bg_eq]
    exact h.bg_range
  spare_range := by
    rw [k.ready_eq, k.bg_eq, k.live_spareSlot.2]
    exact h.spare_range
  schedule_range := by
    rw [k.agenda_eq]
    exact h.schedule_range

/-- The fetch takes live only a published slot, whose size and overlap factor are in range (R235). -/
theorem State.Ranged.rtFetch (h : s.Ranged) (hs : s.Sound) : s.rtFetch.Ranged := by
  have k := s.rtFetch_fetched
  refine ⟨?csr, fun hu => ?live, ?bg, fun hx => ?spare, ?schedule⟩
  case csr =>
    rw [k.csr]
    exact h.csr_range
  case live =>
    rw [k.runState] at hu
    rw [k.slot]
    split_ifs with hr
    · exact h.spare_range (.inl hr)
    · exact h.live_range hu
  case bg =>
    rw [k.bg]
    exact h.bg_range
  case spare =>
    rw [k.ready, k.bg] at hx
    have hpublish : s.bg.pc = .publish := hx.resolve_left (by decide)
    rw [k.spare (hs.ready_of_rebuilding (by rw [hpublish]; decide))]
    exact h.spare_range (.inr hpublish)
  case schedule =>
    rw [k.agenda]
    exact h.schedule_range

theorem State.Ranged.rtStep (h : s.Ranged) (hs : s.Sound) (hc : s.Consumed) : s.rtStep.Ranged := by
  by_cases hfetch : s.rt.pc = .fetch
  · rw [State.rtStep_fetch hfetch]
    exact h.rtFetch hs
  by_cases hcheck : s.rt.pc = .check
  · rw [State.rtStep_check hcheck, State.rtCheck_of_consumed hc hcheck]
    exact { h with }
  · exact h.of_rtKeeps (State.rtStep_rtKeeps s hfetch hcheck) ((State.rtStep_overlap s hfetch).imp_right And.right)

/-- BG rebuilds with the order and the overlap factor it latched from HOST's registers (R232, R233). -/
theorem State.Ranged.bgStep (h : s.Ranged) (hs : s.Sound) : s.bgStep.Ranged := by
  unfold State.bgStep
  cases hpc : s.bg.pc with
  | idle =>
    simp only
    split_ifs with hclaim
    · exact { h with
        bg_range := fun _ => h.csr_range
        spare_range := fun hx => by rcases hx with hx | hx <;> cases hx }
    · unfold State.retire
      split_ifs
      · exact { h with
          live_range := fun hu => by
            rw [State.liveSlot_setSlot_spare]
            exact h.live_range hu
          spare_range := fun hx => by
            rw [State.spareSlot_setSlot_spare]
            exact h.spare_range hx }
      · exact h
  | stage =>
    obtain ⟨htarget, -⟩ := hs.target_spare (by rw [hpc]; decide)
    have hstage : s.stage = s.setSlot s.live.other
        (Slot.build s.params (2 ^ s.bg.ordL.toNat) s.bg.kL.toNat s.latch.nch.toNat) := by rw [← htarget]; rfl
    simp only
    rw [hstage]
    exact { h with
      live_range := fun hu => by
        rw [State.liveSlot_bgGoto, State.liveSlot_setSlot_spare]
        exact h.live_range hu
      bg_range := fun hx => by cases hx
      spare_range := fun _ => by
        rw [State.spareSlot_bgGoto, State.spareSlot_setSlot_spare]
        exact h.bg_range hpc }
  | publish =>
    exact { h with
      bg_range := fun hx => by cases hx
      spare_range := fun _ => h.spare_range (.inr hpc) }

/-! ## The invariant of a run in the declared ranges (R10, R198) -/

/-- A sound state, in its ranges, whose running block has consumed what its line says. -/
structure State.InOrder (s : State) : Prop where
  sound : s.Sound
  ranged : s.Ranged
  consumed : s.Consumed

/-- What a step owes beside soundness: the ranges, the block's account, and no Assert. -/
structure OrderKept (s t : State) : Prop where
  ranged : t.Ranged
  consumed : t.Consumed
  not_fatal : s.runState ≠ .fatal → t.runState ≠ .fatal

/-- An outcome keeps the order when it is a next state that does. -/
def OrderNext (s : State) (o : Host.Outcome State Fault Refusal) : Prop := ∀ t, o = .next t → OrderKept s t

theorem orderNext_next (h : OrderKept s t) : OrderNext s (.next t) := by
  intro u hu
  cases hu
  exact h

theorem State.InOrder.refl (h : s.InOrder) : OrderKept s s := ⟨h.ranged, h.consumed, id⟩

/-- While RT runs the interval is not 0. -/
theorem State.InOrder.interval_pos (h : s.InOrder) (hpc : s.rt.pc ≠ .idle) : 0 < s.liveSlot.interval := by
  obtain ⟨-, hp⟩ := h.sound.rt_prepared hpc
  exact (h.ranged.live_range (by rw [hp]; decide)).interval_pos

/-- RT never enters FATAL, as its check finds the block consumed (R198). -/
theorem State.Consumed.rtStep_runState (h : s.Consumed) : s.rtStep.runState = s.runState := by
  by_cases hfetch : s.rt.pc = .fetch
  · rw [State.rtStep_fetch hfetch, s.rtFetch_fetched.runState]
  by_cases hcheck : s.rt.pc = .check
  · rw [State.rtStep_check hcheck, State.rtCheck_of_consumed h hcheck, State.endBlock_runState]
  · exact (State.rtStep_rtKeeps s hfetch hcheck).runState_eq

theorem State.InOrder.rtStep_orderKept (h : s.InOrder) : OrderKept s s.rtStep where
  ranged := h.ranged.rtStep h.sound h.consumed
  consumed := h.consumed.rtStep h.interval_pos
  not_fatal hf := by rw [h.consumed.rtStep_runState]; exact hf

theorem State.InOrder.rtStep (h : s.InOrder) : s.rtStep.InOrder :=
  ⟨h.sound.rtStep, h.rtStep_orderKept.ranged, h.rtStep_orderKept.consumed⟩

/-- BG touches neither the live slot nor RT. -/
theorem State.InOrder.bgStep_orderKept (h : s.InOrder) : OrderKept s s.bgStep where
  ranged := h.ranged.bgStep h.sound
  consumed := by
    have hrt : s.bgStep.rt = s.rt := by rw [h.sound.bgStep_bgKeeps.state_eq]; rfl
    have hlive : s.bgStep.liveSlot = s.liveSlot := by
      rw [h.sound.bgStep_bgKeeps.state_eq]
      exact State.liveSlot_setSlot_spare s.bgStep.spareSlot s
    have hc := h.consumed
    unfold State.Consumed at hc ⊢
    rw [hrt, hlive]
    exact hc
  not_fatal hf := by rw [h.sound.bgStep_bgKeeps.state_eq]; exact hf

/-- A change of what neither the ranges nor the block's account speak of, with HOST's two parameters in range. -/
theorem State.InOrder.hostChange (h : s.InOrder) {csr : Csr}
    (hcsr : InRange (2 ^ csr.windowOrder.toNat) csr.overlapFactor.toNat) (err : ErrReg) (settings window : Bool)
    (mem : Memory) (hostData : Word) (deferred : List (Nat × Word)) (fresh : Nat) :
    OrderKept s { s with
      csr := csr, err := err, settingsChanged := settings, windowPending := window, mem := mem
      hostData := hostData, deferred := deferred, fresh := fresh } where
  ranged := { h.ranged with csr_range := hcsr }
  consumed := h.consumed
  not_fatal := id

/-! ## The host commands -/

/-- Every error but Assert is recorded and nothing more (R271). -/
theorem State.InOrder.raise (h : s.InOrder) {e : BlockError} (he : e ≠ .assert) : OrderKept s (s.raise e) := by
  rw [State.raise_eq e he]
  exact h.hostChange h.ranged.csr_range (s.err.record e) s.settingsChanged s.windowPending s.mem s.hostData s.deferred
    s.fresh

/-- A block command that starts leaves everything to RT's program (R190). -/
theorem State.InOrder.startBlock (h : s.InOrder) (bypass : Bool) (M : Nat) : OrderKept s (s.startBlock bypass M) where
  ranged := { h.ranged with }
  consumed := State.consumed_goto (pc := .fetch) (by decide) (s.startBlock bypass M)
  not_fatal := id

theorem State.InOrder.acceptBlock (h : s.InOrder) (bypass : Bool) (M : Nat) :
    OrderNext s (Machine.acceptBlock bypass M s) := by
  unfold Machine.acceptBlock
  cases he : s.blockError M with
  | some e => exact orderNext_next (h.raise (State.blockError_ne_assert he))
  | none => exact orderNext_next (h.startBlock bypass M)

/-- With RT_BUSY 0 RT is at rest (R22). -/
theorem State.Sound.pc_idle (h : s.Sound) (hb : s.rtBusy = false) : s.rt.pc = .idle := by
  by_contra hpc
  rw [h.busy_iff.mpr hpc] at hb
  cases hb

/-- PREPARE passes its checks only while RT is at rest (R250). -/
theorem State.rtBusy_of_prepareError_none (h : s.prepareError = none) : s.rtBusy = false := by
  unfold State.prepareError at h
  split_ifs at h with hb
  exact Bool.eq_false_iff.mpr hb

/-- PREPARE builds its slot from HOST's two parameters (R250 line 7). -/
theorem State.Ranged.firstEngine (h : s.Ranged) : s.firstEngine.Ranged where
  csr_range := h.csr_range
  live_range _ := h.csr_range
  bg_range hx := by cases hx
  spare_range hx := by rcases hx with hx | hx <;> cases hx
  schedule_range := h.schedule_range

theorem State.settingsUpdate_overlap (forced : Bool) (s : State) :
    (s.settingsUpdate forced).liveSlot.K = s.csr.overlapFactor.toNat := by
  have hlive : (s.settingsUpdate forced).liveSlot = s.updatedSlot forced := by
    rw [State.settingsUpdate_eq]
    exact State.liveSlot_setSlot_live (s.updatedSlot forced) s
  rw [hlive]
  rfl

theorem State.InOrder.prepareRun (h : s.InOrder) (hb : s.rtBusy = false) : OrderKept s s.prepareRun where
  ranged := by
    rw [State.prepareRun_eq]
    exact h.ranged.firstEngine.of_rtKeeps (State.settingsUpdate_rtKeeps true _)
      (.inr (State.settingsUpdate_overlap true _))
  consumed := by
    refine State.consumed_of_idle ?_
    rw [State.prepareRun_eq, State.settingsUpdate_rt]
    exact h.sound.pc_idle hb
  not_fatal _ hx := by cases hx

theorem State.InOrder.releaseRun (h : s.InOrder) (hb : s.rtBusy = false) : OrderKept s s.releaseRun where
  ranged :=
    { csr_range := h.ranged.csr_range
      live_range := fun hu => absurd rfl hu
      bg_range := fun hx => by cases hx
      spare_range := fun hx => by rcases hx with hx | hx <;> cases hx
      schedule_range := h.ranged.schedule_range }
  consumed := State.consumed_of_idle (h.sound.pc_idle hb)
  not_fatal _ hx := by cases hx

theorem State.InOrder.execPrepare (h : s.InOrder) : OrderNext s (Machine.execPrepare s) := by
  unfold Machine.execPrepare
  cases he : s.prepareError with
  | some e => exact orderNext_next (h.raise (State.prepareError_ne_assert he))
  | none => exact orderNext_next (h.prepareRun (State.rtBusy_of_prepareError_none he))

theorem State.InOrder.execRelease (h : s.InOrder) : OrderNext s (Machine.execRelease s) := by
  unfold Machine.execRelease
  split_ifs with hb
  · exact orderNext_next (h.raise (by decide))
  · exact orderNext_next (h.raise (by decide))
  · exact orderNext_next (h.releaseRun (Bool.eq_false_iff.mpr hb))

theorem State.InOrder.setFlags (h : s.InOrder) (settings window : Bool) :
    OrderKept s { s with settingsChanged := settings, windowPending := window } :=
  h.hostChange h.ranged.csr_range s.err settings window s.mem s.hostData s.deferred s.fresh

theorem State.InOrder.execNotifySettings (h : s.InOrder) : OrderNext s (Machine.execNotifySettings s) := by
  unfold Machine.execNotifySettings
  split_ifs
  · exact orderNext_next (h.setFlags true s.windowPending)
  · exact orderNext_next h.refl

theorem State.InOrder.execNotifyWindow (h : s.InOrder) : OrderNext s (Machine.execNotifyWindow s) := by
  unfold Machine.execNotifyWindow
  split_ifs
  · exact orderNext_next (h.setFlags s.settingsChanged true)
  · exact orderNext_next h.refl

/-- Every host command keeps the order (R103). -/
theorem State.InOrder.exec_command (h : s.InOrder) {i : Instr} (hi : i.isCommand = true) : OrderNext s (exec i s) := by
  cases i with
  | nop => exact orderNext_next h.refl
  | prepare => exact h.execPrepare
  | release => exact h.execRelease
  | process M => exact h.acceptBlock false M
  | processBypassed M => exact h.acceptBlock true M
  | notifySettings => exact h.execNotifySettings
  | notifyWindow => exact h.execNotifyWindow
  | _ => cases hi

theorem State.InOrder.issueCommand (h : s.InOrder) (w : Word) : OrderNext s (Machine.issueCommand w s) := by
  unfold Machine.issueCommand
  cases hw : decodeCommand w with
  | some i => exact h.exec_command (decodeCommand_eq_some hw).1
  | none => exact orderNext_next (h.raise (by decide))

/-! ## HOST's accesses (R10, R76) -/

/-- The range enforcement of a write, read off the register it selects (R10). -/
theorem keepsRange_hostWrite {addr v : Word} {width : Nat} {r : HostReg} (hr : r.offset = addr.toNat)
    (hok : accessOk addr width = true) (h : (Event.hostWrite addr width v).keepsRange = true) :
    (r = .overlapFactor → 2 ≤ (v.extractLsb' 0 7).toNat ∧ (v.extractLsb' 0 7).toNat ≤ 64) ∧
      (r = .windowOrder → 9 ≤ (v.extractLsb' 0 4).toNat) := by
  simp only [Event.keepsRange, hok, if_true, ← hr] at h
  constructor
  · rintro rfl
    simpa using h
  · rintro rfl
    simpa [HostReg.offset] using h

/-- A write of a register leaves HOST's two parameters in range (R10, R76). -/
theorem State.writeReg_range (h : InRange (2 ^ s.csr.windowOrder.toNat) s.csr.overlapFactor.toNat) (r : HostReg)
    (v : Word) (hK : r = .overlapFactor → 2 ≤ (v.extractLsb' 0 7).toNat ∧ (v.extractLsb' 0 7).toNat ≤ 64)
    (hW : r = .windowOrder → 9 ≤ (v.extractLsb' 0 4).toNat) :
    InRange (2 ^ (s.writeReg r v).csr.windowOrder.toNat) (s.writeReg r v).csr.overlapFactor.toNat := by
  cases r with
  | overlapFactor =>
    obtain ⟨hge, hle⟩ := hK rfl
    exact ⟨h.window_ge, hge, hle⟩
  | windowOrder => exact ⟨Nat.pow_le_pow_right Nat.two_pos (hW rfl), h.overlap_ge, h.overlap_le⟩
  | _ => exact h

theorem State.InOrder.writeReg (h : s.InOrder) (r : HostReg) (v : Word)
    (hcsr : InRange (2 ^ (s.writeReg r v).csr.windowOrder.toNat) (s.writeReg r v).csr.overlapFactor.toNat) :
    OrderKept s (s.writeReg r v) := by
  have key := h.hostChange hcsr (s.writeReg r v).err s.settingsChanged s.windowPending s.mem s.hostData s.deferred
    s.fresh
  rw [State.writeReg_eq]
  exact key

theorem State.InOrder.hostStore (h : s.InOrder) (a : Nat) (v : Word) : OrderKept s (s.hostStore a v) := by
  have key := h.hostChange h.ranged.csr_range s.err s.settingsChanged s.windowPending
  unfold State.hostStore
  split_ifs
  · exact key _ s.hostData _ (s.fresh + 1)
  · exact key s.mem s.hostData _ (s.fresh + 1)
  · exact key _ s.hostData _ s.fresh

theorem State.InOrder.hostWrite (h : s.InOrder) {addr v : Word} {width : Nat}
    (hrange : (Event.hostWrite addr width v).keepsRange = true) : OrderNext s (Machine.hostWrite addr width v s) := by
  have bus := orderNext_next (h.raise (e := .bus) (by decide))
  unfold Machine.hostWrite
  split_ifs with hbad
  · exact bus
  have hok : accessOk addr width = true := by simpa using hbad
  cases ht : targetAt s.params addr.toNat with
  | register r =>
    simp only
    split_ifs
    · exact h.issueCommand v
    · obtain ⟨hK, hW⟩ := keepsRange_hostWrite (targetAt_register ht) hok hrange
      exact orderNext_next (h.writeReg r v (State.writeReg_range h.ranged.csr_range r v hK hW))
  | reserved => exact orderNext_next h.refl
  | sample => exact orderNext_next (h.hostStore addr.toNat v)
  | unmapped => exact bus

theorem State.InOrder.hostRead (h : s.InOrder) (addr : Word) (width : Nat) :
    OrderKept s (s.hostRead addr width) := by
  have key (err : ErrReg) (hostData : Word) (fresh : Nat) :=
    h.hostChange h.ranged.csr_range err s.settingsChanged s.windowPending s.mem hostData s.deferred fresh
  have bus := key (s.err.record .bus) 0#32 s.fresh
  unfold State.hostRead
  by_cases hbad : (!accessOk addr width) = true
  · rw [if_pos hbad]
    exact bus
  rw [if_neg hbad]
  cases targetAt s.params addr.toNat with
  | register r => exact key s.err (s.readReg r) s.fresh
  | reserved => exact key s.err 0#32 s.fresh
  | sample =>
    simp only
    split_ifs
    · exact key s.err (Config.raceRead s.fresh) (s.fresh + 1)
    · exact key s.err (s.wordAt addr.toNat) s.fresh
  | unmapped => exact bus

/-! ## Every step (R14, R20) -/

/-- A reset machine is in range, whatever its parameters and counters (R58). -/
theorem State.ranged_afterReset (p : Params) (fresh epoch : Nat) {agenda : List Event}
    (h : agenda.all Event.keepsRange = true) : (State.afterReset p fresh epoch agenda).Ranged where
  csr_range := State.reset_ranged.csr_range
  live_range hp := absurd rfl hp
  bg_range hb := by cases hb
  spare_range hx := by rcases hx with hr | hb <;> contradiction
  schedule_range := h

theorem State.InOrder.applyReset (h : s.InOrder) : OrderKept s s.applyReset where
  ranged := State.ranged_afterReset s.params s.fresh (s.epoch + 1) h.ranged.schedule_range
  consumed := State.consumed_of_idle rfl
  not_fatal _ hx := by cases hx

/-- What an entry of a hardware schedule does keeps the order, where HOST keeps the ranges. -/
theorem State.InOrder.perform (h : s.InOrder) {e : Event} (he : e.isHardware = true) (hr : e.keepsRange = true) :
    OrderNext s (Machine.perform e s) := by
  cases e with
  | hostWrite addr width v => exact h.hostWrite hr
  | hostRead addr width => exact orderNext_next (h.hostRead addr width)
  | rt => exact orderNext_next h.rtStep_orderKept
  | bg => exact orderNext_next h.bgStep_orderKept
  | issue w => cases he
  | reset => exact orderNext_next h.applyReset

theorem State.InOrder.unscheduled (h : s.InOrder) : OrderKept s s.unscheduled := by
  unfold State.unscheduled
  split_ifs
  · exact h.rtStep_orderKept
  · exact h.bgStep_orderKept
  · exact h.refl

/-- The next entry of the schedule keeps the ranges, and the state with the rest of it is in order. -/
theorem State.InOrder.takeEvent (h : s.InOrder) {e : Event} {rest : List Event} (ha : s.agenda = e :: rest) :
    e.isHardware = true ∧ e.keepsRange = true ∧ ({ s with agenda := rest } : State).InOrder := by
  obtain ⟨he, hs⟩ := h.sound.takeEvent ha
  have hr := h.ranged.schedule_range
  rw [ha, List.all_cons, Bool.and_eq_true] at hr
  obtain ⟨hkeep, hrest⟩ := hr
  exact ⟨he, hkeep, hs, { h.ranged with schedule_range := hrest }, h.consumed⟩

theorem State.InOrder.step (h : s.InOrder) : OrderNext s (Machine.step s) := by
  unfold Machine.step
  cases ha : s.agenda with
  | nil => exact orderNext_next h.unscheduled
  | cons e rest =>
    obtain ⟨he, hr, hrest⟩ := h.takeEvent ha
    intro t ht
    obtain ⟨hranged, hconsumed, hfatal⟩ := hrest.perform he hr t ht
    exact ⟨hranged, hconsumed, hfatal⟩

end

/-- Settles O52: a step keeps a state in order, so that RT's check, the one place that raises Assert, never does. -/
theorem noRunRaisesAssert : Obligations.NoRunRaisesAssert := by
  unfold Obligations.NoRunRaisesAssert
  intro s t hs hr hc hstep
  obtain ⟨hranged, hconsumed, hfatal⟩ := State.InOrder.step ⟨hs, hr, hc⟩ t hstep
  exact ⟨everyStepKeepsSoundness s t hs hstep, hranged, hconsumed, hfatal⟩

/-! ## Steps of RT one after another -/

/-- Some number of RT's steps, with no other agent between them, leads to a state of this kind. -/
def State.LeadsTo (s : State) (P : State → Prop) : Prop := ∃ k, P (s.rtSteps k)

section
variable {s : State} {P Q : State → Prop}

theorem State.LeadsTo.now (h : P s) : s.LeadsTo P := ⟨0, h⟩

theorem State.LeadsTo.step (h : s.rtStep.LeadsTo P) : s.LeadsTo P := by
  obtain ⟨k, hk⟩ := h
  exact ⟨k + 1, hk⟩

theorem State.rtSteps_add (j k : Nat) (s : State) : (s.rtSteps j).rtSteps k = s.rtSteps (j + k) := by
  induction k with
  | zero => rfl
  | succ k ih => rw [State.rtSteps_succ, ih, ← Nat.add_assoc, State.rtSteps_succ]

theorem State.LeadsTo.trans (h : s.LeadsTo P) (hPQ : ∀ t, P t → t.LeadsTo Q) : s.LeadsTo Q := by
  obtain ⟨j, hj⟩ := h
  obtain ⟨k, hk⟩ := hPQ _ hj
  exact ⟨j + k, by rw [← State.rtSteps_add]; exact hk⟩

end

/-! ## What each line leaves of the block length, the input rings and the window counter -/

section
variable {s : State}

/-- Between its acceptance and its end a block has one length (R190). -/
theorem State.rtStep_length (s : State) : s.rtStep.rt.M = s.rt.M := by
  unfold State.rtStep
  cases s.rt.pc with
  | fetch =>
    simp only [State.rtFetch, State.goto_rt, State.fetch]
    split_ifs <;> rfl
  | updOverlap =>
    simp only [State.rtUpdOverlap]
    split_ifs <;> rfl
  | updCurve =>
    simp only [State.rtUpdCurve, State.curveIfFixed]
    split_ifs <;> rfl
  | zfill =>
    simp only [State.rtZfill, State.goto_rt]
    rw [(State.zeroFill_done s.rt.M.toNat s).state_eq]
  | firstIo =>
    show (s.ioStep 0 s.rt.a.toNat).rt.M = s.rt.M
    rw [State.ioStep_regs]
  | cycle =>
    obtain ⟨-, hM, -⟩ := s.blockCycle_keeps.counters
    simp only [State.rtCycle]
    split_ifs at hM ⊢
    · exact hM
    · exact hM
    · rfl
    · rfl
  | loopIo =>
    show (s.ioStep s.rt.off.toNat _).rt.M = s.rt.M
    rw [State.ioStep_regs]
  | check =>
    simp only [State.rtCheck, State.checkConsumed]
    split_ifs <;> rfl
  | _ => rfl

/-- The lines that neither take samples in nor count a window. -/
def RtPc.quiet : List RtPc :=
  [.sampleSc, .flagCas, .updOverlap, .updRatio, .updAttack, .updRelease, .updCurve, .updGain, .zfill, .align, .windows]

theorem RtPc.ne_of_quiet {pc : RtPc} (h : pc ∈ RtPc.quiet) : pc ≠ .fetch ∧ pc ≠ .check := by
  constructor
  · rintro rfl
    exact absurd h (by decide)
  · rintro rfl
    exact absurd h (by decide)

theorem State.modLive_input {f : Slot → Slot} (hi : (f s.liveSlot).inr = s.liveSlot.inr)
    (hc : (f s.liveSlot).count = s.liveSlot.count) :
    (s.modLive f).liveSlot.inr = s.liveSlot.inr ∧ (s.modLive f).liveSlot.count = s.liveSlot.count := by
  rw [State.liveSlot_modLive]
  exact ⟨hi, hc⟩

theorem State.copyOverlap_input (s : State) :
    s.copyOverlap.liveSlot.inr = s.liveSlot.inr ∧ s.copyOverlap.liveSlot.count = s.liveSlot.count :=
  State.modLive_input rfl rfl

theorem State.setRatio_input (r : F32) (s : State) :
    (s.setRatio r).liveSlot.inr = s.liveSlot.inr ∧ (s.setRatio r).liveSlot.count = s.liveSlot.count :=
  State.modLive_input rfl rfl

theorem State.setTimes_input (a r : F32) (s : State) :
    (s.setTimes a r).liveSlot.inr = s.liveSlot.inr ∧ (s.setTimes a r).liveSlot.count = s.liveSlot.count := by
  unfold State.setTimes
  exact State.modLive_input rfl rfl

theorem State.curveIfFixed_input (forced : Bool) (s : State) :
    (s.curveIfFixed forced).liveSlot.inr = s.liveSlot.inr ∧
      (s.curveIfFixed forced).liveSlot.count = s.liveSlot.count := by
  unfold State.curveIfFixed State.thresholdCurve
  split_ifs
  · exact State.modLive_input rfl rfl
  · exact ⟨rfl, rfl⟩

/-- A quiet line leaves the input rings and the window counter (R210, R215). -/
theorem State.rtStep_quiet (h : s.rt.pc ∈ RtPc.quiet) :
    s.rtStep.liveSlot.inr = s.liveSlot.inr ∧ s.rtStep.liveSlot.count = s.liveSlot.count := by
  unfold State.rtStep
  cases hpc : s.rt.pc with
  | sampleSc => exact ⟨rfl, rfl⟩
  | flagCas => exact ⟨rfl, rfl⟩
  | updOverlap =>
    simp only [State.rtUpdOverlap]
    split_ifs
    · exact s.copyOverlap_input
    · exact ⟨rfl, rfl⟩
  | updRatio => exact s.setRatio_input s.csr.ratio
  | updAttack => exact ⟨rfl, rfl⟩
  | updRelease => exact s.setTimes_input s.op.attackMs s.csr.releaseMs
  | updCurve => exact s.curveIfFixed_input s.rt.swapped
  | updGain => exact ⟨rfl, rfl⟩
  | zfill =>
    simp only [State.rtZfill, State.liveSlot_goto]
    rw [(State.zeroFill_done s.rt.M.toNat s).state_eq]
    exact ⟨rfl, rfl⟩
  | align => exact ⟨rfl, rfl⟩
  | windows => exact ⟨rfl, rfl⟩
  | _ => exact absurd h (by rw [hpc]; decide)

theorem Slot.cursor_congr {S T : Slot} (h : T.inr = S.inr) : T.cursor = S.cursor := by
  simp only [Slot.cursor, Slot.ring, Slot.rings, h]

/-- An I/O step takes `n` samples in and counts no window (R194). -/
theorem State.ioStep_input {nch : Nat} (h : s.liveSlot.Built nch) (off n : Nat) :
    (s.ioStep off n).liveSlot.cursor = (s.liveSlot.cursor + n) % s.liveSlot.W ∧
      (s.ioStep off n).liveSlot.count = s.liveSlot.count := by
  rw [State.liveSlot_ioStep h.nch_eq]
  exact ⟨State.cursor_ioSlot h off n, rfl⟩

/-- A cycle of either program counts one window and takes no sample in (R180, R182). -/
theorem State.blockCycle_input (s : State) :
    (if s.rt.bypass then s.bypassCycle else s.stftCycle).liveSlot.count = countAfter s.liveSlot.count ∧
      (if s.rt.bypass then s.bypassCycle else s.stftCycle).liveSlot.inr = s.liveSlot.inr := by
  split_ifs
  · exact State.bypassCycle_liveSlot s
  · exact State.stftCycle_liveSlot s

end

/-! ## A block from its fetch to its end (R190, R199) -/

/-- Where RT stands in a block that was fetched in `f`: `K` is the overlap factor in force, `c` samples have been taken
in and `n` windows counted since. -/
structure BlockRun (f : State) (K c n : Nat) (t : State) : Prop where
  cursor_lt : f.liveSlot.cursor < f.liveSlot.W
  order : t.InOrder
  prepared : t.runState = .prepared
  keeps : RtKeeps f t
  length : t.rt.M = f.rt.M
  overlap : t.liveSlot.K = K
  cursor : t.liveSlot.cursor = (f.liveSlot.cursor + c) % f.liveSlot.W
  count : t.liveSlot.count.toNat = min (f.liveSlot.count.toNat + n) (2 ^ 32 - 1)

section
variable {f t : State} {K c n : Nat}

theorem BlockRun.built (h : BlockRun f K c n t) : t.liveSlot.Built t.latch.nch.toNat :=
  h.order.sound.live_built (by rw [h.prepared]; decide)

theorem BlockRun.inRange (h : BlockRun f K c n t) : InRange t.liveSlot.W t.liveSlot.K :=
  h.order.ranged.live_range (by rw [h.prepared]; decide)

theorem BlockRun.interval_eq (h : BlockRun f K c n t) : t.liveSlot.interval = f.liveSlot.W / K := by
  have hK := h.inRange.overlap_ge
  rw [Slot.interval, interval_of_pos _ (by omega), h.keeps.window, h.overlap]

theorem BlockRun.interval_pos (h : BlockRun f K c n t) : 0 < t.liveSlot.interval := h.inRange.interval_pos

/-- Right after the fetch nothing has been taken in and no window counted. -/
theorem BlockRun.start (h : f.InOrder) (hp : f.runState = .prepared) : BlockRun f f.liveSlot.K 0 0 f where
  cursor_lt := (h.sound.live_built (by rw [hp]; decide)).cursor_lt
  order := h
  prepared := hp
  keeps := RtKeeps.refl f
  length := rfl
  overlap := rfl
  cursor := (Nat.mod_eq_of_lt (h.sound.live_built (by rw [hp]; decide)).cursor_lt).symm
  count := by
    have hlt := f.liveSlot.count.isLt
    omega

/-- A line but the fetch and the end of the block, which takes `d` samples in and counts `e` windows. -/
theorem BlockRun.next (h : BlockRun f K c n t) (hfetch : t.rt.pc ≠ .fetch) (hcheck : t.rt.pc ≠ .check) {L d e : Nat}
    (hL : t.rtStep.liveSlot.K = L) (hd : t.rtStep.liveSlot.cursor = (t.liveSlot.cursor + d) % t.liveSlot.W)
    (he : t.rtStep.liveSlot.count.toNat = min (t.liveSlot.count.toNat + e) (2 ^ 32 - 1)) :
    BlockRun f L (c + d) (n + e) t.rtStep := by
  have hline := State.rtStep_rtKeeps t hfetch hcheck
  exact
    { cursor_lt := h.cursor_lt
      order := h.order.rtStep
      prepared := hline.runState_eq.trans h.prepared
      keeps := h.keeps.trans hline
      length := t.rtStep_length.trans h.length
      overlap := hL
      cursor := by rw [hd, h.cursor, h.keeps.window, Nat.mod_add_mod, Nat.add_assoc]
      count := by
        have hn := h.count
        omega }

/-- A quiet line that brings the overlap factor `L` into force. -/
theorem BlockRun.quietLine (h : BlockRun f K c n t) (hq : t.rt.pc ∈ RtPc.quiet) {L : Nat}
    (hL : t.rtStep.liveSlot.K = L) : BlockRun f L c n t.rtStep := by
  obtain ⟨hinr, hcount⟩ := State.rtStep_quiet hq
  have hlt := t.liveSlot.count.isLt
  obtain ⟨hfetch, hcheck⟩ := RtPc.ne_of_quiet hq
  refine h.next (d := 0) (e := 0) hfetch hcheck hL ?_ ?_
  · rw [Slot.cursor_congr hinr, Nat.add_zero, Nat.mod_eq_of_lt h.built.cursor_lt]
  · rw [hcount]
    omega

/-- A quiet line but the copy of OVERLAP_FACTOR. -/
theorem BlockRun.quietStep (h : BlockRun f K c n t) (hq : t.rt.pc ∈ RtPc.quiet) (hne : t.rt.pc ≠ .updOverlap) :
    BlockRun f K c n t.rtStep := by
  refine h.quietLine hq ?_
  rcases t.rtStep_overlap (RtPc.ne_of_quiet hq).1 with hK | ⟨hpc, -⟩
  · exact hK.trans h.overlap
  · exact absurd hpc hne

/-! ### Lines 5 to 7: the settings -/

/-- The rest of a settings update, once OVERLAP_FACTOR is copied (R210). -/
theorem BlockRun.update_leadsTo_zfill (h : BlockRun f K c n t) (h0 : t.rt.pc = .updRatio) :
    t.LeadsTo fun z => z.rt.pc = .zfill ∧ BlockRun f K c n z := by
  have r1 := h.quietStep (by rw [h0]; decide) (by rw [h0]; decide)
  have h1 : t.rtStep.rt.pc = .updAttack := by rw [State.rtStep_updRatio h0]; rfl
  have r2 := r1.quietStep (by rw [h1]; decide) (by rw [h1]; decide)
  have h2 : t.rtStep.rtStep.rt.pc = .updRelease := by rw [State.rtStep_updAttack h1]; rfl
  have r3 := r2.quietStep (by rw [h2]; decide) (by rw [h2]; decide)
  have h3 : t.rtStep.rtStep.rtStep.rt.pc = .updCurve := by rw [State.rtStep_updRelease h2]; rfl
  have r4 := r3.quietStep (by rw [h3]; decide) (by rw [h3]; decide)
  have h4 : t.rtStep.rtStep.rtStep.rtStep.rt.pc = .updGain := by rw [State.rtStep_updCurve h3]; rfl
  have r5 := r4.quietStep (by rw [h4]; decide) (by rw [h4]; decide)
  have h5 : t.rtStep.rtStep.rtStep.rtStep.rtStep.rt.pc = .zfill := by rw [State.rtStep_updGain h4]; rfl
  exact ⟨5, h5, r5⟩

/-- Line 7 updates the settings when the flag was set or the block has swapped, and else does nothing (R190). -/
theorem BlockRun.updOverlap_leadsTo_zfill (h : BlockRun f K c n t) (hpc : t.rt.pc = .updOverlap) :
    t.LeadsTo fun z => z.rt.pc = .zfill ∧
      BlockRun f (if t.rt.changed || t.rt.swapped then t.csr.overlapFactor.toNat else K) c n z := by
  have hq : t.rt.pc ∈ RtPc.quiet := by rw [hpc]; decide
  have hline := State.rtStep_updOverlap hpc
  refine State.LeadsTo.step ?_
  split_ifs with hupd
  · rw [State.rtUpdOverlap_taken hupd] at hline
    have hrun := h.quietLine hq (L := t.csr.overlapFactor.toNat)
      (by rw [hline, State.liveSlot_goto, State.copyOverlap_liveSlot])
    exact hrun.update_leadsTo_zfill (by rw [hline]; rfl)
  · have hskip : t.rtUpdOverlap = t.goto .zfill := if_neg hupd
    rw [hskip] at hline
    have hrun := h.quietLine hq (L := K) (by rw [hline, State.liveSlot_goto, h.overlap])
    exact State.LeadsTo.now ⟨by rw [hline]; rfl, hrun⟩

/-- From the fetch RT comes to line 8 with the overlap factor of the block in force (R191, R192, R217, R213). -/
theorem BlockRun.fetched_leadsTo_zfill (h : BlockRun f K c n f) (h0 : f.rt.pc = .sampleSc) :
    f.LeadsTo fun z => z.rt.pc = .zfill ∧
      BlockRun f (if f.settingsChanged || f.rt.swapped then f.csr.overlapFactor.toNat else K) c n z := by
  have r1 := h.quietStep (by rw [h0]; decide) (by rw [h0]; decide)
  have e1 := State.rtStep_sampleSc h0
  have h1 : f.rtStep.rt.pc = .flagCas := by rw [e1]; rfl
  have r2 := r1.quietStep (by rw [h1]; decide) (by rw [h1]; decide)
  have e2 : f.rtStep.rtStep = f.rtSampleSc.rtFlagCas := by rw [State.rtStep_flagCas h1, e1]
  have h2 : f.rtStep.rtStep.rt.pc = .updOverlap := by rw [e2]; rfl
  have key := r2.updOverlap_leadsTo_zfill h2
  have hchanged : f.rtStep.rtStep.rt.changed = f.settingsChanged := by rw [e2]; rfl
  have hswapped : f.rtStep.rtStep.rt.swapped = f.rt.swapped := by rw [e2]; rfl
  have hcsr : f.rtStep.rtStep.csr = f.csr := by rw [e2]; rfl
  rw [hchanged, hswapped, hcsr] at key
  exact key.step.step

/-! ### Lines 8 to 11: the alignment -/

/-- How many samples complete the alignment of a block of `M` samples on the slot `S` with overlap factor `K` (R196). -/
def Slot.alignmentOf (S : Slot) (K M : Nat) : Nat := min M ((S.W / K - S.cursor % (S.W / K)) % (S.W / K))

/-- How many passes use up the rest of the block (R197). -/
def Slot.passesOf (S : Slot) (K M : Nat) : Nat := (M - S.alignmentOf K M + S.W / K - 1) / (S.W / K)

/-- Line 9 computes the alignment of the slot the block was fetched with. -/
theorem BlockRun.alignment_eq (h : BlockRun f K 0 n t) :
    t.alignment t.rt.M.toNat = f.liveSlot.alignmentOf K f.rt.M.toNat := by
  have hcursor : t.liveSlot.cursor = f.liveSlot.cursor := h.cursor.trans (Nat.mod_eq_of_lt h.cursor_lt)
  rw [State.alignment_of_pos _ h.interval_pos, h.interval_eq, h.length, hcursor]
  rfl

/-- Line 10 takes the samples of the alignment in (R190). -/
theorem BlockRun.firstIo (h : BlockRun f K c n t) (hpc : t.rt.pc = .firstIo) :
    BlockRun f K (c + t.rt.a.toNat) n t.rtStep := by
  have hline : t.rtStep = t.rtFirstIo := State.rtStep_firstIo hpc
  obtain ⟨hcursor, hcount⟩ := State.ioStep_input h.built 0 t.rt.a.toNat
  have hlt := t.liveSlot.count.isLt
  refine h.next (e := 0) (by rw [hpc]; decide) (by rw [hpc]; decide) ?_ ?_ ?_
  · rw [hline, State.rtFirstIo_eq]
    exact (State.ioStep_overlap _ _ _).trans h.overlap
  · rw [hline, State.rtFirstIo_eq]
    exact hcursor
  · rw [hline, State.rtFirstIo_eq]
    show (t.ioStep 0 t.rt.a.toNat).liveSlot.count.toNat = _
    rw [hcount]
    omega

/-- Where line 12 stands: its test comes next, `a` samples completed the alignment, and the block has `N` passes. -/
structure AtTest (f : State) (K a N : Nat) (t : State) : Prop where
  line : t.rt.pc = .cycle
  run : BlockRun f K t.rt.off.toNat t.rt.k.toNat t
  aligned : t.rt.a.toNat = a
  passes : t.rt.nwin.toNat = N

/-- Lines 8 to 10 find the alignment and take its samples in (R193, R196). -/
theorem BlockRun.zfill_leadsTo_windows (h : BlockRun f K 0 n t) (h0 : t.rt.pc = .zfill) :
    t.LeadsTo fun w => w.rt.pc = .windows ∧ BlockRun f K w.rt.a.toNat n w ∧
      w.rt.a.toNat = f.liveSlot.alignmentOf K f.rt.M.toNat := by
  have r1 := h.quietStep (by rw [h0]; decide) (by rw [h0]; decide)
  have h1 : t.rtStep.rt.pc = .align := by rw [State.rtStep_zfill h0]; rfl
  refine State.LeadsTo.step ?_
  generalize t.rtStep = t at r1 h1
  have r2 := r1.quietStep (by rw [h1]; decide) (by rw [h1]; decide)
  have h2 : t.rtStep.rt.pc = .firstIo := by rw [State.rtStep_align h1]; rfl
  have ha : t.rtStep.rt.a.toNat = f.liveSlot.alignmentOf K f.rt.M.toNat := by
    rw [State.rtStep_align h1, ← r1.alignment_eq]
    exact t.align_a_toNat
  refine State.LeadsTo.step ?_
  generalize t.rtStep = t at r2 h2 ha
  have r3 := r2.firstIo h2
  have e3 := State.rtStep_firstIo h2
  rw [State.rtFirstIo_eq] at e3
  have h3 : t.rtStep.rt.pc = .windows := by rw [e3]
  have a3 : t.rtStep.rt.a = t.rt.a := by rw [e3]
  rw [Nat.zero_add, ← a3] at r3
  exact State.LeadsTo.step (State.LeadsTo.now ⟨h3, r3, by rw [a3, ha]⟩)

/-- Line 11 brings RT to line 12 with the passes of the block (R197). -/
theorem BlockRun.windows_step (h : BlockRun f K t.rt.a.toNat 0 t) (hpc : t.rt.pc = .windows)
    (ha : t.rt.a.toNat = f.liveSlot.alignmentOf K f.rt.M.toNat) :
    AtTest f K (f.liveSlot.alignmentOf K f.rt.M.toNat) (f.liveSlot.passesOf K f.rt.M.toNat) t.rtStep := by
  have hrun := h.quietStep (by rw [hpc]; decide) (by rw [hpc]; decide)
  have hline := State.rtStep_windows hpc
  have hcycle : t.rtStep.rt.pc = .cycle := by rw [hline]; rfl
  have hasame : t.rtStep.rt.a = t.rt.a := by rw [hline]; rfl
  have hk : t.rtStep.rt.k.toNat = 0 := by rw [hline]; rfl
  obtain ⟨hat, -⟩ := (State.consumed_cycle hcycle).mp hrun.order.consumed
  have hoff : t.rtStep.rt.off.toNat = t.rt.a.toNat := by
    have hmoved := hat.moved
    have hle := hat.aligned
    rw [hk, Nat.zero_mul] at hmoved
    rw [← hasame]
    omega
  refine ⟨hcycle, ?_, by rw [hasame, ha], ?_⟩
  · rw [hoff, hk]
    exact hrun
  · rw [hat.passes, hrun.interval_eq, hrun.length, hasame, ha]
    rfl

/-! ### Line 12: the passes -/

/-- The cycle of a pass counts one window and takes no sample in (R180). -/
theorem BlockRun.cycle (h : BlockRun f K c n t) (hpc : t.rt.pc = .cycle) (hk : t.rt.k.toNat < t.rt.nwin.toNat) :
    BlockRun f K c (n + 1) t.rtStep ∧ t.rtStep.rt.pc = .loopIo ∧ t.rtStep.rt.a = t.rt.a ∧
      t.rtStep.rt.off = t.rt.off ∧ t.rtStep.rt.nwin = t.rt.nwin ∧ t.rtStep.rt.k = t.rt.k := by
  have hline : t.rtStep = State.goto .loopIo (if t.rt.bypass then t.bypassCycle else t.stftCycle) :=
    (State.rtStep_cycle hpc).trans (State.rtCycle_pass hk)
  obtain ⟨-, -, ha, hoff, hnwin, hkk⟩ := t.blockCycle_keeps.counters
  obtain ⟨hcount, hinr⟩ := t.blockCycle_input
  refine ⟨h.next (d := 0) (by rw [hpc]; decide) (by rw [hpc]; decide) ?_ ?_ ?_, by rw [hline]; rfl, ?_⟩
  · rw [hline, State.liveSlot_goto, t.blockCycle_keeps.overlap, h.overlap]
  · rw [hline, State.liveSlot_goto, Slot.cursor_congr hinr, Nat.add_zero, Nat.mod_eq_of_lt h.built.cursor_lt]
  · rw [hline, State.liveSlot_goto, hcount, countAfter_toNat]
  · rw [hline]
    exact ⟨ha, hoff, hnwin, hkk⟩

/-- The I/O step of a pass takes in the samples it moves `off` by (R190). -/
theorem BlockRun.loopIo (h : BlockRun f K t.rt.off.toNat n t) (hpc : t.rt.pc = .loopIo) :
    BlockRun f K t.rtStep.rt.off.toNat n t.rtStep ∧ t.rtStep.rt.pc = .cycle ∧ t.rtStep.rt.a = t.rt.a ∧
      t.rtStep.rt.nwin = t.rt.nwin ∧ t.rtStep.rt.k.toNat = t.rt.k.toNat + 1 := by
  obtain ⟨m, hm⟩ := t.exists_passLength
  obtain ⟨hat, hk⟩ := (State.consumed_loopIo hpc).mp h.order.consumed
  have hline : t.rtStep = { t.ioStep t.rt.off.toNat m.toNat with
      rt := { t.rt with pc := .cycle, n := m, off := t.rt.off + m, k := t.rt.k + 1#32 } } :=
    (State.rtStep_loopIo hpc).trans (State.rtLoopIo_eq hm)
  obtain ⟨hcursor, hcount⟩ := State.ioStep_input h.built t.rt.off.toNat m.toNat
  have hlt := t.liveSlot.count.isLt
  have hoff : t.rtStep.rt.off.toNat = t.rt.off.toNat + m.toNat := by
    rw [hline]
    exact State.passOffset_toNat hm hat.off_le
  rw [hoff]
  refine ⟨h.next (e := 0) (by rw [hpc]; decide) (by rw [hpc]; decide) ?_ ?_ ?_, by rw [hline], by rw [hline],
    by rw [hline], ?_⟩
  · rw [hline]
    exact (State.ioStep_overlap _ _ _).trans h.overlap
  · rw [hline]
    exact hcursor
  · rw [hline]
    show (t.ioStep t.rt.off.toNat m.toNat).liveSlot.count.toNat = _
    rw [hcount]
    omega
  · rw [hline]
    exact State.passIndex_toNat hk

/-- One pass of line 12 (R197). -/
theorem AtTest.pass {a N : Nat} (h : AtTest f K a N t) (hk : t.rt.k.toNat < N) :
    AtTest f K a N t.rtStep.rtStep ∧ t.rtStep.rtStep.rt.k.toNat = t.rt.k.toNat + 1 := by
  obtain ⟨hrun, hpc, ha, hoff, hnwin, hkk⟩ := h.run.cycle h.line (by rw [h.passes]; exact hk)
  rw [← hoff] at hrun
  obtain ⟨hrun', hpc', ha', hnwin', hkk'⟩ := hrun.loopIo hpc
  rw [hkk] at hkk'
  refine ⟨⟨hpc', ?_, by rw [ha', ha, h.aligned], by rw [hnwin', hnwin, h.passes]⟩, hkk'⟩
  rw [hkk']
  exact hrun'

/-- The passes that are left lead to the end of the loop. -/
theorem AtTest.leadsTo_last {a N : Nat} (h : AtTest f K a N t) :
    t.LeadsTo fun y => AtTest f K a N y ∧ y.rt.k.toNat = N := by
  obtain ⟨-, hle⟩ := (State.consumed_cycle h.line).mp h.run.order.consumed
  obtain ⟨d, hd⟩ : ∃ d, t.rt.k.toNat + d = N := ⟨N - t.rt.k.toNat, by rw [← h.passes]; omega⟩
  clear hle
  induction d generalizing t with
  | zero => exact State.LeadsTo.now ⟨h, hd⟩
  | succ d ih =>
    obtain ⟨hnext, hk⟩ := h.pass (by omega)
    exact (ih hnext (by omega)).step.step

/-! ### Line 13: the end -/

/-- What an accepted block of `M` samples has come to when RT is at rest again (R190, R198, R199). -/
structure BlockDone (f : State) (K : Nat) (t : State) : Prop where
  at_rest : t.rtBusy = false ∧ t.rt.pc = .idle
  no_error : t.runState = .prepared ∧ t.err = f.err
  moved : t.rt.off = f.rt.M
  aligned : t.rt.a.toNat = f.liveSlot.alignmentOf K f.rt.M.toNat
  passes : t.rt.nwin.toNat = f.liveSlot.passesOf K f.rt.M.toNat ∧ t.rt.k.toNat = f.liveSlot.passesOf K f.rt.M.toNat
  slots : t.ready = f.ready ∧ t.live = f.live ∧ t.liveSlot.W = f.liveSlot.W ∧ t.liveSlot.K = K
  cursor : t.liveSlot.cursor = (f.liveSlot.cursor + f.rt.M.toNat) % f.liveSlot.W
  count : t.liveSlot.count.toNat = min (f.liveSlot.count.toNat + f.liveSlot.passesOf K f.rt.M.toNat) (2 ^ 32 - 1)

/-- After the last pass the test fails, the check finds the block consumed, and the block ends (R198). -/
theorem AtTest.last_leadsTo_done
    (h : AtTest f K (f.liveSlot.alignmentOf K f.rt.M.toNat) (f.liveSlot.passesOf K f.rt.M.toNat) t)
    (hk : t.rt.k.toNat = f.liveSlot.passesOf K f.rt.M.toNat) : t.LeadsTo (BlockDone f K) := by
  obtain ⟨hat, -⟩ := (State.consumed_cycle h.line).mp h.run.order.consumed
  have hmoved : t.rt.off = t.rt.M := hat.complete h.run.interval_pos (by rw [hk, h.passes])
  have htest : t.rtStep = t.goto .check :=
    (State.rtStep_cycle h.line).trans (State.rtCycle_done (by rw [hk, h.passes]))
  have hcheck : (t.goto .check).rtStep = (t.goto .check).endBlock :=
    (State.rtStep_check (s := t.goto .check) rfl).trans
      (State.rtCheck_of_consumed ((State.consumed_check rfl).mpr hmoved) rfl)
  have hend : t.rtStep.rtStep = (t.goto .check).endBlock := by rw [htest, hcheck]
  refine State.LeadsTo.step (State.LeadsTo.step (State.LeadsTo.now ?_))
  rw [hend]
  have hrun := h.run
  rw [hmoved, h.run.length, hk] at hrun
  exact
    { at_rest := ⟨rfl, rfl⟩
      no_error := ⟨hrun.prepared, hrun.keeps.err_eq⟩
      moved := hmoved.trans hrun.length
      aligned := h.aligned
      passes := ⟨h.passes, hk⟩
      slots := ⟨hrun.keeps.ready_eq, hrun.keeps.live_spareSlot.1, hrun.keeps.window, hrun.overlap⟩
      cursor := hrun.cursor
      count := hrun.count }

/-- From the fetch a block runs to its end (R190, R199). -/
theorem State.InOrder.fetched_leadsTo_done (h : f.InOrder) (hp : f.runState = .prepared) (hpc : f.rt.pc = .sampleSc) :
    f.LeadsTo (BlockDone f
      (if f.settingsChanged || f.rt.swapped then f.csr.overlapFactor.toNat else f.liveSlot.K)) := by
  refine ((BlockRun.start h hp).fetched_leadsTo_zfill hpc).trans fun z hz => ?_
  obtain ⟨hline, hrun⟩ := hz
  refine (hrun.zfill_leadsTo_windows hline).trans fun w hw => ?_
  obtain ⟨hwindows, hrun, ha⟩ := hw
  refine State.LeadsTo.step ((hrun.windows_step hwindows ha).leadsTo_last.trans fun y hy => ?_)
  obtain ⟨htest, hlast⟩ := hy
  exact htest.last_leadsTo_done hlast

end

/-! ### The command that started the block -/

/-- Settles O53: the command starts the program, the fetch gives the slot, and from there the block runs to its end. -/
theorem acceptedBlockCompletes : Obligations.AcceptedBlockCompletes := by
  unfold Obligations.AcceptedBlockCompletes
  intro s M i hi hs hr hb hp hM S K I a nwin
  obtain ⟨bypass, hexec⟩ : ∃ bypass, exec i s = .next (s.startBlock bypass M) := by
    rcases hi with rfl | rfl
    · exact ⟨false, acceptBlock_accepted hb hp hM false⟩
    · exact ⟨true, acceptBlock_accepted hb hp hM true⟩
  have horder : s.InOrder := ⟨hs, hr, State.consumed_of_idle (hs.pc_idle hb)⟩
  have hstep : (s.startBlock bypass M).rtStep = (s.startBlock bypass M).rtFetch := State.rtStep_fetch rfl
  have hstart := horder.startBlock bypass M
  have hfetch := State.InOrder.rtStep ⟨hs.startBlock hp bypass M, hstart.ranged, hstart.consumed⟩
  rw [hstep] at hfetch
  have hfetched := (s.startBlock bypass M).rtFetch_fetched
  obtain ⟨k, hdone⟩ := hfetch.fetched_leadsTo_done (hfetched.runState.trans hp) (by rw [hfetched.regs])
  refine ⟨s.startBlock bypass M, k + 1, hexec, ?_⟩
  intro t
  have ht : t = (s.startBlock bypass M).rtFetch.rtSteps k := congrArg (State.rtSteps k) hstep
  rw [← ht] at hdone
  clear_value t
  generalize (s.startBlock bypass M).rtFetch = f at *
  have hS : f.liveSlot = S := hfetched.slot
  have hlength : f.rt.M.toNat = M := by
    have hlt := s.latch.maxBlock.isLt
    rw [hfetched.regs]
    exact Nat.mod_eq_of_lt (by omega)
  have hK : (if f.settingsChanged || f.rt.swapped then f.csr.overlapFactor.toNat else f.liveSlot.K) = K := by
    rw [hfetched.settingsChanged, hfetched.regs, hfetched.csr, hS, Bool.or_comm]
    simp only [Bool.or_eq_true]
    rfl
  rw [hK] at hdone
  obtain ⟨⟨hbusy, hidle⟩, ⟨hprepared, hsame⟩, hmoved, haligned, ⟨htotal, hlast⟩, ⟨hnone, hside, hwindow, hfactor⟩,
    hcursor, hcount⟩ := hdone
  simp only [hlength, hS] at haligned htotal hlast hcursor hcount hwindow
  exact ⟨hbusy, hidle, hprepared, hsame.trans hfetched.err, by rw [hmoved, hlength], haligned, htotal, hlast,
    hnone.trans hfetched.ready, hside.trans hfetched.live, hwindow, hfactor, hcursor, hcount⟩

end Sys2Proof.Machine

/-! PROOFS. The statements about the settings update: SET.FLAGCAS, SET.UPDATE, THR.CURVE and GAIN.UPDATE, and RT's six
register reads as one update (spec 45_settings.md R210 to R217). -/

namespace Sys2Proof.Machine

/-! ## SET.FLAGCAS (R217) -/

section
variable {s : State}

theorem State.flagCas_of_set (h : s.settingsChanged = true) :
    s.flagCas = { s with settingsChanged := false, rt := { s.rt with changed := true } } := by
  simp only [State.flagCas, h]

/-- A clear flag stays as it is. -/
theorem State.flagCas_of_clear (h : s.settingsChanged = false) :
    s.flagCas = { s with rt := { s.rt with changed := false } } := by
  simp only [State.flagCas, ← h]

end

/-- Settles O38: the exchange with the flag set, and with the flag clear. -/
theorem flagExchangeConsumesOnce : Obligations.FlagExchangeConsumesOnce := by
  unfold Obligations.FlagExchangeConsumesOnce
  intro s
  exact ⟨fun h => ⟨_, exec_setFlagCas s, fun _ => rfl, State.flagCas_of_set h⟩,
    fun h => ⟨_, exec_setFlagCas s, fun _ => rfl, State.flagCas_of_clear h⟩⟩

/-! ## GAIN.UPDATE (R214) -/

theorem exec_gainUpdate (s : State) : exec .gainUpdate s = .next (s.updateGain s.csr.ratio) := rfl

/-- The stored bit AUTO_MAKEUP as the condition of R214. -/
theorem getLsbD_zero_eq_decide (x : BitVec 1) : x.getLsbD 0 = decide (x = 1#1) := by
  rcases BitVec.eq_zero_or_eq_one x with rfl | rfl <;> rfl

/-- Settles O41: the condition on the register is the condition on its one bit. -/
theorem gainUpdateComputesMakeupGain : Obligations.GainUpdateComputesMakeupGain := by
  unfold Obligations.GainUpdateComputesMakeupGain
  intro s r g
  refine ⟨_, exec_gainUpdate s, fun _ => rfl, ?_⟩
  simp only [State.updateGain, makeupGain, getLsbD_zero_eq_decide, decide_eq_true_eq]
  rfl

/-! ## THR.CURVE (R212) -/

theorem exec_thrCurve (s : State) : exec .thrCurve s = .next s.thresholdCurve := rfl

theorem db2lin_of_reference {p : Params} (h : p.db2lin = .reference) (x : F32) :
    db2lin p x = numPow 0x41200000#32 (fDiv x 0x41A00000#32) := by
  simp only [db2lin, h]

/-- The fixed curve of the live slot in linear magnitude, bin 1 first (R212). -/
def State.fixedThresholds (s : State) : List F32 :=
  let binHz := fDiv s.latch.sampleRate (fOfNat s.liveSlot.W)
  (List.range (s.liveSlot.W / 2)).map fun j => db2lin s.params (curveDecibels s.csr.baseThreshold binHz (j + 1))

theorem State.length_fixedThresholds (s : State) : s.fixedThresholds.length = s.liveSlot.W / 2 := by
  simp only [State.fixedThresholds, List.length_map, List.length_range]

theorem State.elemAt_fixedThresholds {s : State} {b : Nat} (hlow : 1 ≤ b) (hhigh : b ≤ s.liveSlot.W / 2) :
    elemAt s.fixedThresholds (b - 1) =
      db2lin s.params
        (curveDecibels s.csr.baseThreshold (fDiv s.latch.sampleRate (fOfNat s.liveSlot.W)) b) := by
  have hlt : b - 1 < s.liveSlot.W / 2 := by omega
  rw [State.fixedThresholds, elemAt_map_range hlt, Nat.sub_add_cancel hlow]

/-- The threshold of every bin of a bank that has W/2 of them (R212). -/
theorem State.thresholdCurve_liveBecomes {s : State} (h : s.liveSlot.thr.length = s.liveSlot.W / 2) :
    LiveBecomes s { s.liveSlot with thr := s.fixedThresholds } s.thresholdCurve := by
  rw [State.fixedThresholds, ← mapFirst_eq_map_range _ h]
  exact ⟨rfl, fun _ => rfl⟩

/-- Settles O40: the thresholds are the list of the fixed curve, read at the bin's index. -/
theorem thresholdCurveFallsThreeDecibelsPerOctave : Obligations.ThresholdCurveFallsThreeDecibelsPerOctave := by
  unfold Obligations.ThresholdCurveFallsThreeDecibelsPerOctave
  intro s hlen
  refine ⟨s.fixedThresholds, _, exec_thrCurve s, State.thresholdCurve_liveBecomes hlen, s.length_fixedThresholds, ?_⟩
  intro b hlow hhigh binHz oct tdb
  have hbin : elemAt s.fixedThresholds (b - 1) = db2lin s.params tdb := State.elemAt_fixedThresholds hlow hhigh
  exact ⟨hbin, fun href => hbin.trans (db2lin_of_reference href tdb)⟩

/-! ## SET.UPDATE (R210, R211, R213, R215) -/

theorem exec_setUpdate (s : State) : exec .setUpdate s = .next (s.settingsUpdate s.op.forced) := rfl

/-- Settles O39: on a bank of W/2 instances the loops of the update write whole lists. -/
theorem settingsUpdateRecomputesInPlace : Obligations.SettingsUpdateRecomputesInPlace := by
  unfold Obligations.SettingsUpdateRecomputesInPlace
  intro s hthr hratio hcteA hcteR B K rate binHz
  have hnext := (exec_setUpdate s).trans (congrArg Host.Outcome.next (State.settingsUpdate_eq s.op.forced s))
  refine ⟨_, hnext, fun _ => rfl, ?_⟩
  simp only [State.updatedSlot, mapFirst_const _ hratio, mapFirst_const _ hcteA, mapFirst_const _ hcteR,
    mapFirst_eq_map_range _ hthr, Bool.or_eq_true, Bool.not_eq_true']
  rfl

/-! ## RT's line 7 as one update (R190, R210, R313, log 2) -/

/-- RT's working registers and the model's operand registers replaced. No part of the settings update reads them, so
every part commutes with the replacement. -/
def State.withRegs (rt : RtRegs) (op : OpRegs) (s : State) : State := { s with rt := rt, op := op }

section
variable (rt : RtRegs) (op : OpRegs) (s : State)

theorem State.thresholdCurve_withRegs :
    (s.withRegs rt op).thresholdCurve = s.thresholdCurve.withRegs rt op := rfl

/-- The curve's condition reads SC_EFF alone of the state (R210). -/
theorem State.curveIfFixed_withRegs (forced : Bool) :
    (s.withRegs rt op).curveIfFixed forced = (s.curveIfFixed forced).withRegs rt op := by
  simp only [State.curveIfFixed, State.thresholdCurve_withRegs]
  exact (apply_ite (State.withRegs rt op) _ _ _).symm

/-- The update leaves RT's and the model's own registers (R210, R215). -/
theorem State.settingsUpdate_withRegs (forced : Bool) :
    (s.withRegs rt op).settingsUpdate forced = (s.settingsUpdate forced).withRegs rt op := by
  rw [State.settingsUpdate_eq, State.settingsUpdate_eq]
  rfl

/-! The six lines, each as its part of the update beside the registers it moves. -/

theorem State.rtUpdOverlap_withRegs (h : (s.rt.changed || s.rt.swapped) = true) :
    s.rtUpdOverlap = s.copyOverlap.withRegs { s.rt with pc := .updRatio } s.op :=
  State.rtUpdOverlap_taken h

theorem State.rtStep_updRatio_withRegs :
    (s.withRegs { rt with pc := .updRatio } op).rtStep =
      (s.setRatio s.csr.ratio).withRegs { rt with pc := .updAttack } { op with ratio := s.csr.ratio } := rfl

theorem State.rtStep_updAttack_withRegs :
    (s.withRegs { rt with pc := .updAttack } op).rtStep =
      s.withRegs { rt with pc := .updRelease } { op with attackMs := s.csr.attackMs } := rfl

theorem State.rtStep_updRelease_withRegs :
    (s.withRegs { rt with pc := .updRelease } op).rtStep =
      (s.setTimes op.attackMs s.csr.releaseMs).withRegs { rt with pc := .updCurve }
        { op with releaseMs := s.csr.releaseMs } := rfl

theorem State.rtStep_updCurve_withRegs :
    (s.withRegs { rt with pc := .updCurve } op).rtStep =
      (s.curveIfFixed rt.swapped).withRegs { rt with pc := .updGain } op :=
  congrArg (State.goto .updGain) (State.curveIfFixed_withRegs { rt with pc := .updCurve } op s rt.swapped)

theorem State.rtStep_updGain_withRegs :
    (s.withRegs { rt with pc := .updGain } op).rtStep =
      (s.updateGain op.ratio).withRegs { rt with pc := .zfill } op := rfl

end

/-- RT's line 7, from the copy of OVERLAP_FACTOR to the gain, is the settings update of R210. -/
theorem State.rtSteps_settingsUpdate {s : State} (hpc : s.rt.pc = .updOverlap)
    (h : (s.rt.changed || s.rt.swapped) = true) :
    s.rtSteps 6 =
      (s.settingsUpdate s.rt.swapped).withRegs { s.rt with pc := .zfill }
        { s.op with ratio := s.csr.ratio, attackMs := s.csr.attackMs, releaseMs := s.csr.releaseMs } := by
  have hfirst : s.rtStep = s.copyOverlap.withRegs { s.rt with pc := .updRatio } s.op :=
    (State.rtStep_updOverlap hpc).trans (s.rtUpdOverlap_withRegs h)
  simp only [State.rtSteps]
  rw [hfirst, State.rtStep_updRatio_withRegs, State.rtStep_updAttack_withRegs, State.rtStep_updRelease_withRegs,
    State.rtStep_updCurve_withRegs, State.rtStep_updGain_withRegs]
  rfl

/-- Settles O42: both sides are the settings update of `s`, and differ in the registers it does not touch. -/
theorem steppedUpdateEqualsAtomicUpdate : Obligations.SteppedUpdateEqualsAtomicUpdate := by
  unfold Obligations.SteppedUpdateEqualsAtomicUpdate
  intro s hpc hask
  have hatomic : exec .setUpdate { s with op := { s.op with forced := s.rt.swapped } } =
      .next ((s.settingsUpdate s.rt.swapped).withRegs s.rt { s.op with forced := s.rt.swapped }) :=
    congrArg Host.Outcome.next (s.settingsUpdate_withRegs s.rt { s.op with forced := s.rt.swapped } s.rt.swapped)
  exact ⟨_, hatomic, State.rtSteps_settingsUpdate hpc ((Bool.or_eq_true _ _).mpr hask)⟩

end Sys2Proof.Machine

/-! PROOFS. The statements about the configuration swapper: CFG.CLAIM, CFG.STAGE, CFG.PUBLISH, CFG.FETCH and CFG.RETIRE,
the rebuild from claim to swap, and what changes LATENCY (spec 46_swapper.md R230 to R239). -/

namespace Sys2Proof.Machine

/-! ## The micro-operations of BG and the swap point (R231 to R236) -/

theorem exec_cfgClaim (s : State) : exec .cfgClaim s = .next s.claim := rfl

theorem exec_cfgStage (s : State) : exec .cfgStage s = .next s.stage := rfl

theorem exec_cfgPublish (s : State) : exec .cfgPublish s = .next s.publish := rfl

theorem exec_cfgRetire (s : State) : exec .cfgRetire s = .next s.retire := rfl

/-- `1 - i`, as R232 and R235 write it. -/
theorem SlotIx.other_eq_ite (i : SlotIx) : i.other = if i = .s0 then .s1 else .s0 := by
  cases i <;> rfl

/-- Settles O43: the claim's target is the other slot. -/
theorem claimWithdrawsAndTakesTheSpare : Obligations.ClaimWithdrawsAndTakesTheSpare := by
  unfold Obligations.ClaimWithdrawsAndTakesTheSpare
  intro s
  refine ⟨s.claim, exec_cfgClaim s, fun _ => rfl, ?_⟩
  rw [← SlotIx.other_eq_ite]
  rfl

/-- The first coefficient of the reference table is 0.0 (R46). -/
theorem elemAt_winTable_zero {p : Params} (hwin : p.win = .reference) {W : Nat} (hW : 0 < W) :
    elemAt (winTable p W) 0 = fZero := by
  rw [winTable, elemAt_map_range hW, winCoefficient, hwin]
  exact refWin_zero W

/-- Settles O44: BUILD gives every field, and coefficient 0 of the reference table is that of the formula at 0. -/
theorem stageBuildsTheTarget : Obligations.StageBuildsTheTarget := by
  unfold Obligations.StageBuildsTheTarget
  intro s W nch _ _
  have hW : 0 < W := Nat.two_pow_pos _
  refine ⟨s.stage, exec_cfgStage s, fun _ => rfl, rfl, fun hwin => ⟨hW, ?_⟩⟩
  have htarget : s.stage.slot s.bg.target = Slot.build s.params W s.bg.kL.toNat nch :=
    State.slot_setSlot_same s.bg.target _ s
  rw [htarget]
  exact elemAt_winTable_zero hwin hW

/-- The swap point with a published slot, as the whole next state (R235). -/
theorem State.fetch_of_ready {s : State} (h : s.ready = true) :
    s.fetch = { s.setSlot s.live { s.liveSlot with status := .retired } with
      live := s.live.other, ready := false, rt := { s.rt with swapped := true } } :=
  if_pos h

/-- Settles O45: the swap point on both values of READY. -/
theorem publishMarksReadyAndFetchSwaps : Obligations.PublishMarksReadyAndFetchSwaps := by
  unfold Obligations.PublishMarksReadyAndFetchSwaps
  intro s
  refine ⟨⟨s.publish, exec_cfgPublish s, fun _ => rfl, rfl⟩, fun hr => ?published, fun hr => ?unpublished⟩
  case published =>
    obtain ⟨-, hslot, -, -⟩ := State.fetch_published s hr
    have hfetch := State.fetch_of_ready hr
    refine ⟨s.fetch, exec_cfgFetch s, fun _ => by rw [hfetch]; rfl, ?_, hslot⟩
    rw [← SlotIx.other_eq_ite]
    exact hfetch
  case unpublished =>
    have hfetch := State.fetch_unpublished s hr
    exact ⟨s.fetch, exec_cfgFetch s, fun _ => by rw [hfetch]; rfl, hfetch⟩

/-- A claim is enabled exactly in BG_IDLE with a notification pending in a prepared engine (R231). -/
theorem State.claimEnabled_iff {s : State} :
    s.claimEnabled = true ↔ s.bg.pc = .idle ∧ s.windowPending = true ∧ s.runState = .prepared := by
  simp only [State.claimEnabled, Bool.and_eq_true, beq_iff_eq, and_assoc]

/-- The retirement is enabled in BG_IDLE where no claim is, with a retired spare slot and nothing published (R231). -/
theorem State.retireEnabled_iff {s : State} :
    s.retireEnabled = true ↔
      s.bg.pc = .idle ∧ ¬ s.claimEnabled = true ∧ s.spareSlot.status = .retired ∧ s.ready = false := by
  simp only [State.retireEnabled, Bool.and_eq_true, beq_iff_eq, Bool.not_eq_true', Bool.not_eq_true, and_assoc]

/-- Settles O46: the hypotheses are the enabling condition. -/
theorem retireEmptiesTheSpare : Obligations.RetireEmptiesTheSpare := by
  unfold Obligations.RetireEmptiesTheSpare
  intro s hidle hclaim hstatus hready
  have hnone : ¬ s.claimEnabled = true := fun h => hclaim (State.claimEnabled_iff.mp h).2
  have hretire : s.retire = s.setSlot s.live.other { s.spareSlot with status := .empty } :=
    if_pos (State.retireEnabled_iff.mpr ⟨hidle, hnone, hstatus, hready⟩)
  exact ⟨s.retire, exec_cfgRetire s, fun _ => by rw [hretire]; rfl, hretire⟩

/-! ## The rebuild (R231 to R235) -/

/-- LATENCY reads RUN_STATE, as far as it tells UNPREPARED from the rest, and the live slot's window size (R42). -/
theorem State.latencyWord_congr {s t : State} (hr : t.runState = s.runState) (hW : t.liveSlot.W = s.liveSlot.W) :
    t.latencyWord = s.latencyWord := by
  rw [State.latencyWord_eq_ite, State.latencyWord_eq_ite, hr, hW]

/-- With a configuration LATENCY is the live slot's window size (R42). -/
theorem State.latencyWord_of_ne_unprepared {s : State} (h : s.runState ≠ .unprepared) :
    s.latencyWord = BitVec.ofNat 32 s.liveSlot.W := by
  rw [State.latencyWord_eq_ite, if_neg h]

theorem State.fetch_runState (s : State) : s.fetch.runState = s.runState :=
  s.rtFetch_fetched.runState

/-- Settles O47: the three steps as one state, and the swap point on it. -/
theorem rebuildGoesLiveAtTheNextFetch : Obligations.RebuildGoesLiveAtTheNextFetch := by
  unfold Obligations.RebuildGoesLiveAtTheNextFetch
  intro s _ hprepared hidle hpending u
  have hu : u = _ := State.rebuild_eq (State.claimEnabled_iff.mpr ⟨hidle, hpending, hprepared⟩)
  have hlive : u.liveSlot = s.liveSlot := by
    rw [hu]
    exact State.liveSlot_setSlot_spare _ s
  have hspare : u.spareSlot =
      Slot.build s.params (2 ^ s.csr.windowOrder.toNat) s.csr.overlapFactor.toNat s.latch.nch.toNat := by
    rw [hu]
    exact State.spareSlot_setSlot_spare _ s
  have hready : u.ready = true := by rw [hu]
  have hside : u.live = s.live := by rw [hu]; rfl
  have hrun : u.runState = s.runState := by rw [hu]; rfl
  refine ⟨hready, by rw [hu], by rw [hu], hlive, hside, State.latencyWord_congr hrun (by rw [hlive]),
    by rw [hu]; rfl, by rw [hu]; rfl, by rw [hu]; rfl, fun _ => by rw [hu]; rfl, u.fetch, exec_cfgFetch u, ?_⟩
  obtain ⟨hswapped, hnew, hold, -⟩ := State.fetch_published u hready
  have hfetched : u.fetch.runState ≠ .unprepared := by
    rw [u.fetch_runState, hrun, hprepared]
    decide
  refine ⟨by rw [hswapped, hside], hnew.trans hspare, ?_, by rw [hold]⟩
  rw [State.latencyWord_of_ne_unprepared hfetched, hnew, hspare]
  rfl

/-! ## What changes LATENCY (R239, R42, R250, R251) -/

section
variable {s t : State}

/-- RT's lines but the fetch and the end of the block change neither RUN_STATE nor the window size. -/
theorem RtKeeps.latencyWord_eq (k : RtKeeps s t) : t.latencyWord = s.latencyWord :=
  State.latencyWord_congr k.runState_eq k.window

/-- BG works on the slot LATENCY does not read (R57). -/
theorem BgKeeps.latencyWord_eq (k : BgKeeps s t) : t.latencyWord = s.latencyWord := by
  refine State.latencyWord_congr ?_ ?_
  · rw [k.state_eq]; rfl
  · rw [k.state_eq]
    exact congrArg Slot.W (State.liveSlot_setSlot_spare t.spareSlot s)

/-- Every error but Assert is recorded in ERR and nothing more (R271). -/
theorem State.raise_latencyWord {e : BlockError} (he : e ≠ .assert) : (s.raise e).latencyWord = s.latencyWord := by
  rw [State.raise_eq e he]
  rfl

/-- The end of a block keeps the configuration, even where Assert enters FATAL (R291). -/
theorem State.rtCheck_latencyWord (hu : s.runState ≠ .unprepared) : s.rtCheck.latencyWord = s.latencyWord := by
  rw [State.latencyWord_of_ne_unprepared hu]
  unfold State.rtCheck State.checkConsumed
  split_ifs
  · rfl
  · exact State.latencyWord_of_ne_unprepared hu

/-- The fetch swapped: a published slot went live, and LATENCY reads its window size (R235, R239). -/
structure Swapped (s t : State) : Prop where
  at_fetch : s.rt.pc = .fetch
  published : s.ready = true
  live : t.live = s.live.other
  latency : t.latencyWord = BitVec.ofNat 32 s.spareSlot.W

theorem State.rtFetch_latencyWord (hpc : s.rt.pc = .fetch) (hu : s.runState ≠ .unprepared) :
    s.rtFetch.latencyWord = s.latencyWord ∨ Swapped s s.rtFetch := by
  obtain ⟨-, -, hlive, hslot, -, -, -, hrun, -⟩ := s.rtFetch_fetched
  cases hr : s.ready with
  | false =>
    rw [hr] at hslot
    exact .inl (State.latencyWord_congr hrun (by rw [hslot]; rfl))
  | true =>
    rw [hr] at hslot hlive
    refine .inr ⟨hpc, hr, hlive, ?_⟩
    rw [State.latencyWord_of_ne_unprepared (by rw [hrun]; exact hu), hslot]
    rfl

theorem State.Sound.rtStep_latencyWord (h : s.Sound) :
    s.rtStep.latencyWord = s.latencyWord ∨ Swapped s s.rtStep := by
  by_cases hidle : s.rt.pc = .idle
  · rw [State.rtStep_idle hidle]
    exact .inl rfl
  have hu : s.runState ≠ .unprepared := by
    rw [(h.rt_prepared hidle).2]
    decide
  by_cases hfetch : s.rt.pc = .fetch
  · rw [State.rtStep_fetch hfetch]
    exact State.rtFetch_latencyWord hfetch hu
  by_cases hcheck : s.rt.pc = .check
  · rw [State.rtStep_check hcheck]
    exact .inl (State.rtCheck_latencyWord hu)
  · exact .inl (State.rtStep_rtKeeps s hfetch hcheck).latencyWord_eq

/-! ### HOST's accesses -/

/-- Where an instruction or an access answers a next state, LATENCY reads there as in `s`. -/
def LatencyKept (s : State) (o : Host.Outcome State Fault Refusal) : Prop :=
  ∀ t, o = .next t → t.latencyWord = s.latencyWord

theorem latencyKept_next (h : t.latencyWord = s.latencyWord) : LatencyKept s (.next t) := by
  intro u hu
  cases hu
  exact h

theorem latencyKept_raise {e : BlockError} (he : e ≠ .assert) : LatencyKept s (.next (s.raise e)) :=
  latencyKept_next (State.raise_latencyWord he)

theorem acceptBlock_latencyKept (bypass : Bool) (M : Nat) (s : State) : LatencyKept s (acceptBlock bypass M s) := by
  unfold acceptBlock
  cases he : s.blockError M with
  | some e => exact latencyKept_raise (State.blockError_ne_assert he)
  | none => exact latencyKept_next rfl

/-- Of the commands only PREPARE and RELEASE change what LATENCY reads (R250, R251). -/
theorem exec_command_latencyKept {i : Instr} (hc : i.isCommand = true) (hp : i ≠ .prepare) (hr : i ≠ .release)
    (s : State) : LatencyKept s (exec i s) := by
  cases i with
  | nop => exact latencyKept_next rfl
  | prepare => exact absurd rfl hp
  | release => exact absurd rfl hr
  | process M => exact acceptBlock_latencyKept false M s
  | processBypassed M => exact acceptBlock_latencyKept true M s
  | notifySettings => exact latencyKept_next (by split_ifs <;> rfl)
  | notifyWindow => exact latencyKept_next (by split_ifs <;> rfl)
  | _ => cases hc

/-- The words of PREPARE and RELEASE. -/
def MovesLatency (w : Word) : Prop := decode w = .ok .prepare ∨ decode w = .ok .release

theorem issueCommand_latencyKept {w : Word} (hw : ¬ MovesLatency w) (s : State) :
    LatencyKept s (issueCommand w s) := by
  obtain ⟨hp, hr⟩ := not_or.mp hw
  unfold issueCommand
  cases hi : decodeCommand w with
  | none => exact latencyKept_raise (by decide)
  | some i =>
    obtain ⟨hc, hdec⟩ := decodeCommand_eq_some hi
    refine exec_command_latencyKept hc ?_ ?_ s
    · rintro rfl
      exact hp hdec
    · rintro rfl
      exact hr hdec

/-- An access to the register CMD is a word access at address 8 (R29, R74). -/
theorem eq_of_targetAt_cmd {p : Params} {addr : Word} {width : Nat} (hok : accessOk addr width = true)
    (ht : targetAt p addr.toNat = .register .cmd) : addr = 0x00000008#32 ∧ width = 4 :=
  ⟨BitVec.eq_of_toNat_eq (targetAt_register ht).symm, (accessOk_iff.mp hok).1⟩

/-- A write of the block sample memory changes the memory, the writes RT has not seen, and the counter of free values
(R87, log 11). -/
theorem State.hostStore_latencyWord (a : Nat) (v : Word) (s : State) :
    (s.hostStore a v).latencyWord = s.latencyWord := by
  unfold State.hostStore
  split_ifs <;> rfl

/-- HOST's write changes what LATENCY reads only as PREPARE or RELEASE written to CMD. -/
theorem hostWrite_latencyKept (addr : Word) (width : Nat) (v : Word) (s : State) :
    LatencyKept s (hostWrite addr width v s) ∨ (addr = 0x00000008#32 ∧ width = 4 ∧ MovesLatency v) := by
  have bus : LatencyKept s (.next (s.raise .bus)) := latencyKept_raise (by decide)
  unfold hostWrite
  split_ifs with hbad
  · exact .inl bus
  have hok : accessOk addr width = true := by simpa using hbad
  cases ht : targetAt s.params addr.toNat with
  | register r =>
    simp only
    split_ifs with hcmd
    · subst hcmd
      obtain ⟨haddr, hwidth⟩ := eq_of_targetAt_cmd hok ht
      by_cases hv : MovesLatency v
      · exact .inr ⟨haddr, hwidth, hv⟩
      · exact .inl (issueCommand_latencyKept hv s)
    · exact .inl (latencyKept_next (by rw [State.writeReg_eq]; rfl))
  | reserved => exact .inl (latencyKept_next rfl)
  | sample => exact .inl (latencyKept_next (State.hostStore_latencyWord addr.toNat v s))
  | unmapped => exact .inl bus

theorem State.hostRead_latencyWord (addr : Word) (width : Nat) (s : State) :
    (s.hostRead addr width).latencyWord = s.latencyWord := by
  have bus : ({ s.raise .bus with hostData := 0#32 } : State).latencyWord = s.latencyWord := rfl
  unfold State.hostRead
  by_cases hbad : (!accessOk addr width) = true
  · rw [if_pos hbad]
    exact bus
  rw [if_neg hbad]
  cases targetAt s.params addr.toNat with
  | register r => rfl
  | reserved => rfl
  | sample =>
    simp only
    split_ifs <;> rfl
  | unmapped => exact bus

/-! ### Every step -/

/-- With no entry in the schedule only RT's fetch changes what LATENCY reads. -/
theorem State.Sound.unscheduled_latencyWord (h : s.Sound) :
    s.unscheduled.latencyWord = s.latencyWord ∨ (s.rtBusy = true ∧ Swapped s s.unscheduled) := by
  unfold State.unscheduled
  split_ifs with hbusy
  · exact h.rtStep_latencyWord.imp_right fun hswap => ⟨hbusy, hswap⟩
  · exact .inl h.bgStep_bgKeeps.latencyWord_eq
  · exact .inl rfl

/-- Which entries of a hardware schedule may change what LATENCY reads. -/
theorem State.Sound.perform_latency (h : s.Sound) {e : Event} (he : e.isHardware = true)
    (ht : Machine.perform e s = .next t) :
    t.latencyWord = s.latencyWord ∨ (e = .rt ∧ Swapped s t) ∨
      (∃ w : Word, e = .hostWrite 0x00000008#32 4 w ∧ MovesLatency w) ∨ e = .reset := by
  cases e with
  | hostWrite addr width v =>
    rcases hostWrite_latencyKept addr width v s with hkept | ⟨rfl, rfl, hv⟩
    · exact .inl (hkept t ht)
    · exact .inr (.inr (.inl ⟨v, rfl, hv⟩))
  | hostRead addr width => exact .inl (latencyKept_next (State.hostRead_latencyWord addr width s) t ht)
  | rt =>
    cases ht
    exact h.rtStep_latencyWord.imp_right fun hswap => .inl ⟨rfl, hswap⟩
  | bg => exact .inl (latencyKept_next h.bgStep_bgKeeps.latencyWord_eq t ht)
  | issue w => cases he
  | reset => exact .inr (.inr (.inr rfl))

end

/-- Settles O54, by cases on the schedule; taking an entry off it leaves everything the statement speaks of. -/
theorem latencyChangesOnlyAtTheSwapOrACommand : Obligations.LatencyChangesOnlyAtTheSwapOrACommand := by
  unfold Obligations.LatencyChangesOnlyAtTheSwapOrACommand
  intro s t h hstep
  cases ha : s.agenda with
  | nil =>
    have ht : t = s.unscheduled := by
      simp only [step, ha] at hstep
      cases hstep
      rfl
    rcases h.unscheduled_latencyWord with hkept | ⟨hbusy, hpc, hready, hlive, hlatency⟩
    · exact .inl (by rw [ht, hkept])
    · rw [← ht] at hlive hlatency
      exact .inr (.inl ⟨.inr ⟨rfl, hbusy⟩, hpc, hready, hlive, hlatency⟩)
  | cons e rest =>
    obtain ⟨he, hrest⟩ := h.takeEvent ha
    rw [step_of_agenda ha] at hstep
    rcases hrest.perform_latency he hstep with
      hkept | ⟨rfl, hpc, hready, hlive, hlatency⟩ | ⟨w, rfl, hw⟩ | rfl
    · exact .inl hkept
    · exact .inr (.inl ⟨.inl rfl, hpc, hready, hlive, hlatency⟩)
    · exact .inr (.inr (.inl ⟨w, rfl, hw⟩))
    · exact .inr (.inr (.inr rfl))

end Sys2Proof.Machine

/-! PROOFS. The statements about HOST's commands NOP, PREPARE, RELEASE and the notifications (spec 47_host_commands.md
R250 to R253). -/

namespace Sys2Proof.Machine

/-! ## NOP and the notifications (R252, R253, R230) -/

theorem exec_nop (s : State) : exec .nop s = .next s := rfl

/-- Settles O6: the row of NOP answers the state it was given. -/
theorem nopChangesNothing : Obligations.NopChangesNothing := by
  unfold Obligations.NopChangesNothing
  exact exec_nop

section
variable {s : State}

theorem exec_notifySettings_of_prepared (h : s.runState = .prepared) :
    exec .notifySettings s = .next { s with settingsChanged := true } :=
  congrArg Host.Outcome.next (if_pos h)

theorem exec_notifySettings_of_ne_prepared (h : s.runState ≠ .prepared) : exec .notifySettings s = .next s :=
  congrArg Host.Outcome.next (if_neg h)

theorem exec_notifyWindow_of_prepared (h : s.runState = .prepared) :
    exec .notifyWindow s = .next { s with windowPending := true } :=
  congrArg Host.Outcome.next (if_pos h)

theorem exec_notifyWindow_of_ne_prepared (h : s.runState ≠ .prepared) : exec .notifyWindow s = .next s :=
  congrArg Host.Outcome.next (if_neg h)

end

/-- Settles O10, by RUN_STATE for each notification. -/
theorem notifySetsItsFlagOnlyWhenPrepared : Obligations.NotifySetsItsFlagOnlyWhenPrepared := by
  unfold Obligations.NotifySetsItsFlagOnlyWhenPrepared
  intro s
  exact ⟨fun h => ⟨exec_notifySettings_of_prepared h, exec_notifyWindow_of_prepared h⟩,
    fun h => ⟨exec_notifySettings_of_ne_prepared h, exec_notifyWindow_of_ne_prepared h⟩⟩

/-! ## RELEASE (R251) -/

/-- `raise Busy` sets bit 5 of ERR and LAST_CODE 6, and does nothing else (R271, R276). -/
theorem State.raise_busy (s : State) : s.raise .busy = { s with err := ⟨s.err.causes ||| 0x20#8, 6#8⟩ } :=
  State.raise_eq .busy (by decide) s

/-- `raise NotPrepared` sets bit 3 of ERR and LAST_CODE 4, and does nothing else (R271, R277). -/
theorem State.raise_notPrepared (s : State) :
    s.raise .notPrepared = { s with err := ⟨s.err.causes ||| 0x08#8, 4#8⟩ } :=
  State.raise_eq .notPrepared (by decide) s

/-- A slot that is EMPTY already stays as it is when it is freed (R53, log 14). -/
theorem Slot.setEmpty_of_empty {S : Slot} (h : S.status = .empty) : { S with status := .empty } = S := by
  rw [← h]

section
variable {s : State}

theorem exec_release_of_busy (hb : s.rtBusy = true) : exec .release s = .next (s.raise .busy) :=
  if_pos hb

theorem exec_release_of_fatal (hb : s.rtBusy = false) (hf : s.runState = .fatal) :
    exec .release s = .next (s.raise .notPrepared) :=
  (if_neg (Bool.eq_false_iff.mp hb)).trans (if_pos hf)

theorem exec_release_accepted (hb : s.rtBusy = false) (hf : s.runState ≠ .fatal) :
    exec .release s = .next s.releaseRun :=
  (if_neg (Bool.eq_false_iff.mp hb)).trans (if_neg hf)

/-- RT is idle in UNPREPARED, since only a prepared engine runs a block (R255). -/
theorem State.Sound.rtBusy_of_unprepared (h : s.Sound) (hu : s.runState = .unprepared) : s.rtBusy = false := by
  refine Bool.eq_false_iff.mpr fun hb => ?_
  rw [h.busy_prepared hb] at hu
  cases hu

/-- BG has nothing under way in UNPREPARED (R232, R251). -/
theorem State.Sound.bgIdle_of_unprepared (h : s.Sound) (hu : s.runState = .unprepared) : s.bg.pc = .idle := by
  by_contra hpc
  exact (h.target_spare hpc).2 hu

/-- Nothing is published in UNPREPARED (R26). -/
theorem State.Sound.notReady_of_unprepared (h : s.Sound) (hu : s.runState = .unprepared) : s.ready = false :=
  Bool.eq_false_iff.mpr fun hr => (h.ready_idle hr).2 hu

/-- All that RELEASE writes stands already in a sound UNPREPARED engine (R255). -/
theorem State.Sound.releaseRun_of_unprepared (h : s.Sound) (hu : s.runState = .unprepared) : s.releaseRun = s := by
  obtain ⟨hslot0, hslot1⟩ := h.unprepared_empty hu
  obtain ⟨hsettings, hwindow, hlive⟩ := h.unprepared_flags hu
  have hready := h.notReady_of_unprepared hu
  have hbg : { s.bg with pc := .idle } = s.bg := by rw [← h.bgIdle_of_unprepared hu]
  simp only [State.releaseRun, State.abandonRebuild, Slot.setEmpty_of_empty hslot0, Slot.setEmpty_of_empty hslot1, hbg]
  clear h hbg hslot0 hslot1
  cases s
  cases hu
  cases hsettings
  cases hwindow
  cases hlive
  cases hready
  rfl

end

/-- Settles O9, by the checks of RELEASE in their order. -/
theorem releaseFreesBothSlots : Obligations.ReleaseFreesBothSlots := by
  unfold Obligations.ReleaseFreesBothSlots
  intro s
  refine ⟨fun hb => ?busy, fun hb hf => ?fatal, fun hb hf => ?accepted, fun h hu => ?unprepared⟩
  case busy => rw [exec_release_of_busy hb, State.raise_busy]
  case fatal => rw [exec_release_of_fatal hb hf, State.raise_notPrepared]
  case accepted => exact ⟨s.releaseRun, exec_release_accepted hb hf, fun _ => rfl, rfl, rfl, rfl⟩
  case unprepared =>
    have hf : s.runState ≠ .fatal := by rw [hu]; decide
    rw [exec_release_accepted (h.rtBusy_of_unprepared hu) hf, h.releaseRun_of_unprepared hu]

/-! ## PREPARE (R250) -/

/-- The configuration PREPARE makes live: BUILD's (R233), with what the forced settings update (R210 to R212) puts in
its bank. -/
def State.firstConfiguration (s : State) : Slot :=
  let W := 2 ^ s.csr.windowOrder.toNat
  let K := s.csr.overlapFactor.toNat
  let rate := fDiv s.csr.sampleRate (fOfNat (interval W K))
  let binHz := fDiv s.csr.sampleRate (fOfNat W)
  { Slot.build s.params W K s.csr.numCh.toNat with
    thr := (List.range (W / 2)).map fun j => db2lin s.params (curveDecibels s.csr.baseThreshold binHz (j + 1))
    ratio := List.replicate (W / 2) s.csr.ratio
    cteA := List.replicate (W / 2) (cmpCte s.params s.csr.attackMs rate)
    cteR := List.replicate (W / 2) (cmpCte s.params s.csr.releaseMs rate) }

/-- A bank just built has W/2 instances, so the loops of the update write all of it (R211, R212, R233). -/
theorem State.updatedSlot_firstEngine (s : State) : s.firstEngine.updatedSlot true = s.firstConfiguration := by
  have hlive : s.firstEngine.liveSlot =
      Slot.build s.params (2 ^ s.csr.windowOrder.toNat) s.csr.overlapFactor.toNat s.csr.numCh.toNat := rfl
  have hlength (W : Nat) : (List.replicate (W / 2) fZero).length = W / 2 := List.length_replicate
  simp only [State.updatedSlot, hlive, Slot.build, Bool.or_true, if_true, mapFirst_const _ (hlength _),
    mapFirst_eq_map_range _ (hlength _)]
  rfl

/-- All that an accepted PREPARE does (R250 lines 5 to 10). -/
theorem State.prepareRun_eq_firstConfiguration (s : State) :
    s.prepareRun =
      { s.firstEngine with
        slot0 := s.firstConfiguration
        gain :=
          makeupGain s.csr.overlapFactor.toNat s.csr.ratio (s.csr.autoMakeup.getLsbD 0) s.firstEngine.scEff } := by
  rw [State.prepareRun_eq, State.settingsUpdate_eq, State.updatedSlot_firstEngine]
  rfl

section
variable {s : State}

theorem State.prepareArgsOk_iff :
    s.prepareArgsOk = true ↔
      fIsFinite s.csr.sampleRate = true ∧ fLt fZero s.csr.sampleRate = true ∧
      1 ≤ s.csr.maxBlock.toNat ∧ s.csr.maxBlock.toNat ≤ s.params.maxBlock ∧
      1 ≤ s.csr.numCh.toNat ∧ s.csr.numCh.toNat ≤ s.params.maxCh := by
  simp only [State.prepareArgsOk, Bool.and_eq_true, decide_eq_true_eq, and_assoc]

/-- The checks of PREPARE pass on an idle engine with arguments in range and a legal layout (R250 lines 1 to 4). -/
theorem State.prepareError_eq_none (hb : s.rtBusy = false) (hf : s.runState ≠ .fatal) (hargs : s.prepareArgsOk = true)
    (hlayout : s.csr.scNumCh = 0#32 ∨ s.csr.scNumCh = s.csr.numCh) : s.prepareError = none := by
  have hlegal : ¬ (s.csr.scNumCh ≠ 0#32 ∧ s.csr.scNumCh ≠ s.csr.numCh) :=
    fun ⟨hbus, hdiffers⟩ => hlayout.elim hbus hdiffers
  simp only [State.prepareError, hb, hf, hargs, if_neg hlegal, Bool.not_true, Bool.false_eq_true, if_false]

theorem exec_prepare_accepted (h : s.prepareError = none) : exec .prepare s = .next s.prepareRun := by
  show execPrepare s = _
  simp only [execPrepare, h]

end

/-- Settles O7: the checks pass, and BUILD followed by the forced update is the slot the statement writes out. -/
theorem prepareEstablishesEngine : Obligations.PrepareEstablishesEngine := by
  unfold Obligations.PrepareEstablishesEngine
  intro s hb hf hfinite hpositive hblock hblockMax hch hchMax hlayout W K nch sc rate ring slot
  have hargs := State.prepareArgsOk_iff.mpr ⟨hfinite, hpositive, hblock, hblockMax, hch, hchMax⟩
  have hnext : exec .prepare s = _ :=
    (exec_prepare_accepted (State.prepareError_eq_none hb hf hargs hlayout)).trans
      (congrArg Host.Outcome.next s.prepareRun_eq_firstConfiguration)
  refine ⟨hnext, fun t ht a => ?_⟩
  rw [hnext] at ht
  cases ht
  rfl

end Sys2Proof.Machine

/-! PROOFS. The statements about errors and FATAL: which commands are refused and what a refusal records (spec
60_exceptions.md R271 to R281), and that only the external reset leaves FATAL (R291). -/

namespace Sys2Proof.Machine

/-! ## What the errors of a refused command record (R270, R271) -/

/-- `raise Layout` sets bit 0 of ERR and LAST_CODE 1, and does nothing else (R271, R272). -/
theorem State.raise_layout (s : State) : s.raise .layout = { s with err := ⟨s.err.causes ||| 0x01#8, 1#8⟩ } :=
  State.raise_eq .layout (by decide) s

/-- `raise BlockLen` sets bit 4 of ERR and LAST_CODE 5, and does nothing else (R271, R278). -/
theorem State.raise_blockLen (s : State) : s.raise .blockLen = { s with err := ⟨s.err.causes ||| 0x10#8, 5#8⟩ } :=
  State.raise_eq .blockLen (by decide) s

/-- `raise PrepareArg` sets bit 6 of ERR and LAST_CODE 7, and does nothing else (R271, R279). -/
theorem State.raise_prepareArg (s : State) : s.raise .prepareArg = { s with err := ⟨s.err.causes ||| 0x40#8, 7#8⟩ } :=
  State.raise_eq .prepareArg (by decide) s

/-! ## When a command is refused (R281) -/

section
variable {s : State} {M : Nat} {e : BlockError}

theorem exec_prepare_refused (h : s.prepareError = some e) : exec .prepare s = .next (s.raise e) := by
  show execPrepare s = _
  simp only [execPrepare, h]

theorem State.prepareError_of_busy (hb : s.rtBusy = true) : s.prepareError = some .busy :=
  if_pos hb

theorem State.prepareError_of_fatal (hb : s.rtBusy = false) (hf : s.runState = .fatal) :
    s.prepareError = some .notPrepared := by
  simp [State.prepareError, hb, hf]

/-- The arguments are checked before the layout (R279). -/
theorem State.prepareError_of_badArgs (hb : s.rtBusy = false) (hf : s.runState ≠ .fatal)
    (hargs : s.prepareArgsOk = false) : s.prepareError = some .prepareArg := by
  simp [State.prepareError, hb, hf, hargs]

theorem State.prepareError_of_badLayout (hb : s.rtBusy = false) (hf : s.runState ≠ .fatal)
    (hargs : s.prepareArgsOk = true) (hlayout : s.csr.scNumCh ≠ 0#32 ∧ s.csr.scNumCh ≠ s.csr.numCh) :
    s.prepareError = some .layout := by
  simp [State.prepareError, hb, hf, hargs, hlayout]

/-- The ways an argument of PREPARE is out of range (R279). -/
theorem State.prepareArgsOk_eq_false_iff :
    s.prepareArgsOk = false ↔
      fIsFinite s.csr.sampleRate = false ∨ fLt fZero s.csr.sampleRate = false ∨
      s.csr.maxBlock = 0#32 ∨ s.params.maxBlock < s.csr.maxBlock.toNat ∨
      s.csr.numCh = 0#32 ∨ s.params.maxCh < s.csr.numCh.toNat := by
  have hzero (x : Word) : x = 0#32 ↔ x.toNat < 1 := by
    rw [← BitVec.toNat_inj, Nat.lt_one_iff]
    rfl
  simp only [State.prepareArgsOk, Bool.and_eq_false_iff, decide_eq_false_iff_not, Nat.not_le, hzero, or_assoc]

/-- PREPARE passes its checks only outside FATAL (R277). -/
theorem State.ne_fatal_of_prepareError_none (h : s.prepareError = none) : s.runState ≠ .fatal := by
  intro hf
  cases hb : s.rtBusy with
  | true => cases h.symm.trans (State.prepareError_of_busy hb)
  | false => cases h.symm.trans (State.prepareError_of_fatal hb hf)

theorem acceptBlock_refused (h : s.blockError M = some e) (bypass : Bool) :
    acceptBlock bypass M s = .next (s.raise e) := by
  simp only [acceptBlock, h]

theorem State.blockError_of_busy (hb : s.rtBusy = true) : s.blockError M = some .busy :=
  if_pos hb

theorem State.blockError_of_ne_prepared (hb : s.rtBusy = false) (hp : s.runState ≠ .prepared) :
    s.blockError M = some .notPrepared := by
  simp [State.blockError, hb, hp]

theorem State.blockError_of_tooLong (hb : s.rtBusy = false) (hp : s.runState = .prepared)
    (hM : s.latch.maxBlock.toNat < M) : s.blockError M = some .blockLen := by
  simp [State.blockError, hb, hp, hM]

/-- Both block commands answer to the same checks (R190, R199). -/
theorem exec_blockCommand_refused (h : s.blockError M = some e) :
    ∀ i ∈ [Instr.process M, .processBypassed M], exec i s = .next (s.raise e) := by
  rw [List.forall_mem_cons, List.forall_mem_singleton]
  exact ⟨acceptBlock_refused h false, acceptBlock_refused h true⟩

end

/-- Settles O8, by the checks of PREPARE in their order. -/
theorem prepareChecksItsArguments : Obligations.PrepareChecksItsArguments := by
  unfold Obligations.PrepareChecksItsArguments
  intro s hb hf bad
  refine ⟨fun hbad => ?badArgs, fun hgood hlayout => ?badLayout⟩
  case badArgs =>
    have hargs := State.prepareArgsOk_eq_false_iff.mpr hbad
    rw [exec_prepare_refused (State.prepareError_of_badArgs hb hf hargs), State.raise_prepareArg]
  case badLayout =>
    have hargs := eq_true_of_ne_false fun hfalse => hgood (State.prepareArgsOk_eq_false_iff.mp hfalse)
    rw [exec_prepare_refused (State.prepareError_of_badLayout hb hf hargs hlayout), State.raise_layout]

/-- Settles O12, one error of R281 after another. -/
theorem unacceptableCommandOnlyRecordsError : Obligations.UnacceptableCommandOnlyRecordsError := by
  unfold Obligations.UnacceptableCommandOnlyRecordsError
  intro s M
  rw [← State.raise_busy, ← State.raise_notPrepared, ← State.raise_blockLen]
  refine ⟨fun hb => ?busy, fun hb hp => ?notPrepared, fun hb hf => ?fatal, fun hb hp hM => ?blockLen⟩
  case busy =>
    rw [List.forall_mem_cons, List.forall_mem_cons]
    exact ⟨exec_prepare_refused (State.prepareError_of_busy hb), exec_release_of_busy hb,
      exec_blockCommand_refused (State.blockError_of_busy hb)⟩
  case notPrepared => exact exec_blockCommand_refused (State.blockError_of_ne_prepared hb hp)
  case fatal =>
    rw [List.forall_mem_cons, List.forall_mem_singleton]
    exact ⟨exec_prepare_refused (State.prepareError_of_fatal hb hf), exec_release_of_fatal hb hf⟩
  case blockLen => exact exec_blockCommand_refused (State.blockError_of_tooLong hb hp hM)

/-! ## What leaves RUN_STATE and ERR alone -/

/-- RUN_STATE and ERR stand. -/
structure ErrorsKept (s t : State) : Prop where
  runState : t.runState = s.runState
  err : t.err = s.err

section
variable {s t : State}

theorem ErrorsKept.refl (s : State) : ErrorsKept s s := ⟨rfl, rfl⟩

theorem RtKeeps.errorsKept (k : RtKeeps s t) : ErrorsKept s t := ⟨k.runState_eq, k.err_eq⟩

theorem State.writeDest_errorsKept (dst : Option Span) (c off : Nat) (vals : List F32) (s : State) :
    ErrorsKept s (s.writeDest dst c off vals) := by
  cases dst with
  | none => exact ErrorsKept.refl s
  | some sp => cases sp <;> exact ⟨rfl, rfl⟩

theorem State.fetch_errorsKept (s : State) : ErrorsKept s s.fetch :=
  ⟨s.rtFetch_fetched.runState, s.rtFetch_fetched.err⟩

theorem State.retire_errorsKept (s : State) : ErrorsKept s s.retire := by
  unfold State.retire
  split_ifs <;> exact ⟨rfl, rfl⟩

/-- BG changes neither, whatever state it finds (R231 to R236). -/
theorem State.bgStep_errorsKept (s : State) : ErrorsKept s s.bgStep := by
  unfold State.bgStep
  cases s.bg.pc with
  | idle =>
    simp only
    split_ifs
    · exact ⟨rfl, rfl⟩
    · exact s.retire_errorsKept
  | stage => exact ⟨rfl, rfl⟩
  | publish => exact ⟨rfl, rfl⟩

/-- Of the micro-operations only SCHED.CHECK raises an error (R270, R273). -/
theorem exec_microOp_errorsKept {i : Instr} (hmicro : i.isCommand = false) (hcheck : i ≠ .schedCheck) (s : State) :
    ∃ t, exec i s = .next t ∧ ErrorsKept s t := by
  cases i with
  | nop | prepare | release | process | processBypassed | notifySettings | notifyWindow => cases hmicro
  | schedCheck => exact absurd rfl hcheck
  | rbLast => exact ⟨_, rfl, State.writeDest_errorsKept _ _ _ _ _⟩
  | rbDrain =>
    obtain ⟨hrun, herr⟩ := State.writeDest_errorsKept s.op.dst s.rt.c.toNat s.rt.off.toNat
      (s.operandRing.drained s.rt.n.toNat s.op.consume)
      (s.modRing s.op.ring s.rt.c.toNat fun r => r.drain s.rt.n.toNat s.op.consume)
    exact ⟨_, rfl, hrun, herr⟩
  | cmpProcess =>
    show ∃ t, execCmpProcess s = .next t ∧ ErrorsKept s t
    simp only [execCmpProcess]
    split_ifs <;> exact ⟨_, rfl, rfl, rfl⟩
  | stftCycle => exact ⟨_, rfl, s.stftCycle_keeps.rt.errorsKept⟩
  | bypCycle => exact ⟨_, rfl, s.bypassCycle_keeps.rt.errorsKept⟩
  | schedIoStep => exact ⟨_, rfl, (State.ioStep_rtKeeps _ _ s).errorsKept⟩
  | schedZfill => exact ⟨_, rfl, (State.zeroFill_rtKeeps _ s).errorsKept⟩
  | setUpdate => exact ⟨_, rfl, (State.settingsUpdate_rtKeeps _ s).errorsKept⟩
  | cfgFetch => exact ⟨_, rfl, s.fetch_errorsKept⟩
  | cfgRetire => exact ⟨_, rfl, s.retire_errorsKept⟩
  | rbWrite | rbAcc | cmpSetThr | cmpSetTime | cmpSetRatio | scAnalyze | aggAcc | aggCommit | stftExtract | stftWinA
  | fftFwd | binScale | fftInv | stftWinS | stftOla | stftCount | schedAlign | setFlagCas | thrCurve | gainUpdate
  | cfgClaim | cfgStage | cfgPublish => exact ⟨_, rfl, rfl, rfl⟩

/-! ## FATAL stands (R291, R44) -/

/-- The state after an Assert, until the external reset: FATAL, with the cause ASSERT in ERR (R291). -/
structure State.Asserted (s : State) : Prop where
  fatal : s.runState = .fatal
  cause : s.err.causes.getLsbD 1 = true

/-- Where an instruction or an access answers a next state, it is FATAL with ASSERT set. -/
def AssertedNext (o : Host.Outcome State Fault Refusal) : Prop := ∀ t, o = .next t → t.Asserted

theorem assertedNext_next (h : t.Asserted) : AssertedNext (.next t) := by
  intro u hu
  cases hu
  exact h

theorem State.Asserted.of_errorsKept (h : s.Asserted) (k : ErrorsKept s t) : t.Asserted :=
  ⟨k.runState.trans h.fatal, by rw [k.err]; exact h.cause⟩

/-- An error sets cause bits and clears none (R271). -/
theorem ErrReg.record_causes_getLsbD {r : ErrReg} {i : Nat} (h : r.causes.getLsbD i = true) (e : BlockError) :
    (r.record e).causes.getLsbD i = true := by
  rw [ErrReg.record, BitVec.getLsbD_or, h, Bool.true_or]

/-- A further error, Assert included, stays in FATAL (R271, R273). -/
theorem State.Asserted.raise (h : s.Asserted) (e : BlockError) : (s.raise e).Asserted where
  fatal := by
    by_cases he : e = .assert
    · rw [he]
      rfl
    · rw [State.raise_eq e he]
      exact h.fatal
  cause := by
    rw [State.raise_err]
    exact ErrReg.record_causes_getLsbD h.cause e

theorem State.Asserted.checkConsumed (h : s.Asserted) : s.checkConsumed.Asserted := by
  unfold State.checkConsumed
  split_ifs
  · exact h.raise .assert
  · exact h

/-! ### RT's and BG's steps -/

theorem State.Asserted.rtStep (h : s.Asserted) : s.rtStep.Asserted := by
  by_cases hfetch : s.rt.pc = .fetch
  · rw [State.rtStep_fetch hfetch]
    exact h.of_errorsKept ⟨s.rtFetch_fetched.runState, s.rtFetch_fetched.err⟩
  by_cases hcheck : s.rt.pc = .check
  · rw [State.rtStep_check hcheck]
    exact h.checkConsumed.of_errorsKept ⟨rfl, rfl⟩
  · exact h.of_errorsKept (s.rtStep_rtKeeps hfetch hcheck).errorsKept

theorem State.Asserted.bgStep (h : s.Asserted) : s.bgStep.Asserted := h.of_errorsKept s.bgStep_errorsKept

theorem State.Asserted.unscheduled (h : s.Asserted) : s.unscheduled.Asserted := by
  unfold State.unscheduled
  split_ifs
  · exact h.rtStep
  · exact h.bgStep
  · exact h

/-! ### Instructions -/

theorem State.Asserted.acceptBlock (h : s.Asserted) (bypass : Bool) (M : Nat) :
    AssertedNext (Machine.acceptBlock bypass M s) := by
  cases he : s.blockError M with
  | some e =>
    rw [acceptBlock_refused he]
    exact assertedNext_next (h.raise e)
  | none => cases h.fatal.symm.trans (State.prepared_of_blockError_none he)

theorem State.Asserted.execPrepare (h : s.Asserted) : AssertedNext (exec .prepare s) := by
  cases he : s.prepareError with
  | some e =>
    rw [exec_prepare_refused he]
    exact assertedNext_next (h.raise e)
  | none => exact absurd h.fatal (State.ne_fatal_of_prepareError_none he)

theorem State.Asserted.execRelease (h : s.Asserted) : AssertedNext (exec .release s) := by
  cases hb : s.rtBusy with
  | true =>
    rw [exec_release_of_busy hb]
    exact assertedNext_next (h.raise .busy)
  | false =>
    rw [exec_release_of_fatal hb h.fatal]
    exact assertedNext_next (h.raise .notPrepared)

/-- In FATAL the commands that would change RUN_STATE are refused, and the notifications do nothing (R253, R277). -/
theorem State.Asserted.exec_command (h : s.Asserted) {i : Instr} (hc : i.isCommand = true) :
    AssertedNext (exec i s) := by
  have hp : s.runState ≠ .prepared := by
    rw [h.fatal]
    decide
  cases i with
  | nop => exact assertedNext_next h
  | prepare => exact h.execPrepare
  | release => exact h.execRelease
  | process M => exact h.acceptBlock false M
  | processBypassed M => exact h.acceptBlock true M
  | notifySettings =>
    rw [exec_notifySettings_of_ne_prepared hp]
    exact assertedNext_next h
  | notifyWindow =>
    rw [exec_notifyWindow_of_ne_prepared hp]
    exact assertedNext_next h
  | _ => cases hc

theorem State.Asserted.exec (h : s.Asserted) (i : Instr) : AssertedNext (Machine.exec i s) := by
  cases hc : i.isCommand with
  | true => exact h.exec_command hc
  | false =>
    by_cases hcheck : i = .schedCheck
    · subst hcheck
      exact assertedNext_next h.checkConsumed
    · obtain ⟨t, ht, hkept⟩ := exec_microOp_errorsKept hc hcheck s
      rw [ht]
      exact assertedNext_next (h.of_errorsKept hkept)

theorem State.Asserted.issueMicroOp (h : s.Asserted) (w : Word) : AssertedNext (Machine.issueMicroOp w s) := by
  unfold Machine.issueMicroOp
  cases decodeMicroOp w with
  | some i => exact h.exec i
  | none =>
    intro t ht
    cases ht

/-! ### HOST's accesses -/

theorem State.Asserted.issueCommand (h : s.Asserted) (w : Word) : AssertedNext (Machine.issueCommand w s) := by
  unfold Machine.issueCommand
  cases decodeCommand w with
  | some i => exact h.exec i
  | none => exact assertedNext_next (h.raise .illegalCmd)

/-- HOST's write of ERR clears every cause but ASSERT, and a write of another register leaves ERR alone (R44). -/
theorem State.Asserted.writeReg (h : s.Asserted) (r : HostReg) (v : Word) : (s.writeReg r v).Asserted where
  fatal := by
    rw [State.writeReg_eq]
    exact h.fatal
  cause := by
    cases r with
    | err =>
      show (s.err.clear v).causes.getLsbD 1 = true
      rw [ErrReg.clear_causes_getLsbD v s.err (by decide), h.cause, decide_eq_true rfl, Bool.or_true, Bool.and_true]
    | _ => exact h.cause

theorem State.hostStore_errorsKept (a : Nat) (v : Word) (s : State) : ErrorsKept s (s.hostStore a v) := by
  unfold State.hostStore
  split_ifs <;> exact ⟨rfl, rfl⟩

theorem State.Asserted.hostWrite (h : s.Asserted) (addr : Word) (width : Nat) (v : Word) :
    AssertedNext (Machine.hostWrite addr width v s) := by
  unfold Machine.hostWrite
  split_ifs
  · exact assertedNext_next (h.raise .bus)
  cases targetAt s.params addr.toNat with
  | register r =>
    simp only
    split_ifs
    · exact h.issueCommand v
    · exact assertedNext_next (h.writeReg r v)
  | reserved => exact assertedNext_next h
  | sample => exact assertedNext_next (h.of_errorsKept (s.hostStore_errorsKept addr.toNat v))
  | unmapped => exact assertedNext_next (h.raise .bus)

theorem State.Asserted.hostRead (h : s.Asserted) (addr : Word) (width : Nat) : (s.hostRead addr width).Asserted := by
  have bus : ({ s.raise .bus with hostData := 0#32 } : State).Asserted := (h.raise .bus).of_errorsKept ⟨rfl, rfl⟩
  unfold State.hostRead
  by_cases hbad : (!accessOk addr width) = true
  · rw [if_pos hbad]
    exact bus
  rw [if_neg hbad]
  cases targetAt s.params addr.toNat with
  | register r => exact h.of_errorsKept ⟨rfl, rfl⟩
  | reserved => exact h.of_errorsKept ⟨rfl, rfl⟩
  | sample =>
    simp only
    split_ifs <;> exact h.of_errorsKept ⟨rfl, rfl⟩
  | unmapped => exact bus

/-! ### Every step -/

/-- No entry of the schedule but the external reset leaves FATAL, a word on the micro-operation port included. -/
theorem State.Asserted.perform (h : s.Asserted) {e : Event} (he : e ≠ .reset) :
    AssertedNext (Machine.perform e s) := by
  cases e with
  | hostWrite addr width v => exact h.hostWrite addr width v
  | hostRead addr width => exact assertedNext_next (h.hostRead addr width)
  | rt => exact assertedNext_next h.rtStep
  | bg => exact assertedNext_next h.bgStep
  | issue w => exact h.issueMicroOp w
  | reset => exact absurd rfl he

end

/-- Settles O51, by cases on the schedule; taking an entry off it changes neither RUN_STATE nor ERR. -/
theorem onlyResetLeavesFatal : Obligations.OnlyResetLeavesFatal := by
  unfold Obligations.OnlyResetLeavesFatal
  intro s t hfatal hcause hhead hstep
  have h : s.Asserted := ⟨hfatal, hcause⟩
  suffices hnext : t.Asserted from ⟨hnext.fatal, hnext.cause⟩
  cases ha : s.agenda with
  | nil =>
    simp only [step, ha] at hstep
    exact assertedNext_next h.unscheduled t hstep
  | cons e rest =>
    have he : e ≠ .reset := fun hreset => hhead (by rw [ha, hreset]; rfl)
    have hrest : ({ s with agenda := rest } : State).Asserted := h.of_errorsKept ⟨rfl, rfl⟩
    rw [step_of_agenda ha] at hstep
    exact hrest.perform he t hstep

end Sys2Proof.Machine
